-- ==== Sys2Proof/Word.lean ====
section
/-! DEFINITION. The word and byte types of the CORE (spec/00_scope.md R9: registers and memory words are 32 bits, the arena is byte-addressed). -/

namespace Sys2Proof

/-- A register, bus or memory word (R9). -/
abbrev Word := BitVec 32

/-- One byte of a device buffer (R32, R64). -/
abbrev Byte := BitVec 8

end Sys2Proof
end

