-- ==== Sys2Proof/Syntax.lean ====
section
/-! DEFINITION. The command set: one constructor per row of spec/opcode_table.json (30_encoding.md R91). A command has no operand fields (R90). -/

namespace Sys2Proof

/-- The five commands of the CORE (R91). Every operand of a command is state (R95). -/
inductive Instr where
  /-- NOP, 0x0 (44_control.md R203). -/
  | nop
  /-- EXPAND, 0x1 (40_expander.md R112). -/
  | expand
  /-- ENCODE, 0x2 (41_encoder.md R132). -/
  | encode
  /-- DECODE, 0x3 (43_decoder.md R182). -/
  | decode
  /-- INVERT, 0x4 (42_inverter.md R154). -/
  | invert
  deriving DecidableEq, Repr

end Sys2Proof
end

