-- ==== Sys2Proof/WellFormed.lean ====
section
/-! DEFINITION. What is well formed. A command has no operand, so every `Instr` is well formed; the checks that can fail are those of the command WORD (R90, R92). -/

namespace Sys2Proof

/-- Every command is well formed: "a command takes no register numbers and no immediates" (R90). -/
def Instr.wf : Instr → Bool
  | .nop => true
  | .expand => true
  | .encode => true
  | .decode => true
  | .invert => true

/-- First check of a command word: RSVD = v[31:4] must be 0 (R90, R92). -/
def reservedBitsClear (v : Word) : Bool :=
  v.toNat / 16 == 0

/-- Second check of a command word: OP = v[3:0] is one of 0x0 .. 0x4 (R91, R92). -/
def opAssigned (v : Word) : Bool :=
  v.toNat % 16 ≤ 4

/-- A well-formed command word passes both checks; every other word is ILLEGAL (R92). -/
def commandWordWf (v : Word) : Bool :=
  reservedBitsClear v && opAssigned v

end Sys2Proof
end

