-- ==== Sys2Proof/Decode.lean ====
section
/-! DEFINITION. Decoding of command words, total on all 2^32 words (30_encoding.md R93), the encoder (R91), and the host's view of the decoder. -/

namespace Sys2Proof

/-- Why a command word is ILLEGAL (R92). -/
inductive IllegalWord where
  /-- RSVD = v[31:4] is not 0. -/
  | reservedBitsSet
  /-- RSVD is 0 and OP is one of 0x5 .. 0xF. -/
  | unassignedOp
  deriving DecidableEq, Repr

/-- The field OP = v[3:0] (R90). -/
def opField (v : Word) : BitVec 4 :=
  v.extractLsb' 0 4

/-- The field RSVD = v[31:4] (R90). -/
def rsvdField (v : Word) : BitVec 28 :=
  v.extractLsb' 4 28

/-- `decode_cmd` of R93: the reserved field first, then the operation; an illegal word is rejected with its reason. -/
def decodeCmd (v : Word) : Except IllegalWord Instr :=
  if rsvdField v ≠ 0#28 then .error .reservedBitsSet
  else match (opField v).toNat with
    | 0 => .ok .nop
    | 1 => .ok .expand
    | 2 => .ok .encode
    | 3 => .ok .decode
    | 4 => .ok .invert
    | _ => .error .unassignedOp

/-- The command word of each command (R91). -/
def encodeCmd : Instr → Word
  | .nop => 0x00000000#32
  | .expand => 0x00000001#32
  | .encode => 0x00000002#32
  | .decode => 0x00000003#32
  | .invert => 0x00000004#32

/-- The 32-bit command word that the opcode table's numbering `w` of `nbits` bits stands for: the command word is
written to CMD as one 32-bit word (R90), so no byte order enters. -/
def tableWord (nbits w : Nat) : Word :=
  BitVec.ofNat 32 (w % 2 ^ nbits)

/-- What the decoder reads from a word numbered as spec/opcode_table.json numbers it; none where it refuses. -/
def decodeTableWord (nbits w : Nat) : Option Instr :=
  match decodeCmd (tableWord nbits w) with
  | .ok i => some i
  | .error _ => none

end Sys2Proof
end

