-- ==== Sys2Proof/Config.lean ====
section
/-! DEFINITION. What an instance fixes (00_scope.md R6, R7) and the free values of the model: values the spec leaves unspecified, opaque constants that nothing can evaluate. -/

namespace Sys2Proof

/-- The implementation parameters of one instance (R6). `polyLow` lists POLY_LOW[1], POLY_LOW[2], … in order (R7). -/
structure Params where
  kMax : Nat
  mMax : Nat
  wMax : Nat
  xorBytes : Nat
  arenaBytes : Nat
  polyLow : List Word
  deriving DecidableEq, Repr

namespace Params

/-- KW_MAX = K_MAX · W_MAX (R6). -/
def kwMax (p : Params) : Nat := p.kMax * p.wMax

/-- MW_MAX = M_MAX · W_MAX (R6). -/
def mwMax (p : Params) : Nat := p.mMax * p.wMax

/-- RW_WORDS = ceil(KW_MAX / 32) (R6). -/
def rwWords (p : Params) : Nat := (p.kwMax + 31) / 32

/-- GEN_ENTRIES = K_MAX · M_MAX (R6). -/
def genEntries (p : Params) : Nat := p.kMax * p.mMax

/-- ER_SLOTS = M_MAX + 1 (R6). -/
def erSlots (p : Params) : Nat := p.mMax + 1

/-- POLY_LOW[w] for w ≥ 1 (R6, R7). -/
def polyLowAt (p : Params) (w : Nat) : Word := p.polyLow.getD (w - 1) 0#32

/-- The constraint column of R6's table, but for irreducibility (see `Safety.PolyIrreducible`). -/
def sizesLegal (p : Params) : Bool :=
  (1 ≤ p.kMax && p.kMax ≤ 255) && (1 ≤ p.mMax && p.mMax ≤ 255) && (1 ≤ p.wMax && p.wMax ≤ 32)
    && [1, 2, 4, 8, 16, 32, 64, 128].contains p.xorBytes
    && (p.arenaBytes % 4 == 0 && 4 ≤ p.arenaBytes && p.arenaBytes ≤ 2 ^ 31)
    && p.polyLow.length == p.wMax
    && (List.range p.wMax).all (fun n => decide ((p.polyLowAt (n + 1)).toNat < 2 ^ (n + 1)))

/-- The default polynomial table of R7, w = 1 .. 16. PRESUMED (log 12): the spec marks it general knowledge. -/
def defaultPolyLow1to16 : List Word :=
  [0x1#32, 0x3#32, 0x3#32, 0x3#32, 0x5#32, 0x3#32, 0x9#32, 0x1d#32,
   0x11#32, 0x9#32, 0x5#32, 0x53#32, 0x1b#32, 0x443#32, 0x3#32, 0x100b#32]

/-- The default polynomial table of R7, w = 17 .. 32. PRESUMED (log 12). -/
def defaultPolyLow17to32 : List Word :=
  [0x9#32, 0x81#32, 0x27#32, 0x9#32, 0x5#32, 0x3#32, 0x21#32, 0x87#32,
   0x9#32, 0x47#32, 0x27#32, 0x9#32, 0x5#32, 0x800007#32, 0x9#32, 0x400007#32]

/-- The reference configuration of R6 with the default polynomials of R7 (log 11, log 12). -/
def reference : Params where
  kMax := 16
  mMax := 4
  wMax := 32
  xorBytes := 8
  arenaBytes := 0x100000
  polyLow := defaultPolyLow1to16 ++ defaultPolyLow17to32

end Params

/-- FREE VALUE (log 6): the word the `n`-th unspecified memory read while Busy returns (20_memory.md R70(d), I6). -/
opaque Config.busyReadWord : Nat → BitVec 32

/-- FREE VALUE (log 8): what arena byte `a` holds after the `n`-th reset that abandoned a command (R243, I5). -/
opaque Config.abandonedByte : Nat → Nat → BitVec 8

/-- FREE VALUE (log 8): what bit (r, c) of BM or INVM holds after the `n`-th reset that abandoned a command (R243, I5). -/
opaque Config.abandonedBit : Nat → Nat → Nat → Bool

end Sys2Proof
end

