-- ==== Sys2Proof/Machine/State.lean ====
section
/-! DEFINITION. The state of one CORE instance (10_state.md R20 to R37) with the model's own input fields, the reasons to stop, and the state after reset. -/

namespace Sys2Proof.Machine

/-- A memory in canonical form: (byte offset in its window, byte), offsets strictly rising, no entry equal to what an
unlisted offset reads as (`unlistedByte`). -/
abbrev Memory := List Host.Cell

/-- What a byte that is not listed reads as. DESIGN CHOICE (log 1): the spec leaves memory contents at power-on
unspecified (70_reset_and_hazards.md R242, I4). -/
def unlistedByte : Byte := 0#8

/-- The error codes of STATUS.ERR (60_exceptions.md R211); codes 6 and 7 are never produced. -/
inductive ErrCode where
  /-- code 0, NONE -/
  | noError
  /-- code 1, CONFIG (R212) -/
  | config
  /-- code 2, SHAPE (R213) -/
  | shape
  /-- code 3, ERASURE (R214) -/
  | erasure
  /-- code 4, SINGULAR (R215) -/
  | singular
  /-- code 5, ILLEGAL (R216) -/
  | illegal
  deriving DecidableEq, Repr

/-- `pending_op` (R33): the commands that enter Busy. NOP and illegal words never do. -/
inductive PendingOp where
  | expand
  | encode
  | decode
  | invert
  deriving DecidableEq, Repr

/-- The sequencer: `phase` with `pending_op`, which is "meaningful only when `phase = Busy`" (R33, log 13). -/
inductive Phase where
  | idle
  | busy (pendingOp : PendingOp)
  deriving DecidableEq, Repr

/-- Direction of a bus access, with the data word of a write (20_memory.md R60). -/
inductive Direction where
  | read
  | write (data : Word)
  deriving DecidableEq, Repr

/-- One host bus access (R60). `bytes` is how many bytes it moves: 4 is the only legal number (R61). -/
structure Access where
  dir : Direction
  addr : BitVec 32
  bytes : Nat
  deriving DecidableEq, Repr

/-- One entry of the schedule: what happens next (log 3). -/
inductive Event where
  /-- HOST issues an access (R8, R60). -/
  | access (a : Access)
  /-- CORE takes its turn: the completion step if it is Busy (R202); nothing is enabled otherwise. -/
  | coreTurn
  /-- The reset input becomes asserted (70_reset_and_hazards.md R240). -/
  | resetAssert
  /-- The reset input is released (R240). -/
  | resetRelease
  deriving DecidableEq, Repr

/-- Why an access is answered with a bus error (R61, R63). -/
inductive BusError where
  /-- The access does not move exactly 4 bytes (R61). -/
  | partialAccess
  /-- The address is not a multiple of 4 (R61). -/
  | misaligned
  /-- The address is in no region of the map (R62, R63). -/
  | unmapped
  deriving DecidableEq, Repr

/-- What the port answered to the host's last access (R60, R63; the model's own field, log 5). -/
inductive Response where
  | noAccess
  /-- a read returned its data -/
  | data (v : Word)
  /-- a write was taken (a write dropped while Busy is not a bus error: R70) -/
  | acknowledged
  | busError (e : BusError)
  deriving DecidableEq, Repr

/-- Why the machine has no next state. -/
inductive Fault where
  /-- Raised by `step` when the schedule is empty and the CORE is Idle: the run has ended (R254). Safe: no state follows. -/
  | endOfRun
  /-- Raised by a host access while the reset input is asserted: "a model gives them no move" (R240, I11). Safe. -/
  | accessDuringReset
  deriving DecidableEq, Repr

/-- Why the model gives no meaning. -/
inductive Refusal where
  /-- Raised only by an arm of `exec` whose command has no meaning yet. Safe. No arm raises it. -/
  | notModelled (mnemonic : String)
  deriving DecidableEq, Repr

/-- The state (R20). Every field is plain data. -/
structure State where
  /-- the instance's parameters (00_scope.md R6), what ID, PARAM0 and PARAM1 read from (R21 to R23); no step changes them -/
  params : Params
  /-- CTRL[0], IE (R24) -/
  ie : Bool
  /-- CFG_K (R25) -/
  cfgK : Word
  /-- CFG_M (R25) -/
  cfgM : Word
  /-- CFG_W (R25) -/
  cfgW : Word
  /-- CFG_PS (R25) -/
  cfgPs : Word
  /-- CFG_SIZE (R25) -/
  cfgSize : Word
  /-- STATUS[1], DONE (R26); BUSY is derived from `phase` (R33) -/
  done : Bool
  /-- STATUS[2], ANYERR (R26) -/
  anyErr : Bool
  /-- STATUS[3], WERR (R26) -/
  werr : Bool
  /-- STATUS[10:8], ERR (R26, R211) -/
  err : ErrCode
  /-- ERASE[0 .. ER_SLOTS-1] (R27) -/
  erase : List Word
  /-- GEN (R29) -/
  gen : Memory
  /-- BM (R30) -/
  bm : Memory
  /-- INVM (R31) -/
  invm : Memory
  /-- ARENA (R32) -/
  arena : Memory
  /-- phase and pending_op (R33) -/
  phase : Phase
  /-- the reset input is asserted (R240, log 7) -/
  inReset : Bool
  /-- the model's own: what happens next, oldest first (log 3) -/
  schedule : List Event
  /-- the model's own: the answer to the last access (log 5) -/
  response : Response
  /-- the model's own: which free value comes next (log 6) -/
  draws : Nat
  deriving DecidableEq, Repr

/-- The sentinel of the erasure list, also every ERASE slot's reset value (R27, 30_encoding.md R94). -/
def sentinel : Word := 0xFFFFFFFF#32

/-- An instance at power-on, reset just released, with memories holding `gen`, `bm`, `invm`, `arena`: registers at the values
of R37, memories unspecified (R242), so any values here. -/
def State.powerOn (p : Params) (gen bm invm arena : Memory) : State where
  params := p
  ie := false
  cfgK := 0#32
  cfgM := 0#32
  cfgW := 0#32
  cfgPs := 0#32
  cfgSize := 0#32
  done := false
  anyErr := false
  werr := false
  err := .noError
  erase := List.replicate p.erSlots sentinel
  gen := gen
  bm := bm
  invm := invm
  arena := arena
  phase := .idle
  inReset := false
  schedule := []
  response := .noAccess
  draws := 0

/-- The machine right after reset (R37, R240), in the reference configuration (log 11). Memories list nothing (log 1). -/
def State.reset : State :=
  State.powerOn Params.reference [] [] [] []

end Sys2Proof.Machine
end

