-- ==== Sys2Proof/Machine/Ops.lean ====
section
/-! DEFINITION. The shared operations: bytes, words, byte strings and matrix bits of a memory (20_memory.md R64, R66, R67), named updates of State, and the completion report (60_exceptions.md R219), which is this hardware's one way to end a command. -/

namespace Sys2Proof.Machine

/-! ### Memory -/

/-- The byte at offset `a`. -/
def Memory.read : Memory → Nat → Byte
  | [], _ => unlistedByte
  | (k, b) :: rest, a => if k = a then b else Memory.read rest a

/-- Store byte `b` at offset `a`, keeping the canonical form. -/
def Memory.write : Memory → Nat → Byte → Memory
  | [], a, b => if b = unlistedByte then [] else [(a, b)]
  | (k, v) :: rest, a, b =>
    if a < k then
      if b = unlistedByte then (k, v) :: rest else (a, b) :: (k, v) :: rest
    else if a = k then
      if b = unlistedByte then rest else (a, b) :: rest
    else (k, v) :: Memory.write rest a b

/-- No entry of the list lies at or below `a`: what the head's offset demands of the next entry. -/
def Memory.headAbove (a : Nat) : Memory → Bool
  | [] => true
  | (k, _) :: _ => decide (a < k)

/-- The canonical form: offsets strictly rising, no entry equal to what an unlisted offset reads as. -/
def Memory.wf : Memory → Bool
  | [] => true
  | (k, v) :: rest => decide (v ≠ unlistedByte) && Memory.headAbove k rest && Memory.wf rest

/-- Every listed offset lies below `size`. -/
def Memory.within (size : Nat) (m : Memory) : Bool :=
  m.all (fun c => decide (c.1 < size))

/-- `MemRead(a, n)` (R10, R64). -/
def memRead (m : Memory) (a n : Nat) : List Byte :=
  (List.range n).map (fun o => m.read (a + o))

/-- `MemWrite(a, n, bs)` with `n` the length of `bs` (R10, R64). -/
def memWrite : Memory → Nat → List Byte → Memory
  | m, _, [] => m
  | m, a, b :: bs => memWrite (m.write a b) (a + 1) bs

/-- Byte lane `t` of a word, bits [8t+7 : 8t] (R64). -/
def byteLane (v : Word) (t : Nat) : Byte :=
  v.extractLsb' (8 * t) 8

/-- The word whose byte lanes 0 .. 3 are the given bytes (R64). -/
def wordOfBytes (b0 b1 b2 b3 : Byte) : Word :=
  b3 ++ b2 ++ b1 ++ b0

/-- A 32-bit read at offset `a`, little-endian (R64). For GEN, BM and INVM the lanes are not observable (log 2). -/
def readWord (m : Memory) (a : Nat) : Word :=
  wordOfBytes (m.read a) (m.read (a + 1)) (m.read (a + 2)) (m.read (a + 3))

/-- A 32-bit write at offset `a`, little-endian, all four bytes (R64, R71). -/
def writeWord (m : Memory) (a : Nat) (v : Word) : Memory :=
  memWrite m a [byteLane v 0, byteLane v 1, byteLane v 2, byteLane v 3]

/-! ### Matrix bits -/

/-- Offset of the byte that holds column `c` of stored row `r`: bit `c mod 32` of word `c div 32` of a row of `rw` words (R67). -/
def bitCell (rw r c : Nat) : Nat :=
  4 * (r * rw) + c / 8

/-- `X.bit(r, c)` (R10, R67). -/
def readBit (m : Memory) (rw r c : Nat) : Bool :=
  (m.read (bitCell rw r c)).getLsbD (c % 8)

/-- A byte with bit `t` set to `x`. -/
def setByteBit (b : Byte) (t : Nat) (x : Bool) : Byte :=
  if x then b ||| (1#8 <<< t) else b &&& ~~~(1#8 <<< t)

/-- `X.bit(r, c) <- x`. -/
def writeBit (m : Memory) (rw r c : Nat) (x : Bool) : Memory :=
  m.write (bitCell rw r c) (setByteBit (m.read (bitCell rw r c)) (c % 8) x)

/-- Write columns `0 .. cols-1` of row `r`. -/
def writeRow (m : Memory) (rw r cols : Nat) (f : Nat → Bool) : Memory :=
  (List.range cols).foldl (fun m c => writeBit m rw r c (f c)) m

/-- Write the bits (r, c) with `r < rows`, `c < cols`, and no other bit (R114, R155, R177). -/
def writeBlock (m : Memory) (rw rows cols : Nat) (f : Nat → Nat → Bool) : Memory :=
  (List.range rows).foldl (fun m r => writeRow m rw r cols (f r)) m

/-! ### Named updates of State -/

namespace State

/-- BM replaced. -/
def withBm (s : State) (m : Memory) : State := { s with bm := m }

/-- INVM replaced. -/
def withInvm (s : State) (m : Memory) : State := { s with invm := m }

/-- ARENA replaced. -/
def withArena (s : State) (m : Memory) : State := { s with arena := m }

/-- GEN replaced. -/
def withGen (s : State) (m : Memory) : State := { s with gen := m }

/-- The answer to the last access replaced. -/
def withResponse (s : State) (r : Response) : State := { s with response := r }

/-- The schedule replaced. -/
def withSchedule (s : State) (es : List Event) : State := { s with schedule := es }

/-- A dropped write: nothing changes except STATUS.WERR (R70(a)). -/
def dropWrite (s : State) : State := { s with werr := true }

/-- The next free value will be another one (log 6). -/
def nextDraw (s : State) : State := { s with draws := s.draws + 1 }

/-- The completion report (R219): ERR <- code, DONE <- 1, and ANYERR <- 1 if the code is not 0. -/
def report (s : State) (code : ErrCode) : State :=
  { s with err := code, done := true, anyErr := s.anyErr || decide (code ≠ .noError) }

/-- The completion of a command that was Busy (44_control.md R202): the report and phase <- Idle. -/
def complete (s : State) (code : ErrCode) : State :=
  { s.report code with phase := .idle }

/-- Acceptance of a command that enters Busy (R200): phase, pending_op, DONE <- 0, nothing else. -/
def accept (s : State) (op : PendingOp) : State :=
  { s with phase := .busy op, done := false }

end State

/-- R202 and R217: a command is evaluated to its writes or to a raised error with no writes; either way it completes. -/
def finish (s : State) : Except ErrCode State → State
  | .ok written => written.complete .noError
  | .error code => s.complete code

end Sys2Proof.Machine
end

