-- ==== Sys2Proof/Machine/Flags.lean ====
section
/-! DEFINITION. The status and control registers as words, their host writes, and the interrupt output (10_state.md R22 to R26, R35; 60_exceptions.md R211, R222). -/

namespace Sys2Proof.Machine

/-- The code of STATUS.ERR (R211). -/
def ErrCode.code : ErrCode → BitVec 3
  | .noError => 0#3
  | .config => 1#3
  | .shape => 2#3
  | .erasure => 3#3
  | .singular => 4#3
  | .illegal => 5#3

/-- STATUS.BUSY reads 1 exactly when the sequencer is Busy (R33). -/
def Phase.isBusy : Phase → Bool
  | .idle => false
  | .busy _ => true

namespace State

/-- STATUS as the host reads it (R26): ERR in [10:8], WERR, ANYERR, DONE, BUSY in [3:0], the rest 0. -/
def statusWord (s : State) : Word :=
  0#21 ++ s.err.code ++ 0#4 ++ BitVec.ofBool s.werr ++ BitVec.ofBool s.anyErr ++ BitVec.ofBool s.done
    ++ BitVec.ofBool s.phase.isBusy

/-- CTRL as the host reads it (R24): IE in [0], the rest 0. -/
def ctrlWord (s : State) : Word := 0#31 ++ BitVec.ofBool s.ie

/-- IRQ = CTRL.IE & STATUS.DONE (R35, R222). -/
def irq (s : State) : Bool := s.ie && s.done

/-- A host write to STATUS (R26): bits 1, 2, 3 written as 1 clear DONE, ANYERR, WERR; every other bit is ignored. -/
def writeStatus (s : State) (v : Word) : State :=
  { s with
    done := s.done && !v.getLsbD 1
    anyErr := s.anyErr && !v.getLsbD 2
    werr := s.werr && !v.getLsbD 3 }

/-- A host write to CTRL (R24): bit 0 is IE, the rest is ignored. -/
def writeCtrl (s : State) (v : Word) : State := { s with ie := v.getLsbD 0 }

end State

/-- ID (R21). -/
def idWord : Word := 0x4A424D43#32

/-- PARAM0 (R22): XOR_BYTES, two reserved bits, W_MAX, M_MAX, K_MAX. -/
def param0Word (p : Params) : Word :=
  BitVec.ofNat 8 p.xorBytes ++ 0#2 ++ BitVec.ofNat 6 p.wMax ++ BitVec.ofNat 8 p.mMax ++ BitVec.ofNat 8 p.kMax

/-- PARAM1 (R23): ARENA_BYTES. -/
def param1Word (p : Params) : Word := BitVec.ofNat 32 p.arenaBytes

end Sys2Proof.Machine
end

