-- ==== Sys2Proof/Machine/Operands.lean ====
section
/-! DEFINITION. Operand assembly (30_encoding.md R95): the CFG registers as naturals, generator entries (10_state.md R29), matrix bits (R30, R31), bit-planes (20_memory.md R65) and erasure slots (R27). -/

namespace Sys2Proof.Machine.State

/-- K, the full CFG_K register as a natural number (R25, R95). -/
def opK (s : State) : Nat := s.cfgK.toNat

/-- M (R25, R95). -/
def opM (s : State) : Nat := s.cfgM.toNat

/-- W (R25, R95). -/
def opW (s : State) : Nat := s.cfgW.toNat

/-- PS (R25, R95). -/
def opPs (s : State) : Nat := s.cfgPs.toNat

/-- SIZE (R25, R95). -/
def opSize (s : State) : Nat := s.cfgSize.toNat

/-- N = K · W, the dimension of the decoding matrix (R150, R175). -/
def opN (s : State) : Nat := s.opK * s.opW

/-- POLY_LOW[W] of the instance (R7). -/
def opPoly (s : State) : Word := s.params.polyLowAt s.opW

/-- The word GEN[n] (R29, R66). -/
def genWord (s : State) (n : Nat) : Word := readWord s.gen (4 * n)

/-- The generator entry G(i, j) = GEN[i·K + j] (R29, R110). -/
def genEntry (s : State) (i j : Nat) : Word := s.genWord (i * s.opK + j)

/-- BM.bit(r, c) (R30). -/
def bmBit (s : State) (r c : Nat) : Bool := readBit s.bm s.params.rwWords r c

/-- INVM.bit(r, c) (R31). -/
def invmBit (s : State) (r c : Nat) : Bool := readBit s.invm s.params.rwWords r c

/-- The ERASE slot `i` (R27); slots beyond ER_SLOTS-1 do not exist and read as the sentinel: no
completion reads one (log 16), and an abandoned DECODE with CFG_M > M_MAX may (log 27). -/
def eraseSlot (s : State) (i : Nat) : Word := s.erase.getD i sentinel

/-- Arena offset of bit-plane `b` of device `d` (R65). -/
def planeAt (s : State) (d b : Nat) : Nat := d * s.opSize + b * s.opPs

/-- Arena offset x lies in device d's buffer: bytes d·SIZE .. d·SIZE + SIZE − 1 (R65). -/
abbrev inDevice (s : State) (d x : Nat) : Prop := d * s.opSize ≤ x ∧ x < d * s.opSize + s.opSize

/-- `plane(d, b)` read from the arena contents `m` (R10, R65). -/
def planeOf (s : State) (m : Memory) (d b : Nat) : List Byte := memRead m (s.planeAt d b) s.opPs

/-- `plane(d, b)` of the state's own arena (R10, R65). -/
def plane (s : State) (d b : Nat) : List Byte := s.planeOf s.arena d b

/-- Device d written into `m` plane by plane, plane b being `pl b` (R65, R132, R178). -/
def writeDevice (s : State) (m : Memory) (d : Nat) (pl : Nat → List Byte) : Memory :=
  (List.range s.opW).foldl (fun m b => memWrite m (s.planeAt d b) (pl b)) m

/-- The devices `ds` written into `m` in order, plane b of device d being `pl d b`. -/
def writeDevices (s : State) (ds : List Nat) (pl : Nat → Nat → List Byte) (m : Memory) : Memory :=
  ds.foldl (fun m d => s.writeDevice m d (pl d)) m

end Sys2Proof.Machine.State
end

