-- ==== Sys2Proof/Machine/Bus.lean ====
section
/-! DEFINITION. The host port: the address map, reads and writes of every location, and the access rules while Busy (20_memory.md R60 to R73). -/

namespace Sys2Proof.Machine

/-- A location of the address map (R62). Memory locations carry their byte offset in the window. -/
inductive Location where
  | id | param0 | param1 | ctrl | status | cmd
  | cfgK | cfgM | cfgW | cfgPs | cfgSize
  | erase (slot : Nat)
  | gen (offset : Nat)
  | bm (offset : Nat)
  | invm (offset : Nat)
  | arena (offset : Nat)
  deriving DecidableEq, Repr

/-- Window bases (R62). -/
def eraseBase : Nat := 0x100
def genBase : Nat := 0x01000000
def bmBase : Nat := 0x02000000
def invmBase : Nat := 0x03000000
def arenaBase : Nat := 0x80000000

/-- The region a word-aligned address falls in (R62); none is unmapped. -/
def locate (p : Params) (a : Nat) : Option Location :=
  if a = 0x00 then some .id
  else if a = 0x04 then some .param0
  else if a = 0x08 then some .param1
  else if a = 0x10 then some .ctrl
  else if a = 0x14 then some .status
  else if a = 0x18 then some .cmd
  else if a = 0x20 then some .cfgK
  else if a = 0x24 then some .cfgM
  else if a = 0x28 then some .cfgW
  else if a = 0x2C then some .cfgPs
  else if a = 0x30 then some .cfgSize
  else if eraseBase ≤ a ∧ a < eraseBase + 4 * p.erSlots then some (.erase ((a - eraseBase) / 4))
  else if genBase ≤ a ∧ a < genBase + 4 * p.genEntries then some (.gen (a - genBase))
  else if bmBase ≤ a ∧ a < bmBase + 4 * (p.mwMax * p.rwWords) then some (.bm (a - bmBase))
  else if invmBase ≤ a ∧ a < invmBase + 4 * (p.kwMax * p.rwWords) then some (.invm (a - invmBase))
  else if arenaBase ≤ a ∧ a < arenaBase + p.arenaBytes then some (.arena (a - arenaBase))
  else none

/-- Where an access goes, or the bus error it is answered with: width first, then alignment, then the map (R61, R63). -/
def resolve (p : Params) (a : Access) : Except BusError Location :=
  if a.bytes ≠ 4 then .error .partialAccess
  else if a.addr.toNat % 4 ≠ 0 then .error .misaligned
  else match locate p a.addr.toNat with
    | none => .error .unmapped
    | some l => .ok l

/-- GEN, BM, INVM or ARENA (R70(d)). -/
def Location.isMemory : Location → Bool
  | .gen _ => true
  | .bm _ => true
  | .invm _ => true
  | .arena _ => true
  | _ => false

/-- Locations whose writes take effect, or are ignored, the same way while Busy: CTRL and STATUS (R70(b)), ID, PARAM0, PARAM1 (R69).
A write to any other location is dropped while Busy (R70(a)). -/
def Location.writableWhileBusy : Location → Bool
  | .id => true
  | .param0 => true
  | .param1 => true
  | .ctrl => true
  | .status => true
  | _ => false

namespace State

/-- The current value of a location (R21 to R32, R64, R66, R67; a read of CMD is 0, R28, R69). -/
def readLocation (s : State) : Location → Word
  | .id => idWord
  | .param0 => param0Word s.params
  | .param1 => param1Word s.params
  | .ctrl => s.ctrlWord
  | .status => s.statusWord
  | .cmd => 0#32
  | .cfgK => s.cfgK
  | .cfgM => s.cfgM
  | .cfgW => s.cfgW
  | .cfgPs => s.cfgPs
  | .cfgSize => s.cfgSize
  | .erase i => s.eraseSlot i
  | .gen o => readWord s.gen o
  | .bm o => readWord s.bm o
  | .invm o => readWord s.invm o
  | .arena o => readWord s.arena o

/-- A write that takes effect, for every location but CMD, whose write is a command issue (R28, R68; `issueCommand`).
ID, PARAM0 and PARAM1 ignore it (R69). -/
def writeLocation (s : State) (v : Word) : Location → State
  | .id => s
  | .param0 => s
  | .param1 => s
  | .ctrl => s.writeCtrl v
  | .status => s.writeStatus v
  | .cmd => s
  | .cfgK => { s with cfgK := v }
  | .cfgM => { s with cfgM := v }
  | .cfgW => { s with cfgW := v }
  | .cfgPs => { s with cfgPs := v }
  | .cfgSize => { s with cfgSize := v }
  | .erase i => { s with erase := s.erase.set i v }
  | .gen o => s.withGen (writeWord s.gen o v)
  | .bm o => s.withBm (writeWord s.bm o v)
  | .invm o => s.withInvm (writeWord s.invm o v)
  | .arena o => s.withArena (writeWord s.arena o v)

/-- A legal host read (R68, R70(c), R70(d)): memories answer a free value while Busy (log 6), all else its current value. -/
def hostRead (s : State) (l : Location) : State :=
  if s.phase.isBusy && l.isMemory then (s.withResponse (.data (Config.busyReadWord s.draws))).nextDraw
  else s.withResponse (.data (s.readLocation l))

/-- A bus error is reported on the access and changes nothing else (R63, R221, log 4). -/
def answerBusError (s : State) (e : BusError) : State :=
  s.withResponse (.busError e)

end State

end Sys2Proof.Machine
end

