-- ==== Sys2Proof/Machine/Control.lean ====
section
/-! DEFINITION. NOP (44_control.md R201, R203). -/

namespace Sys2Proof.Machine

/-- NOP completes with ERR = 0 in the accepting step; `phase` is not written (R201, R203). -/
def execNop (s : State) : Host.Outcome State Fault Refusal :=
  .next (s.report .noError)

end Sys2Proof.Machine
end

