-- ==== Sys2Proof/Machine/Checks.lean ====
section
/-! DEFINITION. The checks every command makes before it writes (60_exceptions.md R212 to R218): on unbounded naturals (00_scope.md R9). -/

namespace Sys2Proof.Machine.State

/-- `cfg_ok` (R212). -/
def cfgOk (s : State) : Bool :=
  (1 ≤ s.opK && s.opK ≤ s.params.kMax) && (1 ≤ s.opM && s.opM ≤ s.params.mMax)
    && (1 ≤ s.opW && s.opW ≤ s.params.wMax) && (s.opK + s.opM ≤ 2 ^ s.opW)

/-- EXPAND's entry check: every G(i, j) with i < M, j < K is below 2^W (R111). -/
def entriesOk (s : State) : Bool :=
  (List.range s.opM).all (fun i =>
    (List.range s.opK).all (fun j => decide ((s.genEntry i j).toNat < 2 ^ s.opW)))

/-- `shape_ok` (R213), evaluated only after `cfg_ok` holds. -/
def shapeOk (s : State) : Bool :=
  (1 ≤ s.opPs) && (s.opPs % s.params.xorBytes == 0) && (s.opSize == s.opW * s.opPs)
    && ((s.opK + s.opM) * s.opSize ≤ s.params.arenaBytes)

/-- The erasure scan of R172 from slot i = M − left on, with the entries met so far. The slot's tests in the rule's order:
the sentinel ends the list; an (M+1)-th entry, an index ≥ K + M or a duplicate raises ERASURE. -/
def eraseScanFrom (s : State) : (left : Nat) → List Nat → Except ErrCode (List Nat)
  | 0, met => if s.eraseSlot s.opM = sentinel then .ok met else .error .erasure
  | left + 1, met =>
    let e := s.eraseSlot (s.opM - (left + 1))
    if e = sentinel then .ok met
    else if e.toNat ≥ s.opK + s.opM then .error .erasure
    else if met.contains e.toNat then .error .erasure
    else eraseScanFrom s left (met ++ [e.toNat])

/-- `erase_scan()` (R172). -/
def eraseScan (s : State) : Except ErrCode (List Nat) :=
  s.eraseScanFrom s.opM []

end Sys2Proof.Machine.State
end

