-- ==== Sys2Proof/Machine/Encoder.lean ====
section
/-! DEFINITION. bit_matrix_encoder: the XOR-reduction and ENCODE (41_encoder.md R130 to R139). -/

namespace Sys2Proof.Machine

/-- `xor(s1, s2)` of two byte strings of equal length (R10). -/
def xorBytes (x y : List Byte) : List Byte := List.zipWith (fun p q => p ^^^ q) x y

/-- `zeros(n)` (R10). -/
def zeroBytes (n : Nat) : List Byte := List.replicate n 0#8

/-- One XOR-reduction tree: the XOR over j < k, c < w with `sel j c` of the plane `pl j c`, from `ps` zero bytes (R132, R178). -/
def xorTree (ps k w : Nat) (sel : Nat → Nat → Bool) (pl : Nat → Nat → List Byte) : List Byte :=
  (List.range k).foldl (fun acc j =>
    (List.range w).foldl (fun acc c => if sel j c then xorBytes acc (pl j c) else acc) acc) (zeroBytes ps)

/-- Bit-plane b of coding device K+i, computed from the data planes in the arena contents `src` (R132). -/
def State.codingPlane (s : State) (src : Memory) (i b : Nat) : List Byte :=
  xorTree s.opPs s.opK s.opW (fun j c => s.bmBit (i * s.opW + b) (j * s.opW + c)) (fun j c => s.planeOf src j c)

/-- The coding devices K .. K+M−1 (R65). -/
def State.codingDevices (s : State) : List Nat := (List.range s.opM).map (fun i => s.opK + i)

/-- The coding devices `ds` written, each plane computed from the data planes of `src` (R132). -/
def State.encodeInto (s : State) (ds : List Nat) (src dst : Memory) : Memory :=
  s.writeDevices ds (fun d b => s.codingPlane src (d - s.opK) b) dst

/-- All M coding devices written, the planes read as they stand at the start of the command (R132). -/
def State.encodeArena (s : State) : Memory := s.encodeInto s.codingDevices s.arena s.arena

/-- ENCODE's checks (R131), then its writes (R132, R133). -/
def encodeEffect (s : State) : Except ErrCode State :=
  if !s.cfgOk then .error .config
  else if !s.shapeOk then .error .shape
  else .ok (s.withArena s.encodeArena)

/-- ENCODE, the completion step (R132, R202). -/
def execEncode (s : State) : Host.Outcome State Fault Refusal :=
  .next (finish s (encodeEffect s))

end Sys2Proof.Machine
end

