-- ==== Sys2Proof/Machine/Gf2.lean ====
section
/-! DEFINITION. Bit-matrices over GF(2) and `gf2_inv` (42_inverter.md R152, R153). A matrix is given by its entries, row and column from 0 (00_scope.md R13); the working copies are lists of N-bit rows. -/

namespace Sys2Proof.Machine

/-- The N-bit vector whose bit c is `f c`. -/
def packRow (n : Nat) (f : Nat → Bool) : BitVec n :=
  (List.range n).foldl (fun v c => if f c then v ||| (1#n <<< c) else v) 0#n

/-- One row of the working copy T with the same row of the augmented B (R153). -/
structure AugRow (n : Nat) where
  t : BitVec n
  b : BitVec n
  deriving DecidableEq, Repr

/-- Row-wise XOR of two augmented rows (R153). -/
def AugRow.add {n : Nat} (x y : AugRow n) : AugRow n := ⟨x.t ^^^ y.t, x.b ^^^ y.b⟩

/-- A row outside the matrix, never used by the elimination. -/
def AugRow.zero (n : Nat) : AugRow n := ⟨0#n, 0#n⟩

/-- T <- A, B <- I_N (R153). -/
def augment (n : Nat) (a : Nat → Nat → Bool) : List (AugRow n) :=
  (List.range n).map (fun r => ⟨packRow n (a r), packRow n (fun c => decide (c = r))⟩)

/-- The least r with i ≤ r < N and T(r, i) = 1, if there is one (R153). -/
def pivotRow {n : Nat} (rows : List (AugRow n)) (i : Nat) : Option Nat :=
  (List.range n).find? (fun r => decide (i ≤ r) && (rows.getD r (AugRow.zero n)).t.getLsbD i)

/-- Rows i and p swapped (R153). -/
def swapRows {n : Nat} (rows : List (AugRow n)) (i p : Nat) : List (AugRow n) :=
  (List.range n).map (fun r =>
    if r = i then rows.getD p (AugRow.zero n)
    else if r = p then rows.getD i (AugRow.zero n)
    else rows.getD r (AugRow.zero n))

/-- Row i added to every other row r with T(r, i) = 1 (R153). -/
def clearColumn {n : Nat} (rows : List (AugRow n)) (i : Nat) : List (AugRow n) :=
  (List.range n).map (fun r =>
    let row := rows.getD r (AugRow.zero n)
    if decide (r ≠ i) && row.t.getLsbD i then row.add (rows.getD i (AugRow.zero n)) else row)

/-- One turn of the elimination at column i; none when there is no pivot (R153). -/
def eliminateColumn {n : Nat} (rows : List (AugRow n)) (i : Nat) : Option (List (AugRow n)) :=
  match pivotRow rows i with
  | none => none
  | some p => some (clearColumn (swapRows rows i p) i)

/-- Columns in the given order, stopping at the first without a pivot. -/
def eliminateColumns {n : Nat} : List Nat → List (AugRow n) → Option (List (AugRow n))
  | [], rows => some rows
  | i :: is, rows =>
    match eliminateColumn rows i with
    | none => none
    | some rows' => eliminateColumns is rows'

/-- `gf2_inv(A, N)` (R152) by the reference algorithm of R153; none is SINGULAR. The rows of the inverse in order. -/
def gf2Inv (n : Nat) (a : Nat → Nat → Bool) : Option (List (BitVec n)) :=
  match eliminateColumns (List.range n) (augment n a) with
  | none => none
  | some rows => some (rows.map AugRow.b)

/-- Entry (r, c) of a matrix given by its rows. -/
def rowsBit {n : Nat} (rows : List (BitVec n)) (r c : Nat) : Bool :=
  (rows.getD r 0#n).getLsbD c

/-- XOR over t < n of `f t`. -/
def xorSum (n : Nat) (f : Nat → Bool) : Bool :=
  (List.range n).foldl (fun acc t => acc ^^ f t) false

/-- The matrix product over GF(2), entry (r, c) (R152). -/
def matMul (n : Nat) (a b : Nat → Nat → Bool) (r c : Nat) : Bool :=
  xorSum n (fun t => a r t && b t c)

/-- Entry (r, c) of the identity. -/
def identityBit (r c : Nat) : Bool := decide (r = c)

end Sys2Proof.Machine
end

