-- ==== Sys2Proof/Machine/Inverter.lean ====
section
/-! DEFINITION. bit_matrix_inverter: INVERT (42_inverter.md R150 to R158). -/

namespace Sys2Proof.Machine

/-- INVM rows and columns below N replaced by `rows`, every other INVM bit kept (R154, R155, R177). -/
def State.storeInverse (s : State) (rows : List (BitVec s.opN)) : State :=
  s.withInvm (writeBlock s.invm s.params.rwWords s.opN s.opN (rowsBit rows))

/-- INVERT's check (R151), the inversion (R152) and its writes (R154). -/
def invertEffect (s : State) : Except ErrCode State :=
  if !s.cfgOk then .error .config
  else match gf2Inv s.opN s.invmBit with
    | none => .error .singular
    | some rows => .ok (s.storeInverse rows)

/-- INVERT, the completion step (R154, R202). -/
def execInvert (s : State) : Host.Outcome State Fault Refusal :=
  .next (finish s (invertEffect s))

end Sys2Proof.Machine
end

