-- ==== Sys2Proof/Machine/Decoder.lean ====
section
/-! DEFINITION. erasure_decoder_mux: DECODE (43_decoder.md R170 to R187). -/

namespace Sys2Proof.Machine

namespace State

/-- EDATA, the erased data devices of the scanned list (R173). -/
def erasedData (s : State) (l : List Nat) : List Nat := l.filter (fun e => decide (e < s.opK))

/-- ECODE, the erased coding devices of the scanned list (R173). -/
def erasedCoding (s : State) (l : List Nat) : List Nat := l.filter (fun e => decide (s.opK ≤ e))

/-- `sel`: the K smallest device indices not in the list, ascending (R174). -/
def survivors (s : State) (l : List Nat) : List Nat :=
  ((List.range (s.opK + s.opM)).filter (fun d => !l.contains d)).take s.opK

/-- sel[t] (R174). -/
def survivor (s : State) (l : List Nat) (t : Nat) : Nat := (s.survivors l).getD t 0

/-- Entry (r, c) of the DecodingBitMatrix (R175). -/
def decodingBit (s : State) (l : List Nat) (r c : Nat) : Bool :=
  let d := s.survivor l (r / s.opW)
  let b := r % s.opW
  if d < s.opK then decide (c = d * s.opW + b) else s.bmBit ((d - s.opK) * s.opW + b) c

/-- Recovered bit-plane b of erased data device j, from the inverse and the survivors' planes in `src` (R178). -/
def recoveredPlane (s : State) (l : List Nat) (inv : Nat → Nat → Bool) (src : Memory) (j b : Nat) : List Byte :=
  xorTree s.opPs s.opK s.opW (fun t c => inv (j * s.opW + b) (t * s.opW + c))
    (fun t c => s.planeOf src (s.survivor l t) c)

/-- Every erased data device recovered, survivors read as they stand at the start of the command (R178). -/
def recoverArena (s : State) (l : List Nat) (inv : Nat → Nat → Bool) : Memory :=
  s.writeDevices (s.erasedData l) (s.recoveredPlane l inv s.arena) s.arena

/-- Every erased coding device re-encoded, exactly as ENCODE writes it, from the data devices as they stand in `data` (R179). -/
def reencodeArena (s : State) (l : List Nat) (data : Memory) : Memory :=
  s.encodeInto (s.erasedCoding l) data data

end State

/-- Steps after the scan (R182): without an erased data device only re-encoding; otherwise invert, store the inverse,
recover, re-encode. -/
def decodeWith (s : State) (l : List Nat) : Except ErrCode State :=
  if (s.erasedData l).isEmpty then .ok (s.withArena (s.reencodeArena l s.arena))
  else match gf2Inv s.opN (s.decodingBit l) with
    | none => .error .singular
    | some rows => .ok ((s.storeInverse rows).withArena (s.reencodeArena l (s.recoverArena l (rowsBit rows))))

/-- DECODE's checks in the order of R171, then its writes (R182). -/
def decodeEffect (s : State) : Except ErrCode State :=
  if !s.cfgOk then .error .config
  else if !s.shapeOk then .error .shape
  else match s.eraseScan with
    | .error code => .error code
    | .ok l => decodeWith s l

/-- DECODE, the completion step (R182, R202). -/
def execDecode (s : State) : Host.Outcome State Fault Refusal :=
  .next (finish s (decodeEffect s))

end Sys2Proof.Machine
end

