-- ==== Sys2Proof/Machine/Field.lean ====
section
/-! DEFINITION. GF(2^w) in the polynomial basis (00_scope.md R7, R11, R12): an element is a word whose bit i is the coefficient of x^i. -/

namespace Sys2Proof.Machine

/-- mask(w) = 2^w − 1 as a word, for w ≤ 32 (R9). -/
def fieldMask (w : Nat) : Word := BitVec.ofNat 32 (2 ^ w - 1)

/-- xtime_w(a): multiplication by the element x, POLY_LOW[w] being `low` (R11). -/
def xtime (w : Nat) (low a : Word) : Word :=
  ((a <<< 1) &&& fieldMask w) ^^^ (if a.getLsbD (w - 1) then low else 0#32)

/-- xtime_w applied n times: the product a · 2^n for n < w (R11). -/
def xtimePow (w : Nat) (low : Word) : Nat → Word → Word
  | 0, a => a
  | n + 1, a => xtime w low (xtimePow w low n a)

/-- gf_mul_w(a, e), the field product (R12). No command computes it; it states the field laws. -/
def gfMul (w : Nat) (low a e : Word) : Word :=
  (List.range w).foldl (fun acc n => if a.getLsbD n then acc ^^^ xtimePow w low n e else acc) 0#32

end Sys2Proof.Machine
end

