-- ==== Sys2Proof/Machine/Expander.lean ====
section
/-! DEFINITION. bit_matrix_expander: EXPAND (40_expander.md R110 to R118). -/

namespace Sys2Proof.Machine

/-- Entry (r, c) of the expansion: with r = i·W + b and c = j·W + cc, bit b of G(i, j) · 2^cc (R112, R113: column orientation,
90_conflicts.md C1). -/
def State.expandBit (s : State) (r c : Nat) : Bool :=
  (xtimePow s.opW s.opPoly (c % s.opW) (s.genEntry (r / s.opW) (c / s.opW))).getLsbD (r % s.opW)

/-- EXPAND's checks (R111), then its writes: BM bits (r, c) with r < M·W, c < K·W (R112, R114). -/
def expandEffect (s : State) : Except ErrCode State :=
  if !s.cfgOk then .error .config
  else if !s.entriesOk then .error .config
  else .ok (s.withBm (writeBlock s.bm s.params.rwWords (s.opM * s.opW) s.opN s.expandBit))

/-- EXPAND, the completion step (R112, R202). -/
def execExpand (s : State) : Host.Outcome State Fault Refusal :=
  .next (finish s (expandEffect s))

end Sys2Proof.Machine
end

