-- ==== Sys2Proof/Machine/Reset.lean ====
section
/-! DEFINITION. The reset input (70_reset_and_hazards.md R240 to R243). -/

namespace Sys2Proof.Machine

namespace State

/-- `len` arena bytes from offset `a` on, cut off at the arena's end, take free values (R243, log 8). -/
def looseBytes (s : State) (m : Memory) (a len : Nat) : Memory :=
  let stop := min (a + len) s.params.arenaBytes
  memWrite m a ((List.range (stop - a)).map (fun o => Config.abandonedByte s.draws (a + o)))

/-- Bits (r, c) with r < rows, c < cols that exist in a matrix memory of `maxRows` stored rows take free values (R243, log 8). -/
def looseBits (s : State) (m : Memory) (maxRows rows cols : Nat) : Memory :=
  writeBlock m s.params.rwWords (min rows maxRows) (min cols (32 * s.params.rwWords)) (Config.abandonedBit s.draws)

/-- The devices of the erasure list as R172 would have scanned it; where the scan raises ERASURE, the entries it accepted
before (log 9). DESIGN CHOICE (log 27): where CFG_M > M_MAX and no slot holds the sentinel, the scan of slots 0 .. M runs past
the last slot; a sentinel is read there, so the devices are those of every slot there is. -/
def scannedDevicesFrom (s : State) : (left : Nat) → List Nat → List Nat
  | 0, met => met
  | left + 1, met =>
    let e := s.eraseSlot (s.opM - (left + 1))
    if e = sentinel then met
    else if e.toNat ≥ s.opK + s.opM then met
    else if met.contains e.toNat then met
    else scannedDevicesFrom s left (met ++ [e.toNat])

/-- The devices an abandoned DECODE could have written (R243). -/
def scannedDevices (s : State) : List Nat := s.scannedDevicesFrom s.opM []

/-- The memories after a reset that abandons the pending command (R243). -/
def abandon (s : State) : PendingOp → State
  | .expand => s.withBm (s.looseBits s.bm s.params.mwMax (s.opM * s.opW) s.opN)
  | .encode => s.withArena (s.looseBytes s.arena (s.opK * s.opSize) (s.opM * s.opSize))
  | .decode =>
    (s.withArena (s.scannedDevices.foldl (fun m d => s.looseBytes m (d * s.opSize) s.opSize) s.arena)).withInvm
      (s.looseBits s.invm s.params.kwMax s.opN s.opN)
  | .invert => s.withInvm (s.looseBits s.invm s.params.kwMax s.opN s.opN)

/-- Every register at its reset value, phase Idle (R37, R240); memories, parameters and the model's own fields kept. -/
def resetRegisters (s : State) : State :=
  { s with
    ie := false
    cfgK := 0#32
    cfgM := 0#32
    cfgW := 0#32
    cfgPs := 0#32
    cfgSize := 0#32
    done := false
    anyErr := false
    werr := false
    err := .noError
    erase := List.replicate s.params.erSlots sentinel
    phase := .idle }

/-- The reset input is asserted (R240). -/
def holdReset (s : State) : State := { s with inReset := true }

/-- Reset asserted: while Idle every memory cell is kept (R242); while Busy the pending command is abandoned (R243). -/
def assertReset (s : State) : State :=
  match s.phase with
  | .idle => s.resetRegisters.holdReset
  | .busy op => (s.abandon op).nextDraw.resetRegisters.holdReset

/-- Reset released: the CORE is Idle with the values it took (R240). -/
def releaseReset (s : State) : State := { s with inReset := false }

end State

end Sys2Proof.Machine
end

