-- ==== Sys2Proof/Machine/Sequence.lean ====
section
/-! DEFINITION. Command sequencing and the two agents' steps (44_control.md R200 to R205; 00_scope.md R8): what each event of the schedule does. -/

namespace Sys2Proof.Machine

/-- The command `pending_op` names (R33). -/
def PendingOp.instr : PendingOp → Instr
  | .expand => .expand
  | .encode => .encode
  | .decode => .decode
  | .invert => .invert

/-- The commands that enter Busy (R200); NOP does not (R201). -/
def pendingOf : Instr → Option PendingOp
  | .nop => none
  | .expand => some .expand
  | .encode => some .encode
  | .decode => some .decode
  | .invert => some .invert

/-- A command issue while Idle (R200, R201): an illegal word is reported at once, a NOP runs at once, any other command is
accepted and enters Busy. -/
def issueCommand (v : Word) (s : State) : Host.Outcome State Fault Refusal :=
  match decodeCmd v with
  | .error _ => .next (s.report .illegal)
  | .ok i =>
    match pendingOf i with
    | none => exec i s
    | some op => .next (s.accept op)

/-- A legal host write (R68 to R70, R204): dropped with WERR while Busy, but for CTRL, STATUS and the read-only registers;
while Idle it takes effect, at CMD as a command issue. -/
def hostWrite (s : State) (v : Word) (l : Location) : Host.Outcome State Fault Refusal :=
  let t := s.withResponse .acknowledged
  if s.phase.isBusy && !l.writableWhileBusy then .next t.dropWrite
  else if l = .cmd then issueCommand v t
  else .next (t.writeLocation v l)

/-- One host access (R60 to R63): the bus error is decided before the BUSY check. While reset is asserted the host has no
move (R240). -/
def hostAccess (a : Access) (s : State) : Host.Outcome State Fault Refusal :=
  if s.inReset then .fault .accessDuringReset
  else match resolve s.params a with
    | .error e => .next (s.answerBusError e)
    | .ok l =>
      match a.dir with
      | .read => .next (s.hostRead l)
      | .write v => hostWrite s v l

/-- The CORE's turn (R8, R202): while Busy its one enabled step, the completion of the pending command; while Idle it has
none and nothing changes (log 22). -/
def coreTurn (s : State) : Host.Outcome State Fault Refusal :=
  match s.phase with
  | .idle => .next s
  | .busy op => exec op.instr s

/-- What one event does (log 3). -/
def runEvent (e : Event) (s : State) : Host.Outcome State Fault Refusal :=
  match e with
  | .access a => hostAccess a s
  | .coreTurn => coreTurn s
  | .resetAssert => .next s.assertReset
  | .resetRelease => .next s.releaseReset

/-- No event is left: a completion that is still owed is taken (R202, R254), and a run whose last access is made and which is
Idle has ended (R254, log 10). -/
def runOut (s : State) : Host.Outcome State Fault Refusal :=
  match s.phase with
  | .idle => .fault .endOfRun
  | .busy op => exec op.instr s

/-- Command word `v` placed so that the very next step runs it (log 14): a command that enters Busy as the accepted pending
command at the CORE's turn (R200), any other word as the host's next access, its write to CMD (R201). -/
def placeCommand (s : State) (v : Word) : State :=
  let write : Event := .access { dir := .write v, addr := 0x18#32, bytes := 4 }
  match decodeCmd v with
  | .error _ => { s with phase := .idle, inReset := false, schedule := write :: s.schedule }
  | .ok i =>
    match pendingOf i with
    | none => { s with phase := .idle, inReset := false, schedule := write :: s.schedule }
    | some op => { s with phase := .busy op, done := false, inReset := false, schedule := .coreTurn :: s.schedule }

end Sys2Proof.Machine
end

