-- ==== Sys2Proof/Machine/Step.lean ====
section
/-! DEFINITION. One step of the machine: the first event of the schedule, or the completion that is still owed. -/

namespace Sys2Proof.Machine

/-- One step (00_scope.md R8, 44_control.md R202, log 3). -/
def step (s : State) : Host.Outcome State Fault Refusal :=
  match s.schedule with
  | [] => runOut s
  | e :: rest => runEvent e (s.withSchedule rest)

/-- `s` with the command word that the opcode table numbers `w` placed where the next step runs it (log 14). -/
def State.withFetchWord (s : State) (nbits w : Nat) : State :=
  placeCommand s (tableWord nbits w)

end Sys2Proof.Machine
end

