-- ==== Sys2Proof/Machine/Script.lean ====
section
/-! DEFINITION. The host-script language (30_encoding.md R96, R97): each line is one bus access, or a pseudo-instruction standing for a fixed sequence of them. "exact (syntax only; no semantics)" (D39). -/

namespace Sys2Proof.Machine

/-- The `<addr>` of a script line (R96): a number, a register name, or a memory location by name. -/
inductive ScriptAddr where
  | number (a : BitVec 32)
  | id | param0 | param1 | ctrl | status | cmd
  | cfgK | cfgM | cfgW | cfgPs | cfgSize
  | erase (i : Nat)
  | gen (n : Nat)
  | bm (r q : Nat)
  | invm (r q : Nat)
  | arena (a : Nat)
  deriving DecidableEq, Repr

/-- The bus address a script address stands for (R62, R96). DESIGN CHOICE (log 26): for a name of a cell that does not exist
(a slot, word, row or byte past its end) the rules give no address; R62's formula is applied all the same, modulo 2^32. -/
def scriptAddrNumber (p : Params) : ScriptAddr → BitVec 32
  | .number a => a
  | .id => 0x00#32
  | .param0 => 0x04#32
  | .param1 => 0x08#32
  | .ctrl => 0x10#32
  | .status => 0x14#32
  | .cmd => 0x18#32
  | .cfgK => 0x20#32
  | .cfgM => 0x24#32
  | .cfgW => 0x28#32
  | .cfgPs => 0x2C#32
  | .cfgSize => 0x30#32
  | .erase i => BitVec.ofNat 32 (eraseBase + 4 * i)
  | .gen n => BitVec.ofNat 32 (genBase + 4 * n)
  | .bm r q => BitVec.ofNat 32 (bmBase + 4 * (r * p.rwWords + q))
  | .invm r q => BitVec.ofNat 32 (invmBase + 4 * (r * p.rwWords + q))
  | .arena a => BitVec.ofNat 32 (arenaBase + a)

/-- One script line (R96, R97). `wait polls`: how many reads of STATUS return BUSY = 1 before the CORE's turn comes is not
fixed (R253), so the line carries it (log 18). `coreTurn` is no line of the language: it marks where between two lines the
CORE takes a turn, which R253 leaves open (DESIGN CHOICE, log 28). -/
inductive ScriptLine where
  | wr (a : ScriptAddr) (v : Word)
  | rd (a : ScriptAddr)
  | run (i : Instr)
  | wait (polls : Nat)
  | clear
  | erasures (es : List Word)
  | config (k m w ps : Nat)
  | expect (a : ScriptAddr) (v : Word)
  | coreTurn
  deriving DecidableEq, Repr

/-- A 32-bit host write (R96). -/
def writeEvent (p : Params) (a : ScriptAddr) (v : Word) : Event :=
  .access { dir := .write v, addr := scriptAddrNumber p a, bytes := 4 }

/-- A 32-bit host read (R96). -/
def readEvent (p : Params) (a : ScriptAddr) : Event :=
  .access { dir := .read, addr := scriptAddrNumber p a, bytes := 4 }

/-- Entries written to ERASE[i], ERASE[i+1], … and the sentinel after the last (R97). -/
def erasureEvents (p : Params) : Nat → List Word → List Event
  | i, [] => [writeEvent p (.erase i) sentinel]
  | i, e :: es => writeEvent p (.erase i) e :: erasureEvents p (i + 1) es

/-- `WAIT` (R97): reads of STATUS until BUSY reads 0. Reached while Idle, the first read ends it; reached while Busy, `polls`
reads find BUSY = 1, then the CORE takes its turn, and the next read ends it (log 18). -/
def waitEvents (p : Params) (busy : Bool) (polls : Nat) : List Event :=
  if busy then List.replicate polls (readEvent p .status) ++ [.coreTurn, readEvent p .status]
  else [readEvent p .status]

/-- The expansion of a script line into events (R96, R97); `busy` says whether the line is reached while Busy, on which only
`WAIT` depends. DESIGN CHOICE (log 25): `CONFIG` with an operand, or w·ps, of 2^32 or more has no 32-bit data word; it is
written modulo 2^32. -/
def expandLine (p : Params) (busy : Bool) : ScriptLine → List Event
  | .wr a v => [writeEvent p a v]
  | .rd a => [readEvent p a]
  | .run i => [writeEvent p .cmd (encodeCmd i)]
  | .wait polls => waitEvents p busy polls
  | .clear => [writeEvent p .status 0x0000000E#32]
  | .erasures es => erasureEvents p 0 es
  | .config k m w ps =>
    [writeEvent p .cfgK (BitVec.ofNat 32 k), writeEvent p .cfgM (BitVec.ofNat 32 m),
     writeEvent p .cfgW (BitVec.ofNat 32 w), writeEvent p .cfgPs (BitVec.ofNat 32 ps),
     writeEvent p .cfgSize (BitVec.ofNat 32 (w * ps))]
  | .expect a _ => [readEvent p a]
  | .coreTurn => [.coreTurn]

/-- Events done in order, up to the first that has no move. -/
def runEvents : List Event → State → Host.Outcome State Fault Refusal
  | [], s => .next s
  | e :: es, s =>
    match runEvent e s with
    | .next t => runEvents es t
    | .fault r => .fault r
    | .refused r => .refused r

/-- One script line done: its expansion in the state the line is reached in (R96, R97). DESIGN CHOICE (log 28): within a line
the CORE takes a turn in `WAIT` alone; elsewhere it takes one where a `coreTurn` line stands. -/
def runLine (l : ScriptLine) (s : State) : Host.Outcome State Fault Refusal :=
  runEvents (expandLine s.params s.phase.isBusy l) s

/-- A script done line by line. DESIGN CHOICE (log 28): after a `RUN` the CORE completes at the first `coreTurn` line or, if
none comes before it, in the first `WAIT`; R253 fixes neither place, and a script with `coreTurn` lines put in any places gives
every one of them. -/
def runScript : List ScriptLine → State → Host.Outcome State Fault Refusal
  | [], s => .next s
  | l :: ls, s =>
    match runLine l s with
    | .next t => runScript ls t
    | .fault r => .fault r
    | .refused r => .refused r

/-- `EXPECT <addr>, <value>` holds in `s` (R97): `RD <addr>` made in `s` returns the value. An access that is answered with a
bus error, or has no move, returns none; a memory read while Busy returns a free value (log 6). -/
def expectHolds (s : State) (a : ScriptAddr) (v : Word) : Bool :=
  match hostAccess { dir := .read, addr := scriptAddrNumber s.params a, bytes := 4 } s with
  | .next t => decide (t.response = .data v)
  | .fault _ => false
  | .refused _ => false

/-- Every `EXPECT` of the script holds where the script reaches it, and every access of the script has a move; the CORE's
turns are those of `runScript`, so the answer is about this one placing of them (log 28). -/
def scriptPasses : List ScriptLine → State → Bool
  | [], _ => true
  | l :: ls, s =>
    (match l with
      | .expect a v => expectHolds s a v
      | _ => true)
    && match runLine l s with
      | .next t => scriptPasses ls t
      | .fault _ => false
      | .refused _ => false

end Sys2Proof.Machine
end

