-- ==== Sys2Proof/Safety.lean ====
section
/-! DEFINITION. What a legal instance, a good state and a well-behaved host are, in the terms the statements use: the invariant of the model and the duties the spec puts on the host (70_reset_and_hazards.md R244 to R252). The machine itself runs whatever the host does. -/

namespace Sys2Proof.Safety

open Sys2Proof.Machine

/-! ### The instance -/

/-- The product of two polynomials over GF(2), coefficients as bits, the first one's degree below n. -/
def polyMul (n a b : Nat) : Nat :=
  (List.range n).foldl (fun acc i => if a.testBit i then acc ^^^ (b <<< i) else acc) 0

/-- x^w + low has no factors of positive degree (00_scope.md R6, R7). -/
def PolyIrreducible (w : Nat) (low : Word) : Prop :=
  ∀ a b : Nat, 2 ≤ a → a < 2 ^ w → 2 ≤ b → b < 2 ^ w → polyMul w a b ≠ 2 ^ w + low.toNat

/-- Every constraint of R6's table. -/
def LegalInstance (p : Params) : Prop :=
  p.sizesLegal = true ∧ ∀ w, 1 ≤ w → w ≤ p.wMax → PolyIrreducible w (p.polyLowAt w)

/-! ### The invariant -/

/-- What holds at reset and after every step: the instance is legal and has its erasure slots, every memory is canonical and
lies in its range, DONE is clear while Busy (R223), and while reset is asserted every register has its reset value (R240). -/
structure Inv (s : State) : Prop where
  paramsLegal : s.params.sizesLegal = true
  eraseSlots : s.erase.length = s.params.erSlots
  genWf : s.gen.wf = true
  bmWf : s.bm.wf = true
  invmWf : s.invm.wf = true
  arenaWf : s.arena.wf = true
  genRange : s.gen.within (4 * s.params.genEntries) = true
  bmRange : s.bm.within (4 * (s.params.mwMax * s.params.rwWords)) = true
  invmRange : s.invm.within (4 * (s.params.kwMax * s.params.rwWords)) = true
  arenaRange : s.arena.within s.params.arenaBytes = true
  busyNotDone : s.phase.isBusy = true → s.done = false
  resetHeld : s.inReset = true → s.resetRegisters = s

/-! ### Field elements and matrices in the statements -/

/-- XOR over j < n of field elements. -/
def fieldSum (n : Nat) (f : Nat → Word) : Word :=
  (List.range n).foldl (fun acc j => acc ^^^ f j) 0#32

/-- The field element device d carries in lane (o, x) of the arena contents m: bit c is bit x of byte o of plane (d, c) (R136). -/
def laneElement (s : State) (m : Memory) (d o x : Nat) : Word :=
  packRow 32 (fun c => decide (c < s.opW) && (m.read (s.planeAt d c + o)).getLsbD x)

/-- BM rows 0 .. M·W−1 hold the expansion of the generator g at the current K, M, W (R112, R248). -/
def BmExpands (s : State) (g : Nat → Nat → Word) : Prop :=
  ∀ i < s.opM, ∀ j < s.opK, ∀ b < s.opW, ∀ c < s.opW,
    s.bmBit (i * s.opW + b) (j * s.opW + c) = (xtimePow s.opW s.opPoly c (g i j)).getLsbD b

/-- Every entry g i j, i < M, j < K, is a field element, an integer below 2^W (R111). -/
def FieldEntries (s : State) (g : Nat → Nat → Word) : Prop :=
  ∀ i < s.opM, ∀ j < s.opK, (g i j).toNat < 2 ^ s.opW

/-- The coding devices hold the ENCODE of the data devices under the current BM, lane by lane (R132, R250). -/
def CodingConsistent (s : State) : Prop :=
  ∀ i < s.opM, ∀ b < s.opW, ∀ o < s.opPs, ∀ x < 8,
    (s.arena.read (s.planeAt (s.opK + i) b + o)).getLsbD x =
      xorSum s.opK (fun j => xorSum s.opW (fun c =>
        s.bmBit (i * s.opW + b) (j * s.opW + c) && (s.arena.read (s.planeAt j c + o)).getLsbD x))

/-- Entry (d, j) of the stacked field matrix [I_K ; G] (R183). -/
def stackedEntry (k : Nat) (g : Nat → Nat → Word) (d j : Nat) : Word :=
  if d < k then (if d = j then 1#32 else 0#32) else g (d - k) j

/-- The k × k matrix of the rows `ds` of [I_K ; G] has an inverse over GF(2^w) (R183). -/
def RowsInvertible (k w : Nat) (low : Word) (g : Nat → Nat → Word) (ds : List Nat) : Prop :=
  ∃ y : Nat → Nat → Word, (∀ r < k, ∀ c < k, (y r c).toNat < 2 ^ w) ∧
    ∀ r < k, ∀ c < k,
      fieldSum k (fun t => gfMul w low (stackedEntry k g (ds.getD r 0) t) (y t c)) = if r = c then 1#32 else 0#32

/-- Every K × K matrix of K distinct rows of [I_K ; G] is invertible over GF(2^W) (R183, R249). -/
def EverySelectionInvertible (s : State) (g : Nat → Nat → Word) : Prop :=
  ∀ ds : List Nat, ds.length = s.opK → ds.Nodup → (∀ d ∈ ds, d < s.opK + s.opM) →
    RowsInvertible s.opK s.opW s.opPoly g ds

/-- b is an inverse of the n × n bit-matrix a (R152). -/
def IsInverse (n : Nat) (a b : Nat → Nat → Bool) : Prop :=
  ∀ r < n, ∀ c < n, matMul n a b r c = identityBit r c

/-- The n × n bit-matrix a is non-singular (R152). -/
def NonSingular (n : Nat) (a : Nat → Nat → Bool) : Prop := ∃ b, IsInverse n a b

/-! ### Host duties -/

/-- The generator in GEN is the Cauchy generator of R249: G(i, j) is the field inverse of i XOR (M + j). -/
def CauchyGenerator (s : State) : Prop :=
  ∀ i < s.opM, ∀ j < s.opK, (s.genEntry i j).toNat < 2 ^ s.opW ∧
    gfMul s.opW s.opPoly (BitVec.ofNat 32 (i ^^^ (s.opM + j))) (s.genEntry i j) = 1#32

/-- BM is the expansion of what GEN holds now (R248). -/
def BmFresh (s : State) : Prop := BmExpands s s.genEntry

/-- The event respects the hazards of R245, R246 and R240 in state s: no access while reset is asserted, none that is answered
with a bus error, and while Busy no dropped write and no memory read. A reset breaks no duty at any time: R243 states none. -/
def respectsHazards (s : State) : Event → Bool
  | .access a =>
    !s.inReset && match resolve s.params a with
      | .error _ => false
      | .ok l => !s.phase.isBusy || (match a.dir with
        | .read => !l.isMemory
        | .write _ => l.writableWhileBusy)
  | .coreTurn => true
  | .resetAssert => true
  | .resetRelease => true

/-- Every device of the list is a device the host lost, and every lost device is listed (R251). -/
def EraseListExact (l : List Nat) (lost : Nat → Bool) : Prop := ∀ d, d ∈ l ↔ lost d = true

/-- The interrupt would be taken again: IRQ is still asserted (R252). -/
def irqPending (s : State) : Bool := s.irq

/-- The end of a run (R254): the host has made its last access and the CORE is Idle. -/
def finalState (s : State) : Bool := s.schedule.isEmpty && !s.phase.isBusy

end Sys2Proof.Safety
end

