-- ==== Sys2Proof/Certificates/Slice0/Obligations.lean ====
section
/-! DEFINITION. The statements about the CORE that the provers settle. Where a statement rests on a choice of the model and not on a rule, its docstring names the log entry. -/

open Sys2Proof Sys2Proof.Machine Sys2Proof.Safety

/-! ### Encoding -/

/-- R91, R93: decode and encode agree: of all 2^32 words only the five command words decode, each to its own command; every other
word is rejected. -/
def Obligations.OnlyTheFiveCommandWordsDecode : Prop :=
  ∀ (v : Word) (i : Instr), decodeCmd v = .ok i ↔ v = encodeCmd i

/-- R92: a word with RSVD ≠ 0, and a word with RSVD = 0 and OP in 0x5 .. 0xF, is illegal, and no other word is. -/
def Obligations.IllegalWordsAreExactlyTheReservedOnes : Prop :=
  ∀ v : Word,
    (decodeCmd v = .error .reservedBitsSet ↔ 16 ≤ v.toNat) ∧
    (decodeCmd v = .error .unassignedOp ↔ 5 ≤ v.toNat ∧ v.toNat < 16)

/-- R91: the words of the table decode as the table says, and four other words do not decode. -/
def Obligations.WrittenOutWordsDecode : Prop :=
  decodeCmd 0b00000000000000000000000000000000#32 = .ok .nop ∧
  decodeCmd 0b00000000000000000000000000000001#32 = .ok .expand ∧
  decodeCmd 0b00000000000000000000000000000010#32 = .ok .encode ∧
  decodeCmd 0b00000000000000000000000000000011#32 = .ok .decode ∧
  decodeCmd 0b00000000000000000000000000000100#32 = .ok .invert ∧
  decodeCmd 0b00000000000000000000000000000101#32 = .error .unassignedOp ∧
  decodeCmd 0b00000000000000000000000000001111#32 = .error .unassignedOp ∧
  decodeCmd 0b00000000000000000000000000010000#32 = .error .reservedBitsSet ∧
  decodeCmd 0b11111111111111111111111111111111#32 = .error .reservedBitsSet

/-! ### Steps -/

/-- A step runs the decoded command: at the CORE's turn, or when no event is left, the step of a Busy machine is the pending
command's `exec`; the host's write of a NOP word to CMD while Idle runs NOP; and a command word placed by `withFetchWord`
is run by the very next step (log 3, log 14). -/
def Obligations.StepRunsTheDecodedCommand : Prop :=
  (∀ (s : State) (op : PendingOp) (rest : List Event), s.phase = .busy op → s.schedule = .coreTurn :: rest →
    step s = exec op.instr (s.withSchedule rest)) ∧
  (∀ (s : State) (op : PendingOp), s.phase = .busy op → s.schedule = [] → step s = exec op.instr s) ∧
  (∀ (s : State) (v : Word) (rest : List Event), s.phase = .idle → s.inReset = false → decodeCmd v = .ok .nop →
    s.schedule = .access { dir := .write v, addr := 0x18#32, bytes := 4 } :: rest →
    step s = exec .nop ((s.withSchedule rest).withResponse .acknowledged)) ∧
  (∀ (s : State) (op : PendingOp), step (s.withFetchWord 32 (encodeCmd op.instr).toNat) =
    exec op.instr { s with phase := .busy op, done := false, inReset := false }) ∧
  (∀ s : State, step (s.withFetchWord 32 (encodeCmd .nop).toNat) =
    exec .nop { s with phase := .idle, inReset := false, response := .acknowledged })

/-- R200: a legal write of a command's word to CMD while Idle enters Busy with that command pending and clears DONE;
nothing else of the CORE changes. -/
def Obligations.CommandWriteIsAccepted : Prop :=
  ∀ (s : State) (op : PendingOp) (rest : List Event), s.phase = .idle → s.inReset = false →
    s.schedule = .access { dir := .write (encodeCmd op.instr), addr := 0x18#32, bytes := 4 } :: rest →
    step s = .next { s with schedule := rest, response := .acknowledged, phase := .busy op, done := false }

/-- R201, R216: a NOP or an illegal word written to CMD while Idle completes in the same step and phase stays Idle. -/
def Obligations.NopAndIllegalWordsCompleteAtOnce : Prop :=
  ∀ (s : State) (v : Word) (rest : List Event), s.phase = .idle → s.inReset = false →
    s.schedule = .access { dir := .write v, addr := 0x18#32, bytes := 4 } :: rest →
    (v = 0#32 → step s = .next { s with
      schedule := rest, response := .acknowledged, done := true, err := .noError }) ∧
    ((∀ i : Instr, v ≠ encodeCmd i) → step s = .next { s with
      schedule := rest, response := .acknowledged, done := true, err := .illegal, anyErr := true })

/-- R70(a), R204: while Busy a legal write to CMD, a CFG register, ERASE, GEN, BM, INVM or ARENA is dropped: nothing of the
CORE changes except WERR. -/
def Obligations.WritesWhileBusyAreDropped : Prop :=
  ∀ (s : State) (op : PendingOp) (v : Word) (a : BitVec 32) (l : Location) (rest : List Event),
    s.phase = .busy op → s.inReset = false →
    s.schedule = .access { dir := .write v, addr := a, bytes := 4 } :: rest →
    resolve s.params { dir := .write v, addr := a, bytes := 4 } = .ok l →
    l ≠ .id → l ≠ .param0 → l ≠ .param1 → l ≠ .ctrl → l ≠ .status →
    step s = .next { s with schedule := rest, response := .acknowledged, werr := true }

/-- R24, R26, R70(b): a write to CTRL stores bit 0 as IE, a write to STATUS clears the write-1-to-clear bits written as 1; both
act while Idle and while Busy, and nothing else of the CORE changes. -/
def Obligations.CtrlAndStatusWritesAlwaysAct : Prop :=
  ∀ (s : State) (v : Word) (rest : List Event), s.inReset = false →
    (s.schedule = .access { dir := .write v, addr := 0x10#32, bytes := 4 } :: rest →
      step s = .next { s with schedule := rest, response := .acknowledged, ie := v.getLsbD 0 }) ∧
    (s.schedule = .access { dir := .write v, addr := 0x14#32, bytes := 4 } :: rest →
      step s = .next { s with
        schedule := rest
        response := .acknowledged
        done := if v.getLsbD 1 then false else s.done
        anyErr := if v.getLsbD 2 then false else s.anyErr
        werr := if v.getLsbD 3 then false else s.werr })

/-- R69: a write to ID, PARAM0 or PARAM1 is ignored, and a read of CMD returns 0. -/
def Obligations.ReadOnlyRegistersIgnoreWrites : Prop :=
  ∀ (s : State) (rest : List Event), s.inReset = false →
    (∀ (v : Word) (a : BitVec 32), (a = 0x0#32 ∨ a = 0x4#32 ∨ a = 0x8#32) →
      s.schedule = .access { dir := .write v, addr := a, bytes := 4 } :: rest →
      step s = .next { s with schedule := rest, response := .acknowledged }) ∧
    (s.schedule = .access { dir := .read, addr := 0x18#32, bytes := 4 } :: rest →
      step s = .next { s with schedule := rest, response := .data 0#32 })

/-- R68, R70(c), R70(d): a legal read changes nothing of the CORE; it returns the location's current value, but for a memory
while Busy, where the value is free (log 6). -/
def Obligations.ReadsHaveNoSideEffect : Prop :=
  ∀ (s : State) (a : BitVec 32) (l : Location) (rest : List Event), s.inReset = false →
    s.schedule = .access { dir := .read, addr := a, bytes := 4 } :: rest →
    resolve s.params { dir := .read, addr := a, bytes := 4 } = .ok l →
    ∃ (v : Word) (n : Nat), step s = .next { s with schedule := rest, response := .data v, draws := n } ∧
      (¬(s.phase.isBusy = true ∧ l.isMemory = true) → v = s.readLocation l ∧ n = s.draws)

/-- R61, R63, R221: an access that does not move 4 bytes, is not aligned, or is in no region is answered with a bus error and
changes nothing of the CORE, whether Idle or Busy. That the machine goes on after it is the model's reading of R63 (log 4,
DEDUCED). -/
def Obligations.BusErrorsChangeNothing : Prop :=
  ∀ (s : State) (a : Access) (rest : List Event), s.inReset = false → s.schedule = .access a :: rest →
    (a.bytes ≠ 4 ∨ a.addr.toNat % 4 ≠ 0 ∨ locate s.params a.addr.toNat = none) →
    ∃ e : BusError, step s = .next { s with schedule := rest, response := .busError e }

/-- R240 (log 7): a host access while reset is asserted has no move. -/
def Obligations.AccessDuringResetHasNoMove : Prop :=
  ∀ (s : State) (a : Access) (rest : List Event), s.inReset = true → s.schedule = .access a :: rest →
    step s = .fault .accessDuringReset

/-- R254 (log 10): a step has no next state exactly when the run has ended, or when the host makes an access while reset is
asserted; and it is never a refusal. -/
def Obligations.StepStopsOnlyAtTheEndOrInReset : Prop :=
  ∀ s : State,
    (step s = .fault .endOfRun ↔ s.schedule = [] ∧ s.phase = .idle) ∧
    (step s = .fault .accessDuringReset ↔ s.inReset = true ∧ ∃ a rest, s.schedule = .access a :: rest) ∧
    (∀ r : Refusal, step s ≠ .refused r)

/-! ### The address map, registers and memory -/

/-- R62: the address map of every legal instance: each register, erasure slot and word of a memory is where the table puts it,
and every other address is unmapped. -/
def Obligations.AddressMapWindows : Prop :=
  ∀ p : Params, p.sizesLegal = true →
    (locate p 0x00 = some .id ∧ locate p 0x04 = some .param0 ∧ locate p 0x08 = some .param1 ∧
      locate p 0x10 = some .ctrl ∧ locate p 0x14 = some .status ∧ locate p 0x18 = some .cmd ∧
      locate p 0x20 = some .cfgK ∧ locate p 0x24 = some .cfgM ∧ locate p 0x28 = some .cfgW ∧
      locate p 0x2C = some .cfgPs ∧ locate p 0x30 = some .cfgSize) ∧
    (∀ i < p.erSlots, locate p (0x100 + 4 * i) = some (.erase i)) ∧
    (∀ n < p.genEntries, locate p (0x01000000 + 4 * n) = some (.gen (4 * n))) ∧
    (∀ r < p.mwMax, ∀ q < p.rwWords,
      locate p (0x02000000 + 4 * (r * p.rwWords + q)) = some (.bm (4 * (r * p.rwWords + q)))) ∧
    (∀ r < p.kwMax, ∀ q < p.rwWords,
      locate p (0x03000000 + 4 * (r * p.rwWords + q)) = some (.invm (4 * (r * p.rwWords + q)))) ∧
    (∀ a < p.arenaBytes, a % 4 = 0 → locate p (0x80000000 + a) = some (.arena a)) ∧
    (∀ a : Nat, a ∉ [0x00, 0x04, 0x08, 0x10, 0x14, 0x18, 0x20, 0x24, 0x28, 0x2C, 0x30] →
      (a < 0x100 ∨ 0x100 + 4 * p.erSlots ≤ a) →
      (a < 0x01000000 ∨ 0x01000000 + 4 * p.genEntries ≤ a) →
      (a < 0x02000000 ∨ 0x02000000 + 4 * (p.mwMax * p.rwWords) ≤ a) →
      (a < 0x03000000 ∨ 0x03000000 + 4 * (p.kwMax * p.rwWords) ≤ a) →
      (a < 0x80000000 ∨ 0x80000000 + p.arenaBytes ≤ a) → locate p a = none)

/-- R21, R22, R23: the identification registers read the constant and the instance's parameters. -/
def Obligations.IdentificationRegisters : Prop :=
  ∀ s : State, s.params.sizesLegal = true →
    s.readLocation .id = 0x4A424D43#32 ∧
    ((s.readLocation .param0).extractLsb' 0 8).toNat = s.params.kMax ∧
    ((s.readLocation .param0).extractLsb' 8 8).toNat = s.params.mMax ∧
    ((s.readLocation .param0).extractLsb' 16 6).toNat = s.params.wMax ∧
    ((s.readLocation .param0).extractLsb' 22 2) = 0#2 ∧
    ((s.readLocation .param0).extractLsb' 24 8).toNat = s.params.xorBytes ∧
    (s.readLocation .param1).toNat = s.params.arenaBytes

/-- R24, R26, R33, R211: the layout of STATUS and CTRL as the host reads them, with the number of each error in STATUS.ERR. -/
def Obligations.StatusAndCtrlLayout : Prop :=
  ∀ s : State,
    (s.readLocation .status).getLsbD 0 = decide (s.phase ≠ .idle) ∧
    (s.readLocation .status).getLsbD 1 = s.done ∧
    (s.readLocation .status).getLsbD 2 = s.anyErr ∧
    (s.readLocation .status).getLsbD 3 = s.werr ∧
    ((s.readLocation .status).extractLsb' 4 4) = 0#4 ∧
    ((s.readLocation .status).extractLsb' 8 3) = s.err.code ∧
    (s.err = .noError → ((s.readLocation .status).extractLsb' 8 3) = 0#3) ∧
    (s.err = .config → ((s.readLocation .status).extractLsb' 8 3) = 1#3) ∧
    (s.err = .shape → ((s.readLocation .status).extractLsb' 8 3) = 2#3) ∧
    (s.err = .erasure → ((s.readLocation .status).extractLsb' 8 3) = 3#3) ∧
    (s.err = .singular → ((s.readLocation .status).extractLsb' 8 3) = 4#3) ∧
    (s.err = .illegal → ((s.readLocation .status).extractLsb' 8 3) = 5#3) ∧
    ((s.readLocation .status).extractLsb' 11 21) = 0#21 ∧
    (s.readLocation .ctrl).getLsbD 0 = s.ie ∧
    ((s.readLocation .ctrl).extractLsb' 1 31) = 0#31

/-- R25, R27, R29 to R32, R72: while Idle, a write to a CFG register, an ERASE slot or a memory word stores every bit, so that the
next read of that address returns the word written. R66, R95: what the host reads at a CFG register, an ERASE slot or a GEN
word is what the commands take as their operand. -/
def Obligations.WriteThenReadReturnsTheWord : Prop :=
  (∀ (s : State) (v : Word) (a : BitVec 32) (l : Location), Inv s → s.phase = .idle → s.inReset = false →
    resolve s.params { dir := .write v, addr := a, bytes := 4 } = .ok l →
    l ≠ .id → l ≠ .param0 → l ≠ .param1 → l ≠ .ctrl → l ≠ .status → l ≠ .cmd →
    ∃ t, hostAccess { dir := .write v, addr := a, bytes := 4 } s = .next t ∧
      ∃ u, hostAccess { dir := .read, addr := a, bytes := 4 } t = .next u ∧ u.response = .data v) ∧
  (∀ s : State,
    (s.readLocation .cfgK = s.cfgK ∧ s.readLocation .cfgM = s.cfgM ∧ s.readLocation .cfgW = s.cfgW ∧
      s.readLocation .cfgPs = s.cfgPs ∧ s.readLocation .cfgSize = s.cfgSize) ∧
    ((s.readLocation .cfgK).toNat = s.opK ∧ (s.readLocation .cfgM).toNat = s.opM ∧ (s.readLocation .cfgW).toNat = s.opW ∧
      (s.readLocation .cfgPs).toNat = s.opPs ∧ (s.readLocation .cfgSize).toNat = s.opSize) ∧
    (∀ i < s.params.erSlots, s.readLocation (.erase i) = s.eraseSlot i) ∧
    (∀ n, s.readLocation (.gen (4 * n)) = s.genWord n) ∧
    (∀ i j, s.readLocation (.gen (4 * (i * s.opK + j))) = s.genEntry i j))

/-- R60, R72: a write that takes effect at one address changes the value of no other address of the map, but for CMD, whose
write issues a command. -/
def Obligations.WritesChangeOnlyTheirOwnAddress : Prop :=
  ∀ (s t : State) (v : Word) (a b : BitVec 32) (l k : Location), Inv s → s.phase = .idle → s.inReset = false →
    resolve s.params { dir := .write v, addr := a, bytes := 4 } = .ok l → l ≠ .cmd →
    resolve s.params { dir := .read, addr := b, bytes := 4 } = .ok k → a ≠ b →
    hostAccess { dir := .write v, addr := a, bytes := 4 } s = .next t →
    t.readLocation k = s.readLocation k

/-- R64: a host word access at arena offset a is little-endian: bits [8t+7 : 8t] are arena byte a + t, a write stores all four
bytes and no other byte. -/
def Obligations.ArenaWordsAreLittleEndian : Prop :=
  ∀ (s : State) (a : Nat) (v : Word), s.arena.wf = true →
    (∀ t < 4, (s.readLocation (.arena a)).extractLsb' (8 * t) 8 = s.arena.read (a + t)) ∧
    (∀ t < 4, (s.writeLocation v (.arena a)).arena.read (a + t) = v.extractLsb' (8 * t) 8) ∧
    (∀ x, (x < a ∨ a + 4 ≤ x) → (s.writeLocation v (.arena a)).arena.read x = s.arena.read x)

/-- R67: bit t of the host word q of stored row r of BM or INVM is the matrix bit (r, 32·q + t). -/
def Obligations.MatrixWordPacking : Prop :=
  ∀ (s : State) (r q t : Nat), t < 32 →
    (s.readLocation (.bm (4 * (r * s.params.rwWords + q)))).getLsbD t = s.bmBit r (32 * q + t) ∧
    (s.readLocation (.invm (4 * (r * s.params.rwWords + q)))).getLsbD t = s.invmBit r (32 * q + t)

/-! ### Completion, errors, frames -/

/-- R202, R219: every completion sets DONE and ERR, sets ANYERR if the code is not 0 and otherwise keeps it, and leaves the CORE
Idle (a NOP is run while Idle and keeps phase). -/
def Obligations.EveryCompletionReports : Prop :=
  ∀ (i : Instr) (s : State), ∃ t : State, exec i s = .next t ∧ t.done = true ∧
    (t.err = .noError → t.anyErr = s.anyErr) ∧ (t.err ≠ .noError → t.anyErr = true) ∧
    (i ≠ .nop → t.phase = .idle) ∧ (i = .nop → t.phase = s.phase)

/-- R95, R114, R133, R155, R180: what no command writes: the parameters, CTRL, the CFG registers, WERR, ERASE, GEN, and which of
BM, INVM and ARENA each command leaves alone. -/
def Obligations.CommandsKeepTheirInputs : Prop :=
  ∀ (i : Instr) (s t : State), exec i s = .next t →
    t.params = s.params ∧ t.ie = s.ie ∧ t.cfgK = s.cfgK ∧ t.cfgM = s.cfgM ∧ t.cfgW = s.cfgW ∧ t.cfgPs = s.cfgPs ∧
    t.cfgSize = s.cfgSize ∧ t.werr = s.werr ∧ t.erase = s.erase ∧ t.gen = s.gen ∧ t.inReset = s.inReset ∧
    t.schedule = s.schedule ∧ t.response = s.response ∧ t.draws = s.draws ∧
    (i ≠ .expand → t.bm = s.bm) ∧
    (i ≠ .invert → i ≠ .decode → t.invm = s.invm) ∧
    (i ≠ .encode → i ≠ .decode → t.arena = s.arena)

/-- R217: a command that raises writes nothing except STATUS: the state after an error is the state before the command, plus
STATUS (and phase Idle). -/
def Obligations.FailedCommandsWriteOnlyStatus : Prop :=
  ∀ (i : Instr) (s t : State), exec i s = .next t → t.err ≠ .noError →
    t = { s with err := t.err, done := true, anyErr := true, phase := .idle }

/-- R218: the errors each command can report. -/
def Obligations.ErrorsEachCommandCanReport : Prop :=
  ∀ (s t : State),
    (exec .nop s = .next t → t.err = .noError) ∧
    (exec .expand s = .next t → t.err = .noError ∨ t.err = .config) ∧
    (exec .encode s = .next t → t.err = .noError ∨ t.err = .config ∨ t.err = .shape) ∧
    (exec .decode s = .next t →
      t.err = .noError ∨ t.err = .config ∨ t.err = .shape ∨ t.err = .erasure ∨ t.err = .singular) ∧
    (exec .invert s = .next t → t.err = .noError ∨ t.err = .config ∨ t.err = .singular)

/-- R203: NOP completes with ERR = 0 and DONE = 1 and changes nothing else. -/
def Obligations.NopCompletes : Prop :=
  ∀ s : State, exec .nop s = .next { s with done := true, err := .noError }

/-- R212: `cfg_ok` as the rule gives it, on the CFG registers as natural numbers. -/
def Obligations.ConfigurationCheck : Prop :=
  ∀ s : State, s.cfgOk = true ↔
    (1 ≤ s.cfgK.toNat ∧ s.cfgK.toNat ≤ s.params.kMax) ∧ (1 ≤ s.cfgM.toNat ∧ s.cfgM.toNat ≤ s.params.mMax) ∧
    (1 ≤ s.cfgW.toNat ∧ s.cfgW.toNat ≤ s.params.wMax) ∧ s.cfgK.toNat + s.cfgM.toNat ≤ 2 ^ s.cfgW.toNat

/-- R213: `shape_ok` as the rule gives it. -/
def Obligations.ShapeCheck : Prop :=
  ∀ s : State, s.shapeOk = true ↔
    1 ≤ s.cfgPs.toNat ∧ s.cfgPs.toNat % s.params.xorBytes = 0 ∧
    s.cfgSize.toNat = s.cfgW.toNat * s.cfgPs.toNat ∧
    (s.cfgK.toNat + s.cfgM.toNat) * s.cfgSize.toNat ≤ s.params.arenaBytes

/-! ### EXPAND -/

/-- R112, R114: when its checks pass, EXPAND completes with ERR = 0, sub-block (i, j) having bit b of G(i, j) · 2^c in local row b
and column c, and no other BM bit and nothing else but STATUS changed. -/
def Obligations.ExpandWritesTheBitMatrix : Prop :=
  ∀ s : State, s.bm.wf = true → s.cfgOk = true → s.entriesOk = true →
    ∃ m : Memory, exec .expand s =
        .next { s with bm := m, err := .noError, done := true, phase := .idle } ∧
      (∀ i < s.opM, ∀ j < s.opK, ∀ b < s.opW, ∀ c < s.opW,
        readBit m s.params.rwWords (i * s.opW + b) (j * s.opW + c) =
          (xtimePow s.opW s.opPoly c (readWord s.gen (4 * (i * s.opK + j)))).getLsbD b) ∧
      (∀ r c, c < 32 * s.params.rwWords → (s.opM * s.opW ≤ r ∨ s.opK * s.opW ≤ c) →
        readBit m s.params.rwWords r c = s.bmBit r c)

/-- R111, R115: EXPAND reports CONFIG, writing nothing but STATUS, exactly when `cfg_ok` fails or some entry G(i, j) is 2^W or more. -/
def Obligations.ExpandReportsConfig : Prop :=
  ∀ s : State,
    (s.cfgOk = false ∨ ∃ i < s.opM, ∃ j < s.opK, 2 ^ s.opW ≤ (readWord s.gen (4 * (i * s.opK + j))).toNat) ↔
    exec .expand s = .next { s with err := .config, done := true, anyErr := true, phase := .idle }

/-- R117: after EXPAND, sub-block (i, j) applied to the bits of a field element a gives the bits of the field product of a and
G(i, j). -/
def Obligations.ExpandFieldLaw : Prop :=
  ∀ s t : State, s.params.sizesLegal = true → s.bm.wf = true → exec .expand s = .next t → t.err = .noError →
    ∀ i < s.opM, ∀ j < s.opK, ∀ a : Word, a.toNat < 2 ^ s.opW →
      packRow 32 (fun b => decide (b < s.opW) &&
          xorSum s.opW (fun c => t.bmBit (i * s.opW + b) (j * s.opW + c) && a.getLsbD c)) =
        gfMul s.opW s.opPoly a (s.genEntry i j)

/-- R116(a), R116(b): after EXPAND the sub-block of a generator entry 0 is all zeros, that of an entry 1 the identity. -/
def Obligations.ExpandOfZeroAndOne : Prop :=
  ∀ s t : State, s.params.sizesLegal = true → s.bm.wf = true → exec .expand s = .next t → t.err = .noError →
    ∀ i < s.opM, ∀ j < s.opK, ∀ b < s.opW, ∀ c < s.opW,
      (s.genEntry i j = 0#32 → t.bmBit (i * s.opW + b) (j * s.opW + c) = false) ∧
      (s.genEntry i j = 1#32 → t.bmBit (i * s.opW + b) (j * s.opW + c) = decide (b = c))

/-! ### ENCODE -/

/-- R132, R133: when its checks pass, ENCODE completes with ERR = 0; every lane of coding plane (K+i, b) is the XOR of the lanes
of the data planes (j, c) with BM bit (i·W+b, j·W+c) = 1; no other arena byte and nothing else but STATUS changes. -/
def Obligations.EncodeWritesTheCodingDevices : Prop :=
  ∀ s : State, s.arena.wf = true → s.cfgOk = true → s.shapeOk = true →
    ∃ m : Memory, exec .encode s =
        .next { s with arena := m, err := .noError, done := true, phase := .idle } ∧
      (∀ i < s.opM, ∀ b < s.opW, ∀ o < s.opPs, ∀ x < 8,
        (m.read (s.planeAt (s.opK + i) b + o)).getLsbD x =
          xorSum s.opK (fun j => xorSum s.opW (fun c =>
            s.bmBit (i * s.opW + b) (j * s.opW + c) && (s.arena.read (s.planeAt j c + o)).getLsbD x))) ∧
      (∀ a, (a < s.opK * s.opSize ∨ (s.opK + s.opM) * s.opSize ≤ a) → m.read a = s.arena.read a)

/-- R131, R137: ENCODE reports CONFIG when `cfg_ok` fails and SHAPE when only `shape_ok` fails, writing nothing but STATUS. -/
def Obligations.EncodeReportsConfigThenShape : Prop :=
  ∀ s : State,
    (s.cfgOk = false →
      exec .encode s = .next { s with err := .config, done := true, anyErr := true, phase := .idle }) ∧
    (s.cfgOk = true → s.shapeOk = false →
      exec .encode s = .next { s with err := .shape, done := true, anyErr := true, phase := .idle })

/-- R136: if BM holds the expansion of a generator g, ENCODE is the product of g and the data over GF(2^W), lane by lane. -/
def Obligations.EncodeFieldLaw : Prop :=
  ∀ (s t : State) (g : Nat → Nat → Word), s.params.sizesLegal = true → s.arena.wf = true →
    FieldEntries s g → BmExpands s g → exec .encode s = .next t → t.err = .noError →
    ∀ i < s.opM, ∀ o < s.opPs, ∀ x < 8,
      laneElement s t.arena (s.opK + i) o x =
        fieldSum s.opK (fun j => gfMul s.opW s.opPoly (g i j) (laneElement s s.arena j o x))

/-- R133: a coding device's previous content is never read: two arenas that agree outside the coding devices give the same
result. -/
def Obligations.EncodeIgnoresOldCodingContent : Prop :=
  ∀ (s : State) (m : Memory), s.arena.wf = true → m.wf = true → s.cfgOk = true → s.shapeOk = true →
    (∀ a, (a < s.opK * s.opSize ∨ (s.opK + s.opM) * s.opSize ≤ a) → m.read a = s.arena.read a) →
    exec .encode { s with arena := m } = exec .encode s

/-! ### INVERT -/

/-- R152: `gf2_inv` returns the inverse, on both sides and the only one, exactly when there is one. -/
def Obligations.GaussJordanComputesTheInverse : Prop :=
  ∀ (n : Nat) (a : Nat → Nat → Bool),
    (∀ rows, gf2Inv n a = some rows →
      IsInverse n a (rowsBit rows) ∧ IsInverse n (rowsBit rows) a ∧
      ∀ b, IsInverse n a b → ∀ r < n, ∀ c < n, b r c = rowsBit rows r c) ∧
    (gf2Inv n a = none ↔ ¬ NonSingular n a)

/-- R154, R155: INVERT of a non-singular matrix completes with ERR = 0, INVM rows and columns below N = K·W holding its inverse;
no other INVM bit and nothing else but STATUS changes. -/
def Obligations.InvertStoresTheInverse : Prop :=
  ∀ s : State, s.invm.wf = true → s.cfgOk = true → NonSingular (s.opK * s.opW) s.invmBit →
    ∃ m : Memory, exec .invert s =
        .next { s with invm := m, err := .noError, done := true, phase := .idle } ∧
      IsInverse (s.opK * s.opW) s.invmBit (readBit m s.params.rwWords) ∧
      (∀ r c, c < 32 * s.params.rwWords → (s.opK * s.opW ≤ r ∨ s.opK * s.opW ≤ c) →
        readBit m s.params.rwWords r c = s.invmBit r c)

/-- R151, R156: INVERT reports CONFIG when `cfg_ok` fails and SINGULAR when the matrix has no inverse; no INVM bit changes. -/
def Obligations.InvertReportsConfigThenSingular : Prop :=
  ∀ s : State,
    (s.cfgOk = false →
      exec .invert s = .next { s with err := .config, done := true, anyErr := true, phase := .idle }) ∧
    (s.cfgOk = true → ¬ NonSingular (s.opK * s.opW) s.invmBit →
      exec .invert s = .next { s with err := .singular, done := true, anyErr := true, phase := .idle })

/-- R157(f): INVERT twice with no write between restores the original matrix. -/
def Obligations.InvertTwiceRestoresInvm : Prop :=
  ∀ s t : State, s.invm.wf = true → exec .invert s = .next t → t.err = .noError →
    ∃ u : State, exec .invert t = .next u ∧ u.err = .noError ∧ ∀ a, u.invm.read a = s.invm.read a

/-! ### DECODE -/

/-- R172: what the erasure scan accepts: at most M entries before the first sentinel, all in range and distinct; every other
list raises ERASURE. -/
def Obligations.ErasureScanAccepts : Prop :=
  ∀ s : State,
    (∀ l : List Nat, s.eraseScan = .ok l ↔
      l.length ≤ s.opM ∧ s.eraseSlot l.length = sentinel ∧ l.Nodup ∧
      ∀ i < l.length, s.eraseSlot i ≠ sentinel ∧ (s.eraseSlot i).toNat < s.opK + s.opM ∧
        l.getD i 0 = (s.eraseSlot i).toNat) ∧
    (∀ c : ErrCode, s.eraseScan = .error c → c = .erasure)

/-- R174: for a list of at most M entries, `sel` holds K devices, ascending, none in the list, and every device left out that is
not in the list lies above them all. -/
def Obligations.SurvivorsAreTheLowest : Prop :=
  ∀ (s : State) (l : List Nat), l.length ≤ s.opM →
    (s.survivors l).length = s.opK ∧ (s.survivors l).Pairwise (· < ·) ∧
    (∀ d ∈ s.survivors l, d < s.opK + s.opM ∧ d ∉ l) ∧
    (∀ d < s.opK + s.opM, d ∉ l → d ∉ s.survivors l → ∀ e ∈ s.survivors l, e < d)

/-- R175: row t·W + b of the DecodingBitMatrix is an identity row for a surviving data device and a BM row for a surviving coding
device. -/
def Obligations.DecodingMatrixRows : Prop :=
  ∀ (s : State) (l : List Nat) (t b c : Nat), t < s.opK → b < s.opW →
    ((s.survivors l).getD t 0 < s.opK →
      s.decodingBit l (t * s.opW + b) c = decide (c = (s.survivors l).getD t 0 * s.opW + b)) ∧
    (s.opK ≤ (s.survivors l).getD t 0 →
      s.decodingBit l (t * s.opW + b) c = s.bmBit (((s.survivors l).getD t 0 - s.opK) * s.opW + b) c)

/-- R177 to R180: DECODE with an erased data device and a non-singular DecodingBitMatrix completes with ERR = 0: INVM holds the
inverse, erased data devices are recovered through it from the survivors as they stood, erased coding devices are the ENCODE of
the completed data devices, and no other arena byte, INVM bit or anything else but STATUS changes. -/
def Obligations.DecodeRecoversAndReencodes : Prop :=
  ∀ (s : State) (l : List Nat), s.arena.wf = true → s.invm.wf = true → s.cfgOk = true → s.shapeOk = true →
    s.eraseScan = .ok l → (∃ j ∈ l, j < s.opK) → NonSingular (s.opK * s.opW) (s.decodingBit l) →
    ∃ (m v : Memory), exec .decode s =
        .next { s with arena := m, invm := v, err := .noError, done := true, phase := .idle } ∧
      IsInverse (s.opK * s.opW) (s.decodingBit l) (readBit v s.params.rwWords) ∧
      (∀ r c, c < 32 * s.params.rwWords → (s.opK * s.opW ≤ r ∨ s.opK * s.opW ≤ c) →
        readBit v s.params.rwWords r c = s.invmBit r c) ∧
      (∀ j ∈ l, j < s.opK → ∀ b < s.opW, ∀ o < s.opPs, ∀ x < 8,
        (m.read (s.planeAt j b + o)).getLsbD x =
          xorSum s.opK (fun t => xorSum s.opW (fun c =>
            readBit v s.params.rwWords (j * s.opW + b) (t * s.opW + c) &&
              (s.arena.read (s.planeAt ((s.survivors l).getD t 0) c + o)).getLsbD x))) ∧
      (∀ e ∈ l, s.opK ≤ e → ∀ b < s.opW, ∀ o < s.opPs, ∀ x < 8,
        (m.read (s.planeAt e b + o)).getLsbD x =
          xorSum s.opK (fun j => xorSum s.opW (fun c =>
            s.bmBit ((e - s.opK) * s.opW + b) (j * s.opW + c) && (m.read (s.planeAt j c + o)).getLsbD x))) ∧
      (∀ a, (∀ d ∈ l, ¬ s.inDevice d a) → m.read a = s.arena.read a)

/-- R181: DECODE with no data device erased leaves INVM unchanged and rewrites each erased coding device from the data devices as
stored; with an empty list it writes nothing. -/
def Obligations.DecodeWithoutDataErasures : Prop :=
  ∀ (s : State) (l : List Nat), s.arena.wf = true → s.cfgOk = true → s.shapeOk = true →
    s.eraseScan = .ok l → (∀ e ∈ l, s.opK ≤ e) →
    ∃ m : Memory, exec .decode s =
        .next { s with arena := m, err := .noError, done := true, phase := .idle } ∧
      (l = [] → m = s.arena) ∧
      (∀ e ∈ l, ∀ b < s.opW, ∀ o < s.opPs, ∀ x < 8,
        (m.read (s.planeAt e b + o)).getLsbD x =
          xorSum s.opK (fun j => xorSum s.opW (fun c =>
            s.bmBit ((e - s.opK) * s.opW + b) (j * s.opW + c) && (s.arena.read (s.planeAt j c + o)).getLsbD x))) ∧
      (∀ a, (∀ d ∈ l, ¬ s.inDevice d a) → m.read a = s.arena.read a)

/-- R171, R185: DECODE reports CONFIG, SHAPE, ERASURE or SINGULAR, in that priority, each before any write. -/
def Obligations.DecodeReportsErrorsInOrder : Prop :=
  ∀ s : State,
    (s.cfgOk = false →
      exec .decode s = .next { s with err := .config, done := true, anyErr := true, phase := .idle }) ∧
    (s.cfgOk = true → s.shapeOk = false →
      exec .decode s = .next { s with err := .shape, done := true, anyErr := true, phase := .idle }) ∧
    (s.cfgOk = true → s.shapeOk = true → (∀ l, s.eraseScan ≠ .ok l) →
      exec .decode s = .next { s with err := .erasure, done := true, anyErr := true, phase := .idle }) ∧
    (∀ l, s.cfgOk = true → s.shapeOk = true → s.eraseScan = .ok l → (∃ j ∈ l, j < s.opK) →
      ¬ NonSingular (s.opK * s.opW) (s.decodingBit l) →
      exec .decode s = .next { s with err := .singular, done := true, anyErr := true, phase := .idle })

/-- R173: only membership in the erasure list matters: two accepted lists with the same members give the same result. -/
def Obligations.DecodeIgnoresTheListOrder : Prop :=
  ∀ (s : State) (es : List Word) (l l' : List Nat), s.arena.wf = true →
    s.eraseScan = .ok l → { s with erase := es }.eraseScan = .ok l' → (∀ d, d ∈ l ↔ d ∈ l') →
    ∃ t : State, exec .decode s = .next t ∧ exec .decode { s with erase := es } = .next { t with erase := es }

/-- R178, R184: an erased device's prior content never influences the result. -/
def Obligations.DecodeIgnoresErasedContent : Prop :=
  ∀ (s t u : State) (m : Memory) (l : List Nat), s.arena.wf = true → m.wf = true → s.eraseScan = .ok l →
    (∀ a, (∀ d ∈ l, ¬ s.inDevice d a) → m.read a = s.arena.read a) →
    exec .decode s = .next t → exec .decode { s with arena := m } = .next u →
    t.err = u.err ∧ t.invm = u.invm ∧ (t.err = .noError → t.arena = u.arena)

/-- The bit-level round trip behind R183: if the coding devices hold the ENCODE of the data and the DecodingBitMatrix of the list
is non-singular, DECODE restores every device buffer, whatever the erased buffers hold. -/
def Obligations.DecodeRestoresConsistentDevices : Prop :=
  ∀ (s : State) (m : Memory) (es : List Word) (l : List Nat),
    s.arena.wf = true → m.wf = true → s.cfgOk = true → s.shapeOk = true → CodingConsistent s →
    { s with erase := es }.eraseScan = .ok l →
    ((∃ j ∈ l, j < s.opK) → NonSingular (s.opK * s.opW) (s.decodingBit l)) →
    (∀ a, a < (s.opK + s.opM) * s.opSize → (∀ d ∈ l, ¬ s.inDevice d a) → m.read a = s.arena.read a) →
    ∃ t : State, exec .decode { s with arena := m, erase := es } = .next t ∧ t.err = .noError ∧
      ∀ a, a < (s.opK + s.opM) * s.opSize → t.arena.read a = s.arena.read a

/-- R183: with BM the expansion of a generator every K rows of whose stacked matrix are invertible over GF(2^W), and the coding
devices the ENCODE of the data, DECODE with any accepted list completes with ERR = 0 and restores every device buffer. -/
def Obligations.DecodeRoundTrip : Prop :=
  ∀ (s : State) (g : Nat → Nat → Word) (m : Memory) (es : List Word) (l : List Nat),
    s.params.sizesLegal = true → s.arena.wf = true → m.wf = true → s.cfgOk = true → s.shapeOk = true →
    FieldEntries s g → BmExpands s g → EverySelectionInvertible s g → CodingConsistent s →
    { s with erase := es }.eraseScan = .ok l →
    (∀ a, a < (s.opK + s.opM) * s.opSize → (∀ d ∈ l, ¬ s.inDevice d a) → m.read a = s.arena.read a) →
    ∃ t : State, exec .decode { s with arena := m, erase := es } = .next t ∧ t.err = .noError ∧
      ∀ a, a < (s.opK + s.opM) * s.opSize → t.arena.read a = s.arena.read a

/-! ### Interrupt and reset -/

/-- R35, R222: IRQ is CTRL.IE and STATUS.DONE; every completion raises it when IE is set, an illegal word's too; a write of 1 to
STATUS bit 1, the acceptance of the next command, a write of 0 to CTRL.IE and a reset each clear it. -/
def Obligations.InterruptFollowsDone : Prop :=
  (∀ s : State, s.irq = true ↔ s.ie = true ∧ s.done = true) ∧
  (∀ (i : Instr) (s t : State), exec i s = .next t → t.irq = s.ie) ∧
  (∀ (s t : State) (v : Word), (∀ i : Instr, v ≠ encodeCmd i) → issueCommand v s = .next t → t.irq = s.ie) ∧
  (∀ (s : State) (op : PendingOp), (s.accept op).irq = false) ∧
  (∀ (s : State) (v : Word), v.getLsbD 1 = true → (s.writeStatus v).irq = false) ∧
  (∀ (s : State) (v : Word), v.getLsbD 0 = false → (s.writeCtrl v).irq = false) ∧
  (∀ s : State, s.assertReset.irq = false)

/-- R37: the values the host reads from the registers right after reset in the reference configuration. -/
def Obligations.ResetRegisterValues : Prop :=
  State.reset.readLocation .id = 0x4A424D43#32 ∧ State.reset.readLocation .param0 = 0x08200410#32 ∧
  State.reset.readLocation .param1 = 0x00100000#32 ∧ State.reset.readLocation .ctrl = 0#32 ∧
  State.reset.readLocation .status = 0#32 ∧ State.reset.readLocation .cfgK = 0#32 ∧
  State.reset.readLocation .cfgM = 0#32 ∧ State.reset.readLocation .cfgW = 0#32 ∧
  State.reset.readLocation .cfgPs = 0#32 ∧ State.reset.readLocation .cfgSize = 0#32 ∧
  (∀ i < 5, State.reset.readLocation (.erase i) = 0xFFFFFFFF#32) ∧
  State.reset.phase = .idle ∧ State.reset.irq = false

/-- R240: asserting reset gives every register its reset value and makes the CORE Idle; releasing it changes no register and no
memory. -/
def Obligations.ResetGivesEveryRegisterItsValue : Prop :=
  (∀ (s : State) (rest : List Event), s.schedule = .resetAssert :: rest →
    ∃ t : State, step s = .next t ∧ t.ie = false ∧ t.statusWord = 0#32 ∧ t.cfgK = 0#32 ∧ t.cfgM = 0#32 ∧ t.cfgW = 0#32 ∧
      t.cfgPs = 0#32 ∧ t.cfgSize = 0#32 ∧ t.erase = List.replicate (s.params.mMax + 1) 0xFFFFFFFF#32 ∧
      t.phase = .idle ∧ t.irq = false ∧ t.params = s.params ∧ t.gen = s.gen ∧ t.inReset = true) ∧
  (∀ (s : State) (rest : List Event), s.schedule = .resetRelease :: rest →
    step s = .next { s with schedule := rest, inReset := false })

/-- R242: a reset asserted while Idle leaves every memory as it was. -/
def Obligations.IdleResetKeepsTheMemories : Prop :=
  ∀ (s : State) (rest : List Event), s.phase = .idle → s.schedule = .resetAssert :: rest →
    ∃ t : State, step s = .next t ∧ t.gen = s.gen ∧ t.bm = s.bm ∧ t.invm = s.invm ∧ t.arena = s.arena

/-- R243: a reset asserted while Busy changes no memory cell but those the abandoned command could write; an abandoned DECODE
changes no arena byte past the devices whatever its list holds, and no byte outside the listed devices where the scan accepts
the list (logs 8, 9, 27). -/
def Obligations.BusyResetTouchesOnlyTheCommandsOutputs : Prop :=
  ∀ (s : State) (op : PendingOp) (rest : List Event), s.bm.wf = true → s.invm.wf = true → s.arena.wf = true →
    s.phase = .busy op → s.schedule = .resetAssert :: rest →
    ∃ t : State, step s = .next t ∧ t.phase = .idle ∧ t.statusWord = 0#32 ∧ t.gen = s.gen ∧
      (op ≠ .expand → t.bm = s.bm) ∧
      (op ≠ .invert → op ≠ .decode → t.invm = s.invm) ∧
      (op ≠ .encode → op ≠ .decode → t.arena = s.arena) ∧
      (∀ r c, c < 32 * s.params.rwWords → (s.opM * s.opW ≤ r ∨ s.opK * s.opW ≤ c) → t.bmBit r c = s.bmBit r c) ∧
      (∀ r c, c < 32 * s.params.rwWords → (s.opK * s.opW ≤ r ∨ s.opK * s.opW ≤ c) → t.invmBit r c = s.invmBit r c) ∧
      (op = .encode → ∀ a, (a < s.opK * s.opSize ∨ (s.opK + s.opM) * s.opSize ≤ a) →
        t.arena.read a = s.arena.read a) ∧
      (op = .decode → ∀ l, s.eraseScan = .ok l → ∀ a, (∀ d ∈ l, ¬ s.inDevice d a) →
        t.arena.read a = s.arena.read a) ∧
      (op = .decode → ∀ a, (s.opK + s.opM) * s.opSize ≤ a → t.arena.read a = s.arena.read a)

/-! ### Invariants and runs -/

/-- The state after reset meets the invariant. -/
def Obligations.ResetMeetsTheInvariant : Prop := Inv State.reset

/-- Every step keeps the invariant: a legal instance with its erasure slots, canonical memories inside their ranges, DONE clear
while Busy (R223), and reset values held while reset is asserted (R240). -/
def Obligations.EveryStepKeepsTheInvariant : Prop :=
  ∀ s t : State, Inv s → step s = .next t → Inv t

/-- R70, R205, R245: while Busy a host access changes none of the pending command's inputs and does not stop it. -/
def Obligations.BusyInputsAreFrozen : Prop :=
  ∀ (s : State) (op : PendingOp) (a : Access) (rest : List Event), s.phase = .busy op → s.inReset = false →
    s.schedule = .access a :: rest →
    ∃ t : State, step s = .next t ∧ t.phase = s.phase ∧ t.schedule = rest ∧ t.inReset = false ∧ t.params = s.params ∧
      t.cfgK = s.cfgK ∧ t.cfgM = s.cfgM ∧ t.cfgW = s.cfgW ∧ t.cfgPs = s.cfgPs ∧ t.cfgSize = s.cfgSize ∧
      t.erase = s.erase ∧ t.gen = s.gen ∧ t.bm = s.bm ∧ t.invm = s.invm ∧ t.arena = s.arena ∧ t.err = s.err

/-- R73, R202: whatever accesses the host makes after a command is accepted, the command completes when they are done, and what
it then does is its `exec` on a state whose inputs are those at acceptance. -/
def Obligations.AcceptedCommandCompletesOnItsInputs : Prop :=
  ∀ (s : State) (op : PendingOp) (as : List Access), s.phase = .busy op → s.inReset = false →
    s.schedule = as.map .access →
    ∃ u t : State, Host.Core.run Sys2Proof.core as.length s = .next u ∧
      Host.Core.run Sys2Proof.core (as.length + 1) s = .next t ∧ exec op.instr u = .next t ∧
      t.phase = .idle ∧ t.done = true ∧ t.schedule = [] ∧
      u.params = s.params ∧ u.cfgK = s.cfgK ∧ u.cfgM = s.cfgM ∧ u.cfgW = s.cfgW ∧ u.cfgPs = s.cfgPs ∧
      u.cfgSize = s.cfgSize ∧ u.erase = s.erase ∧ u.gen = s.gen ∧ u.bm = s.bm ∧ u.invm = s.invm ∧ u.arena = s.arena

/-- R96, R97: every name of the script language reaches its location: each register, each erasure slot and each word of GEN, BM,
INVM and ARENA that exists; and every line expands to the accesses R96 and R97 give it, for operands that fit their words (log
25) and names of cells that exist (log 26): `WAIT` reached Idle to one read of STATUS, reached Busy to the reads that find it
Busy, the CORE's turn and one more read (log 18), and `coreTurn`, the model's own line (log 28), to the CORE's turn. `WAIT`
always ends, Idle, with a read that finds BUSY = 0. -/
def Obligations.ScriptAddressesReachTheirLocations : Prop :=
  ∀ p : Params, p.sizesLegal = true →
    (locate p (scriptAddrNumber p .id).toNat = some .id ∧ locate p (scriptAddrNumber p .param0).toNat = some .param0 ∧
      locate p (scriptAddrNumber p .param1).toNat = some .param1 ∧ locate p (scriptAddrNumber p .ctrl).toNat = some .ctrl ∧
      locate p (scriptAddrNumber p .status).toNat = some .status ∧ locate p (scriptAddrNumber p .cmd).toNat = some .cmd ∧
      locate p (scriptAddrNumber p .cfgK).toNat = some .cfgK ∧ locate p (scriptAddrNumber p .cfgM).toNat = some .cfgM ∧
      locate p (scriptAddrNumber p .cfgW).toNat = some .cfgW ∧ locate p (scriptAddrNumber p .cfgPs).toNat = some .cfgPs ∧
      locate p (scriptAddrNumber p .cfgSize).toNat = some .cfgSize) ∧
    (∀ n : BitVec 32, scriptAddrNumber p (.number n) = n) ∧
    (∀ i < p.erSlots, locate p (scriptAddrNumber p (.erase i)).toNat = some (.erase i)) ∧
    (∀ n < p.genEntries, locate p (scriptAddrNumber p (.gen n)).toNat = some (.gen (4 * n))) ∧
    (∀ r < p.mwMax, ∀ q < p.rwWords,
      locate p (scriptAddrNumber p (.bm r q)).toNat = some (.bm (4 * (r * p.rwWords + q)))) ∧
    (∀ r < p.kwMax, ∀ q < p.rwWords,
      locate p (scriptAddrNumber p (.invm r q)).toNat = some (.invm (4 * (r * p.rwWords + q)))) ∧
    (∀ a < p.arenaBytes, a % 4 = 0 → locate p (scriptAddrNumber p (.arena a)).toNat = some (.arena a)) ∧
    (∀ (busy : Bool) (a : ScriptAddr) (v : Word),
      expandLine p busy (.wr a v) = [.access { dir := .write v, addr := scriptAddrNumber p a, bytes := 4 }] ∧
      expandLine p busy (.rd a) = [.access { dir := .read, addr := scriptAddrNumber p a, bytes := 4 }] ∧
      expandLine p busy (.expect a v) = [.access { dir := .read, addr := scriptAddrNumber p a, bytes := 4 }]) ∧
    (∀ (busy : Bool) (i : Instr),
      expandLine p busy (.run i) = [.access { dir := .write (encodeCmd i), addr := 0x18#32, bytes := 4 }]) ∧
    (∀ busy : Bool,
      expandLine p busy .clear = [.access { dir := .write 0x0000000E#32, addr := 0x14#32, bytes := 4 }]) ∧
    (∀ (busy : Bool) (es : List Word), es.length ≤ p.mMax →
      expandLine p busy (.erasures es) =
        (List.range es.length).map (fun i =>
          .access { dir := .write (es.getD i 0#32), addr := BitVec.ofNat 32 (0x100 + 4 * i), bytes := 4 }) ++
        [.access { dir := .write 0xFFFFFFFF#32, addr := BitVec.ofNat 32 (0x100 + 4 * es.length), bytes := 4 }]) ∧
    (∀ (busy : Bool) (k m w ps : Nat), k < 2 ^ 32 → m < 2 ^ 32 → w < 2 ^ 32 → ps < 2 ^ 32 → w * ps < 2 ^ 32 →
      ∃ vk vm vw vp vs : Word, vk.toNat = k ∧ vm.toNat = m ∧ vw.toNat = w ∧ vp.toNat = ps ∧ vs.toNat = w * ps ∧
        expandLine p busy (.config k m w ps) =
          [.access { dir := .write vk, addr := 0x20#32, bytes := 4 }, .access { dir := .write vm, addr := 0x24#32, bytes := 4 },
           .access { dir := .write vw, addr := 0x28#32, bytes := 4 }, .access { dir := .write vp, addr := 0x2C#32, bytes := 4 },
           .access { dir := .write vs, addr := 0x30#32, bytes := 4 }]) ∧
    (∀ polls : Nat,
      expandLine p false (.wait polls) = [.access { dir := .read, addr := 0x14#32, bytes := 4 }] ∧
      expandLine p true (.wait polls) =
        List.replicate polls (.access { dir := .read, addr := 0x14#32, bytes := 4 }) ++
          [.coreTurn, .access { dir := .read, addr := 0x14#32, bytes := 4 }]) ∧
    (∀ busy : Bool, expandLine p busy .coreTurn = [.coreTurn]) ∧
    (∀ (s : State) (polls : Nat), s.params = p → s.inReset = false →
      runLine (.wait polls) s = runEvents (expandLine p s.phase.isBusy (.wait polls)) s ∧
      ∃ t : State, runLine (.wait polls) s = .next t ∧
        t.phase = .idle ∧ ∃ v : Word, t.response = .data v ∧ v.getLsbD 0 = false)

/-- R11, R12: multiplication by x in a legal instance: a doubled, and where that leaves the w bits, reduced by POLY_LOW[w]; the
product a · 2^n is n multiplications by x, 2^b is x^b for b < w, and the field product sums the a · x^i bit by bit. -/
def Obligations.FieldMultiplicationByX : Prop :=
  ∀ (p : Params) (w : Nat) (a e : Word), p.sizesLegal = true → 1 ≤ w → w ≤ p.wMax → a.toNat < 2 ^ w →
    (a.getLsbD (w - 1) = false → (xtime w (p.polyLowAt w) a).toNat = 2 * a.toNat) ∧
    (a.getLsbD (w - 1) = true →
      (xtime w (p.polyLowAt w) a).toNat = (2 * a.toNat % 2 ^ w) ^^^ (p.polyLowAt w).toNat) ∧
    xtimePow w (p.polyLowAt w) 0 a = a ∧
    (∀ n, xtimePow w (p.polyLowAt w) (n + 1) a = xtime w (p.polyLowAt w) (xtimePow w (p.polyLowAt w) n a)) ∧
    (∀ b < w, (xtimePow w (p.polyLowAt w) b 1#32).toNat = 2 ^ b) ∧
    (∀ b, (gfMul w (p.polyLowAt w) a e).getLsbD b =
      xorSum w (fun i => a.getLsbD i && (xtimePow w (p.polyLowAt w) i e).getLsbD b))
end

