-- ==== Sys2Proof/Laws/Memory.lean ====
section
/-! SUPPORT. The laws of memory: reading after writing, and that every operation keeps the canonical form and the range. -/

namespace Sys2Proof.Machine

namespace Memory

@[simp] theorem read_nil (a : Nat) : Memory.read [] a = unlistedByte := rfl

theorem read_cons (k : Nat) (b : Byte) (rest : Memory) (a : Nat) :
    Memory.read ((k, b) :: rest) a = if k = a then b else Memory.read rest a := rfl

theorem wf_cons {k : Nat} {v : Byte} {rest : Memory} :
    Memory.wf ((k, v) :: rest) = true ↔ v ≠ unlistedByte ∧ Memory.headAbove k rest = true ∧ Memory.wf rest = true := by
  simp [Memory.wf, and_assoc]

theorem headAbove_mono {a b : Nat} {m : Memory} (hab : a ≤ b) (h : Memory.headAbove b m = true) :
    Memory.headAbove a m = true := by
  cases m with
  | nil => rfl
  | cons c rest =>
    simp only [Memory.headAbove, decide_eq_true_eq] at *
    omega

/-- In a canonical memory nothing is listed at or below an offset its head lies above. -/
theorem read_of_headAbove {a x : Nat} {m : Memory} (hm : Memory.wf m = true) (h : Memory.headAbove a m = true) (hx : x ≤ a) :
    Memory.read m x = unlistedByte := by
  induction m with
  | nil => rfl
  | cons c rest ih =>
    obtain ⟨k, v⟩ := c
    obtain ⟨-, hk, hrest⟩ := wf_cons.mp hm
    have hak : a < k := by simpa [Memory.headAbove] using h
    rw [read_cons, if_neg (by omega)]
    exact ih hrest (headAbove_mono (Nat.le_of_lt hak) hk)

theorem headAbove_write {a k : Nat} {m : Memory} {b : Byte} (h : Memory.headAbove a m = true) (hak : a < k) :
    Memory.headAbove a (Memory.write m k b) = true ∨ m.wf = false := by
  cases m with
  | nil => left; unfold Memory.write; split <;> simp [Memory.headAbove, hak]
  | cons c rest =>
    obtain ⟨k', v⟩ := c
    have hk' : a < k' := by simpa [Memory.headAbove] using h
    by_cases hw : Memory.wf ((k', v) :: rest) = true
    · left
      obtain ⟨-, hr, -⟩ := wf_cons.mp hw
      unfold Memory.write
      split
      · split
        · simpa [Memory.headAbove] using hk'
        · simpa [Memory.headAbove] using hak
      · split
        · split
          · exact headAbove_mono (Nat.le_of_lt hk') hr
          · simpa [Memory.headAbove] using hak
        · simpa [Memory.headAbove] using hk'
    · right; simpa using hw

/-- A write keeps the canonical form. -/
theorem wf_write {m : Memory} (hm : m.wf = true) (a : Nat) (b : Byte) : (m.write a b).wf = true := by
  induction m with
  | nil =>
    unfold Memory.write
    split
    · rfl
    · simp_all [Memory.wf, Memory.headAbove]
  | cons c rest ih =>
    obtain ⟨k, v⟩ := c
    obtain ⟨hv, hk, hrest⟩ := wf_cons.mp hm
    unfold Memory.write
    split
    · split
      · exact hm
      · exact wf_cons.mpr ⟨‹_›, by simpa [Memory.headAbove], hm⟩
    · split
      · subst_vars
        split
        · exact hrest
        · exact wf_cons.mpr ⟨‹_›, hk, hrest⟩
      · refine wf_cons.mpr ⟨hv, ?_, ih hrest⟩
        rcases headAbove_write (b := b) (k := a) hk (by omega) with h | h
        · exact h
        · simp [h] at hrest

/-- What every offset reads after one write. -/
theorem read_write {m : Memory} (hm : m.wf = true) (a : Nat) (b : Byte) (x : Nat) :
    (m.write a b).read x = if x = a then b else m.read x := by
  induction m with
  | nil =>
    unfold Memory.write
    split
    · subst_vars; simp
    · simp only [read_cons, read_nil, eq_comm]
  | cons c rest ih =>
    obtain ⟨k, v⟩ := c
    obtain ⟨hv, hk, hrest⟩ := wf_cons.mp hm
    unfold Memory.write
    split
    · split
      · subst_vars
        split
        · subst_vars
          rw [read_cons, if_neg (by omega)]
          exact read_of_headAbove hrest hk (by omega)
        · rfl
      · rw [read_cons]
        simp only [eq_comm]
    · split
      · subst_vars
        split
        · subst_vars
          rw [read_cons]
          by_cases hx : x = k
          · subst hx; rw [if_pos rfl]; exact read_of_headAbove hrest hk (Nat.le_refl _)
          · rw [if_neg hx, if_neg (Ne.symm hx)]
        · simp only [read_cons, eq_comm]
          split <;> rfl
      · rw [read_cons, read_cons, ih hrest]
        by_cases hx : k = x
        · subst hx; simp; omega
        · simp [hx]

theorem within_nil (size : Nat) : Memory.within size [] = true := rfl

theorem within_cons {size k : Nat} {v : Byte} {rest : Memory} :
    Memory.within size ((k, v) :: rest) = true ↔ k < size ∧ Memory.within size rest = true := by
  simp only [Memory.within, List.all_cons, Bool.and_eq_true, decide_eq_true_eq]

theorem within_write {m : Memory} {size a : Nat} {b : Byte} (hm : m.within size = true) (ha : a < size) :
    (m.write a b).within size = true := by
  induction m with
  | nil =>
    unfold Memory.write
    split
    · rfl
    · exact within_cons.mpr ⟨ha, rfl⟩
  | cons c rest ih =>
    obtain ⟨k, v⟩ := c
    obtain ⟨hk, hrest⟩ := within_cons.mp hm
    unfold Memory.write
    split
    · split
      · exact hm
      · exact within_cons.mpr ⟨ha, hm⟩
    · split
      · split
        · exact hrest
        · exact within_cons.mpr ⟨ha, hrest⟩
      · exact within_cons.mpr ⟨hk, ih hrest⟩

/-- Canonical memories that read alike are equal. -/
theorem ext_of_wf {m m' : Memory} (hm : m.wf = true) (hm' : m'.wf = true) (h : ∀ a, m.read a = m'.read a) : m = m' := by
  induction m generalizing m' with
  | nil =>
    cases m' with
    | nil => rfl
    | cons c rest =>
      obtain ⟨k, v⟩ := c
      have := h k
      rw [read_nil, read_cons, if_pos rfl] at this
      exact absurd this.symm (wf_cons.mp hm').1
  | cons c rest ih =>
    obtain ⟨k, v⟩ := c
    obtain ⟨hv, hk, hrest⟩ := wf_cons.mp hm
    cases m' with
    | nil =>
      have := h k
      rw [read_nil, read_cons, if_pos rfl] at this
      exact absurd this hv
    | cons c' rest' =>
      obtain ⟨k', v'⟩ := c'
      obtain ⟨hv', hk', hrest'⟩ := wf_cons.mp hm'
      have hkk : k = k' := by
        rcases Nat.lt_trichotomy k k' with hlt | heq | hgt
        · have := h k
          rw [read_cons, if_pos rfl, read_cons, if_neg (by omega),
            read_of_headAbove hrest' hk' (Nat.le_of_lt hlt)] at this
          exact absurd this hv
        · exact heq
        · have := h k'
          rw [read_cons, if_neg (by omega), read_cons, if_pos rfl,
            read_of_headAbove hrest hk (Nat.le_of_lt hgt)] at this
          exact absurd this.symm hv'
      subst hkk
      have hvv : v = v' := by simpa [read_cons] using h k
      subst hvv
      rw [ih hrest hrest' fun a => ?_]
      by_cases ha : a = k
      · subst ha
        rw [read_of_headAbove hrest hk (Nat.le_refl _), read_of_headAbove hrest' hk' (Nat.le_refl _)]
      · have := h a
        rwa [read_cons, if_neg (Ne.symm ha), read_cons, if_neg (Ne.symm ha)] at this

end Memory

@[simp] theorem length_memRead (m : Memory) (a n : Nat) : (memRead m a n).length = n := by
  simp [memRead]

theorem getElem_memRead (m : Memory) (a n o : Nat) (h : o < (memRead m a n).length) :
    (memRead m a n)[o] = m.read (a + o) := by
  simp [memRead]

/-- A byte-string write keeps the canonical form. -/
theorem wf_memWrite {m : Memory} (hm : m.wf = true) (a : Nat) (bs : List Byte) : (memWrite m a bs).wf = true := by
  induction bs generalizing m a with
  | nil => exact hm
  | cons b bs ih => exact ih (Memory.wf_write hm a b) (a + 1)

/-- What every offset reads after a byte-string write. -/
theorem read_memWrite {m : Memory} (hm : m.wf = true) (a : Nat) (bs : List Byte) (x : Nat) :
    (memWrite m a bs).read x = if h : a ≤ x ∧ x < a + bs.length then bs[x - a]'(by omega) else m.read x := by
  induction bs generalizing m a with
  | nil => rw [memWrite, dif_neg (by simp)]
  | cons b bs ih =>
    rw [memWrite, ih (Memory.wf_write hm a b), Memory.read_write hm]
    by_cases hx : x = a
    · subst hx; simp
    · by_cases h : a + 1 ≤ x ∧ x < a + 1 + bs.length
      · have h' : a ≤ x ∧ x < a + (b :: bs).length := by simp; omega
        rw [dif_pos h, dif_pos h']
        have : x - a = (x - (a + 1)) + 1 := by omega
        simp [this]
      · have h' : ¬(a ≤ x ∧ x < a + (b :: bs).length) := by simp; omega
        rw [dif_neg h, dif_neg h', if_neg hx]

theorem within_memWrite {m : Memory} {size a : Nat} {bs : List Byte} (hm : m.within size = true)
    (ha : a + bs.length ≤ size) : (memWrite m a bs).within size = true := by
  induction bs generalizing m a with
  | nil => exact hm
  | cons b bs ih =>
    simp only [List.length_cons] at ha
    exact ih (Memory.within_write hm (by omega)) (by omega)

/-- A word write keeps the canonical form. -/
theorem wf_writeWord {m : Memory} (hm : m.wf = true) (a : Nat) (v : Word) : (writeWord m a v).wf = true :=
  wf_memWrite hm a _

theorem within_writeWord {m : Memory} {size a : Nat} (hm : m.within size = true) (ha : a + 4 ≤ size) (v : Word) :
    (writeWord m a v).within size = true :=
  within_memWrite hm (by simpa using ha)

/-- The byte lanes of a word make up the word (R64). -/
theorem wordOfBytes_byteLane (v : Word) :
    wordOfBytes (byteLane v 0) (byteLane v 1) (byteLane v 2) (byteLane v 3) = v := by
  apply BitVec.eq_of_getLsbD_eq
  intro n hn
  simp only [wordOfBytes, byteLane, BitVec.getLsbD_append, BitVec.getLsbD_extractLsb']
  by_cases h0 : n < 8
  · simp [h0]
  · by_cases h1 : n - 8 < 8
    · simp [h0, h1]; congr 1; omega
    · by_cases h2 : n - 8 - 8 < 8
      · simp [h0, h1, h2]; congr 1; omega
      · have h3 : n - 8 - 8 - 8 < 8 := by omega
        simp [h0, h1, h2, h3]; congr 1; omega

/-- What the bytes read after a word write at a word offset. -/
theorem read_writeWord {m : Memory} (hm : m.wf = true) (a : Nat) (v : Word) (x : Nat) :
    (writeWord m a v).read x = if a ≤ x ∧ x < a + 4 then byteLane v (x - a) else m.read x := by
  rw [writeWord, read_memWrite hm]
  by_cases h : a ≤ x ∧ x < a + 4
  · have : x - a = 0 ∨ x - a = 1 ∨ x - a = 2 ∨ x - a = 3 := by omega
    rw [dif_pos (by simpa using h), if_pos h]
    rcases this with h | h | h | h <;> simp [h]
  · rw [dif_neg (by simpa using h), if_neg h]

/-- A word read after a word write to the same offset gives the word written. -/
theorem readWord_writeWord_same {m : Memory} (hm : m.wf = true) (a : Nat) (v : Word) :
    readWord (writeWord m a v) a = v := by
  simp only [readWord, read_writeWord hm]
  simpa using wordOfBytes_byteLane v

/-- A word read at another word offset is unchanged by a word write. -/
theorem readWord_writeWord_other {m : Memory} (hm : m.wf = true) {a x : Nat} (v : Word)
    (h : x + 4 ≤ a ∨ a + 4 ≤ x) : readWord (writeWord m a v) x = readWord m x := by
  simp only [readWord, read_writeWord hm]
  rw [if_neg (by omega), if_neg (by omega), if_neg (by omega), if_neg (by omega)]

end Sys2Proof.Machine
end

