-- ==== Sys2Proof/Laws/Bits.lean ====
section
/-! SUPPORT. The laws of matrix bits (20_memory.md R67): reading a bit after writing bits, the canonical form, and the range. -/

namespace Sys2Proof.Machine

theorem getLsbD_setByteBit (b : Byte) (t : Nat) (x : Bool) (ht : t < 8) (n : Nat) (hn : n < 8) :
    (setByteBit b t x).getLsbD n = if n = t then x else b.getLsbD n := by
  unfold setByteBit
  by_cases h : n = t
  · subst h
    cases x <;> simp [hn]
  · have h2 : ¬ (t ≤ n ∧ n - t = 0) := by omega
    cases x <;> simp [h, hn] <;> omega

/-- Two bits of existing columns share a cell only in the same row and the same byte of the row. -/
theorem bitCell_inj {rw r c r' c' : Nat} (hc : c < 32 * rw) (hc' : c' < 32 * rw)
    (h : bitCell rw r c = bitCell rw r' c') : r = r' ∧ c / 8 = c' / 8 := by
  unfold bitCell at h
  have e : 4 * (r * rw) = 4 * rw * r := by ring
  have e' : 4 * (r' * rw) = 4 * rw * r' := by ring
  rw [e, e'] at h
  have h1 : c / 8 < 4 * rw := by omega
  have h2 : c' / 8 < 4 * rw := by omega
  have hpos : 0 < 4 * rw := by omega
  have hr : r = r' := by
    have a1 : (c / 8 + 4 * rw * r) / (4 * rw) = r := by
      rw [Nat.add_mul_div_left _ _ hpos, Nat.div_eq_of_lt h1, Nat.zero_add]
    have a2 : (c' / 8 + 4 * rw * r') / (4 * rw) = r' := by
      rw [Nat.add_mul_div_left _ _ hpos, Nat.div_eq_of_lt h2, Nat.zero_add]
    rw [← a1, ← a2]; congr 1; omega
  subst hr
  exact ⟨rfl, by omega⟩

theorem bitCell_lt {rw r c rows : Nat} (hr : r < rows) (hc : c < 32 * rw) : bitCell rw r c < 4 * (rows * rw) := by
  unfold bitCell
  have h : (r + 1) * rw ≤ rows * rw := Nat.mul_le_mul_right _ hr
  rw [Nat.succ_mul] at h
  omega

theorem wf_writeBit {m : Memory} (hm : m.wf = true) (rw r c : Nat) (x : Bool) : (writeBit m rw r c x).wf = true :=
  Memory.wf_write hm _ _

/-- What every bit reads after one bit write. -/
theorem readBit_writeBit {m : Memory} (hm : m.wf = true) {rw r c : Nat} (hc : c < 32 * rw) (x : Bool)
    {r' c' : Nat} (hc' : c' < 32 * rw) :
    readBit (writeBit m rw r c x) rw r' c' = if r' = r ∧ c' = c then x else readBit m rw r' c' := by
  unfold writeBit readBit
  rw [Memory.read_write hm]
  by_cases h : bitCell rw r' c' = bitCell rw r c
  · obtain ⟨hr, hcc⟩ := bitCell_inj hc' hc h
    subst hr
    rw [if_pos h, getLsbD_setByteBit _ _ _ (Nat.mod_lt _ (by omega)) _ (Nat.mod_lt _ (by omega)), h]
    by_cases e : c' = c
    · simp [e]
    · have : ¬ c' % 8 = c % 8 := by omega
      simp [e, this]
  · rw [if_neg h, if_neg]
    rintro ⟨rfl, rfl⟩
    exact h rfl

theorem writeRow_succ (m : Memory) (rw r n : Nat) (f : Nat → Bool) :
    writeRow m rw r (n + 1) f = writeBit (writeRow m rw r n f) rw r n (f n) := by
  simp [writeRow, List.range_succ]

theorem writeBlock_succ (m : Memory) (rw n cols : Nat) (f : Nat → Nat → Bool) :
    writeBlock m rw (n + 1) cols f = writeRow (writeBlock m rw n cols f) rw n cols (f n) := by
  simp [writeBlock, List.range_succ]

theorem wf_writeRow {m : Memory} (hm : m.wf = true) (rw r cols : Nat) (f : Nat → Bool) :
    (writeRow m rw r cols f).wf = true := by
  induction cols with
  | zero => simpa [writeRow] using hm
  | succ n ih => rw [writeRow_succ]; exact wf_writeBit ih _ _ _ _

/-- A block write keeps the canonical form. -/
theorem wf_writeBlock {m : Memory} (hm : m.wf = true) (rw rows cols : Nat) (f : Nat → Nat → Bool) :
    (writeBlock m rw rows cols f).wf = true := by
  induction rows with
  | zero => simpa [writeBlock] using hm
  | succ n ih => rw [writeBlock_succ]; exact wf_writeRow ih _ _ _ _

theorem readBit_writeRow {m : Memory} (hm : m.wf = true) {rw r cols : Nat} (hcols : cols ≤ 32 * rw) (f : Nat → Bool)
    {r' c' : Nat} (hc' : c' < 32 * rw) :
    readBit (writeRow m rw r cols f) rw r' c' = if r' = r ∧ c' < cols then f c' else readBit m rw r' c' := by
  induction cols with
  | zero => simp [writeRow]
  | succ n ih =>
    rw [writeRow_succ, readBit_writeBit (wf_writeRow hm _ _ _ _) (by omega) _ hc', ih (by omega)]
    by_cases h : r' = r ∧ c' = n
    · rw [if_pos h, if_pos ⟨h.1, by omega⟩, h.2]
    · rw [if_neg h]
      by_cases h2 : r' = r ∧ c' < n
      · rw [if_pos h2, if_pos ⟨h2.1, by omega⟩]
      · rw [if_neg h2, if_neg (by omega)]

/-- What every bit reads after a block write: the block's new values inside, its old value outside. -/
theorem readBit_writeBlock {m : Memory} (hm : m.wf = true) {rw rows cols : Nat} (hcols : cols ≤ 32 * rw)
    (f : Nat → Nat → Bool) {r c : Nat} (hc : c < 32 * rw) :
    readBit (writeBlock m rw rows cols f) rw r c = if r < rows ∧ c < cols then f r c else readBit m rw r c := by
  induction rows with
  | zero => simp [writeBlock]
  | succ n ih =>
    rw [writeBlock_succ, readBit_writeRow (wf_writeBlock hm _ _ _ _) hcols _ hc, ih]
    by_cases h : r = n ∧ c < cols
    · rw [if_pos h, if_pos ⟨by omega, h.2⟩, h.1]
    · rw [if_neg h]
      by_cases h2 : r < n ∧ c < cols
      · rw [if_pos h2, if_pos ⟨by omega, h2.2⟩]
      · rw [if_neg h2, if_neg (by omega)]

theorem within_writeRow {m : Memory} {size rw r cols : Nat} (hm : m.within size = true) (f : Nat → Bool)
    (h : ∀ c < cols, bitCell rw r c < size) : (writeRow m rw r cols f).within size = true := by
  induction cols with
  | zero => simpa [writeRow] using hm
  | succ n ih =>
    rw [writeRow_succ]
    exact Memory.within_write (ih fun c hc => h c (by omega)) (h n (by omega))

/-- A block write stays in range. -/
theorem within_writeBlock {m : Memory} {maxRows rw rows cols : Nat} (hm : m.within (4 * (maxRows * rw)) = true)
    (f : Nat → Nat → Bool) (hr : rows ≤ maxRows) (hc : cols ≤ 32 * rw) :
    (writeBlock m rw rows cols f).within (4 * (maxRows * rw)) = true := by
  induction rows with
  | zero => simpa [writeBlock] using hm
  | succ n ih =>
    rw [writeBlock_succ]
    exact within_writeRow (ih (by omega)) _ fun c h => bitCell_lt (by omega) (by omega)

end Sys2Proof.Machine
end

