-- ==== Sys2Proof/Laws/Config.lean ====
section
/-! SUPPORT. What a legal instance's parameters give (00_scope.md R6), and the arithmetic of rows cut into blocks. -/

namespace Sys2Proof

namespace Params

/-- The bounds of R6 as one conjunction. -/
theorem bounds_of_sizesLegal {p : Params} (h : p.sizesLegal = true) :
    (1 ≤ p.kMax ∧ p.kMax ≤ 255) ∧ (1 ≤ p.mMax ∧ p.mMax ≤ 255) ∧ (1 ≤ p.wMax ∧ p.wMax ≤ 32) ∧
      (p.arenaBytes % 4 = 0 ∧ 4 ≤ p.arenaBytes ∧ p.arenaBytes ≤ 2 ^ 31) ∧ p.xorBytes ≤ 128 := by
  simp only [sizesLegal, Bool.and_eq_true, decide_eq_true_eq, beq_iff_eq] at h
  have hx : p.xorBytes ≤ 128 := by
    have := h.1.1.1.2
    simp at this
    omega
  omega

/-- POLY_LOW[w] is below 2^w (R6). -/
theorem polyLowAt_lt {p : Params} (h : p.sizesLegal = true) {w : Nat} (h1 : 1 ≤ w) (h2 : w ≤ p.wMax) :
    (p.polyLowAt w).toNat < 2 ^ w := by
  simp only [sizesLegal, Bool.and_eq_true, List.all_eq_true] at h
  have := h.2 (w - 1) (by simp; omega)
  rwa [decide_eq_true_eq, Nat.sub_add_cancel h1] at this

/-- The derived sizes of a legal instance keep every window of R62 away from the next. -/
theorem derived_bounds {p : Params} (h : p.sizesLegal = true) :
    p.erSlots ≤ 256 ∧ p.genEntries ≤ 65025 ∧ p.rwWords ≤ 255 ∧ p.mwMax * p.rwWords ≤ 2080800 ∧
      p.kwMax * p.rwWords ≤ 2080800 := by
  obtain ⟨⟨_, hk⟩, ⟨_, hm⟩, ⟨_, hw⟩, -⟩ := bounds_of_sizesLegal h
  have a : p.kwMax ≤ 255 * 32 := Nat.mul_le_mul hk hw
  have b : p.mwMax ≤ 255 * 32 := Nat.mul_le_mul hm hw
  have c : p.rwWords ≤ 255 := by unfold rwWords; omega
  have d : p.genEntries ≤ 255 * 255 := Nat.mul_le_mul hk hm
  have e : p.mwMax * p.rwWords ≤ 8160 * 255 := Nat.mul_le_mul b c
  have f : p.kwMax * p.rwWords ≤ 8160 * 255 := Nat.mul_le_mul a c
  have g : p.erSlots ≤ 256 := by unfold erSlots; omega
  omega

end Params

/-- Cell q of row r lies below n rows of w cells. -/
theorem cell_lt {r q n w : Nat} (hr : r < n) (hq : q < w) : r * w + q < n * w := by
  have h : (r + 1) * w ≤ n * w := Nat.mul_le_mul_right _ hr
  rw [Nat.succ_mul] at h
  omega

/-- A cell's number gives back its row and its place in the row. -/
theorem div_mod_cell {i b w : Nat} (hb : b < w) : (i * w + b) / w = i ∧ (i * w + b) % w = b := by
  have hw : 0 < w := by omega
  constructor
  · rw [Nat.mul_comm, Nat.mul_add_div hw, Nat.div_eq_of_lt hb, Nat.add_zero]
  · rw [Nat.mul_comm, Nat.mul_add_mod, Nat.mod_eq_of_lt hb]

end Sys2Proof
end

