-- ==== Sys2Proof/Laws/State.lean ====
section
/-! SUPPORT. What each named update of State leaves in each field: one lemma per field per update, all by rfl. -/

namespace Sys2Proof.Machine.State

/-! ### withBm -/

@[simp] theorem withBm_params (s : State) (m : Memory) : (s.withBm m).params = s.params := rfl
@[simp] theorem withBm_ie (s : State) (m : Memory) : (s.withBm m).ie = s.ie := rfl
@[simp] theorem withBm_cfgK (s : State) (m : Memory) : (s.withBm m).cfgK = s.cfgK := rfl
@[simp] theorem withBm_cfgM (s : State) (m : Memory) : (s.withBm m).cfgM = s.cfgM := rfl
@[simp] theorem withBm_cfgW (s : State) (m : Memory) : (s.withBm m).cfgW = s.cfgW := rfl
@[simp] theorem withBm_cfgPs (s : State) (m : Memory) : (s.withBm m).cfgPs = s.cfgPs := rfl
@[simp] theorem withBm_cfgSize (s : State) (m : Memory) : (s.withBm m).cfgSize = s.cfgSize := rfl
@[simp] theorem withBm_done (s : State) (m : Memory) : (s.withBm m).done = s.done := rfl
@[simp] theorem withBm_anyErr (s : State) (m : Memory) : (s.withBm m).anyErr = s.anyErr := rfl
@[simp] theorem withBm_werr (s : State) (m : Memory) : (s.withBm m).werr = s.werr := rfl
@[simp] theorem withBm_err (s : State) (m : Memory) : (s.withBm m).err = s.err := rfl
@[simp] theorem withBm_erase (s : State) (m : Memory) : (s.withBm m).erase = s.erase := rfl
@[simp] theorem withBm_gen (s : State) (m : Memory) : (s.withBm m).gen = s.gen := rfl
@[simp] theorem withBm_bm (s : State) (m : Memory) : (s.withBm m).bm = m := rfl
@[simp] theorem withBm_invm (s : State) (m : Memory) : (s.withBm m).invm = s.invm := rfl
@[simp] theorem withBm_arena (s : State) (m : Memory) : (s.withBm m).arena = s.arena := rfl
@[simp] theorem withBm_phase (s : State) (m : Memory) : (s.withBm m).phase = s.phase := rfl
@[simp] theorem withBm_inReset (s : State) (m : Memory) : (s.withBm m).inReset = s.inReset := rfl
@[simp] theorem withBm_schedule (s : State) (m : Memory) : (s.withBm m).schedule = s.schedule := rfl
@[simp] theorem withBm_response (s : State) (m : Memory) : (s.withBm m).response = s.response := rfl
@[simp] theorem withBm_draws (s : State) (m : Memory) : (s.withBm m).draws = s.draws := rfl

/-! ### withInvm -/

@[simp] theorem withInvm_params (s : State) (m : Memory) : (s.withInvm m).params = s.params := rfl
@[simp] theorem withInvm_ie (s : State) (m : Memory) : (s.withInvm m).ie = s.ie := rfl
@[simp] theorem withInvm_cfgK (s : State) (m : Memory) : (s.withInvm m).cfgK = s.cfgK := rfl
@[simp] theorem withInvm_cfgM (s : State) (m : Memory) : (s.withInvm m).cfgM = s.cfgM := rfl
@[simp] theorem withInvm_cfgW (s : State) (m : Memory) : (s.withInvm m).cfgW = s.cfgW := rfl
@[simp] theorem withInvm_cfgPs (s : State) (m : Memory) : (s.withInvm m).cfgPs = s.cfgPs := rfl
@[simp] theorem withInvm_cfgSize (s : State) (m : Memory) : (s.withInvm m).cfgSize = s.cfgSize := rfl
@[simp] theorem withInvm_done (s : State) (m : Memory) : (s.withInvm m).done = s.done := rfl
@[simp] theorem withInvm_anyErr (s : State) (m : Memory) : (s.withInvm m).anyErr = s.anyErr := rfl
@[simp] theorem withInvm_werr (s : State) (m : Memory) : (s.withInvm m).werr = s.werr := rfl
@[simp] theorem withInvm_err (s : State) (m : Memory) : (s.withInvm m).err = s.err := rfl
@[simp] theorem withInvm_erase (s : State) (m : Memory) : (s.withInvm m).erase = s.erase := rfl
@[simp] theorem withInvm_gen (s : State) (m : Memory) : (s.withInvm m).gen = s.gen := rfl
@[simp] theorem withInvm_bm (s : State) (m : Memory) : (s.withInvm m).bm = s.bm := rfl
@[simp] theorem withInvm_invm (s : State) (m : Memory) : (s.withInvm m).invm = m := rfl
@[simp] theorem withInvm_arena (s : State) (m : Memory) : (s.withInvm m).arena = s.arena := rfl
@[simp] theorem withInvm_phase (s : State) (m : Memory) : (s.withInvm m).phase = s.phase := rfl
@[simp] theorem withInvm_inReset (s : State) (m : Memory) : (s.withInvm m).inReset = s.inReset := rfl
@[simp] theorem withInvm_schedule (s : State) (m : Memory) : (s.withInvm m).schedule = s.schedule := rfl
@[simp] theorem withInvm_response (s : State) (m : Memory) : (s.withInvm m).response = s.response := rfl
@[simp] theorem withInvm_draws (s : State) (m : Memory) : (s.withInvm m).draws = s.draws := rfl

/-! ### withArena -/

@[simp] theorem withArena_params (s : State) (m : Memory) : (s.withArena m).params = s.params := rfl
@[simp] theorem withArena_ie (s : State) (m : Memory) : (s.withArena m).ie = s.ie := rfl
@[simp] theorem withArena_cfgK (s : State) (m : Memory) : (s.withArena m).cfgK = s.cfgK := rfl
@[simp] theorem withArena_cfgM (s : State) (m : Memory) : (s.withArena m).cfgM = s.cfgM := rfl
@[simp] theorem withArena_cfgW (s : State) (m : Memory) : (s.withArena m).cfgW = s.cfgW := rfl
@[simp] theorem withArena_cfgPs (s : State) (m : Memory) : (s.withArena m).cfgPs = s.cfgPs := rfl
@[simp] theorem withArena_cfgSize (s : State) (m : Memory) : (s.withArena m).cfgSize = s.cfgSize := rfl
@[simp] theorem withArena_done (s : State) (m : Memory) : (s.withArena m).done = s.done := rfl
@[simp] theorem withArena_anyErr (s : State) (m : Memory) : (s.withArena m).anyErr = s.anyErr := rfl
@[simp] theorem withArena_werr (s : State) (m : Memory) : (s.withArena m).werr = s.werr := rfl
@[simp] theorem withArena_err (s : State) (m : Memory) : (s.withArena m).err = s.err := rfl
@[simp] theorem withArena_erase (s : State) (m : Memory) : (s.withArena m).erase = s.erase := rfl
@[simp] theorem withArena_gen (s : State) (m : Memory) : (s.withArena m).gen = s.gen := rfl
@[simp] theorem withArena_bm (s : State) (m : Memory) : (s.withArena m).bm = s.bm := rfl
@[simp] theorem withArena_invm (s : State) (m : Memory) : (s.withArena m).invm = s.invm := rfl
@[simp] theorem withArena_arena (s : State) (m : Memory) : (s.withArena m).arena = m := rfl
@[simp] theorem withArena_phase (s : State) (m : Memory) : (s.withArena m).phase = s.phase := rfl
@[simp] theorem withArena_inReset (s : State) (m : Memory) : (s.withArena m).inReset = s.inReset := rfl
@[simp] theorem withArena_schedule (s : State) (m : Memory) : (s.withArena m).schedule = s.schedule := rfl
@[simp] theorem withArena_response (s : State) (m : Memory) : (s.withArena m).response = s.response := rfl
@[simp] theorem withArena_draws (s : State) (m : Memory) : (s.withArena m).draws = s.draws := rfl

/-! ### withGen -/

@[simp] theorem withGen_params (s : State) (m : Memory) : (s.withGen m).params = s.params := rfl
@[simp] theorem withGen_ie (s : State) (m : Memory) : (s.withGen m).ie = s.ie := rfl
@[simp] theorem withGen_cfgK (s : State) (m : Memory) : (s.withGen m).cfgK = s.cfgK := rfl
@[simp] theorem withGen_cfgM (s : State) (m : Memory) : (s.withGen m).cfgM = s.cfgM := rfl
@[simp] theorem withGen_cfgW (s : State) (m : Memory) : (s.withGen m).cfgW = s.cfgW := rfl
@[simp] theorem withGen_cfgPs (s : State) (m : Memory) : (s.withGen m).cfgPs = s.cfgPs := rfl
@[simp] theorem withGen_cfgSize (s : State) (m : Memory) : (s.withGen m).cfgSize = s.cfgSize := rfl
@[simp] theorem withGen_done (s : State) (m : Memory) : (s.withGen m).done = s.done := rfl
@[simp] theorem withGen_anyErr (s : State) (m : Memory) : (s.withGen m).anyErr = s.anyErr := rfl
@[simp] theorem withGen_werr (s : State) (m : Memory) : (s.withGen m).werr = s.werr := rfl
@[simp] theorem withGen_err (s : State) (m : Memory) : (s.withGen m).err = s.err := rfl
@[simp] theorem withGen_erase (s : State) (m : Memory) : (s.withGen m).erase = s.erase := rfl
@[simp] theorem withGen_gen (s : State) (m : Memory) : (s.withGen m).gen = m := rfl
@[simp] theorem withGen_bm (s : State) (m : Memory) : (s.withGen m).bm = s.bm := rfl
@[simp] theorem withGen_invm (s : State) (m : Memory) : (s.withGen m).invm = s.invm := rfl
@[simp] theorem withGen_arena (s : State) (m : Memory) : (s.withGen m).arena = s.arena := rfl
@[simp] theorem withGen_phase (s : State) (m : Memory) : (s.withGen m).phase = s.phase := rfl
@[simp] theorem withGen_inReset (s : State) (m : Memory) : (s.withGen m).inReset = s.inReset := rfl
@[simp] theorem withGen_schedule (s : State) (m : Memory) : (s.withGen m).schedule = s.schedule := rfl
@[simp] theorem withGen_response (s : State) (m : Memory) : (s.withGen m).response = s.response := rfl
@[simp] theorem withGen_draws (s : State) (m : Memory) : (s.withGen m).draws = s.draws := rfl

/-! ### withResponse -/

@[simp] theorem withResponse_params (s : State) (r : Response) : (s.withResponse r).params = s.params := rfl
@[simp] theorem withResponse_ie (s : State) (r : Response) : (s.withResponse r).ie = s.ie := rfl
@[simp] theorem withResponse_cfgK (s : State) (r : Response) : (s.withResponse r).cfgK = s.cfgK := rfl
@[simp] theorem withResponse_cfgM (s : State) (r : Response) : (s.withResponse r).cfgM = s.cfgM := rfl
@[simp] theorem withResponse_cfgW (s : State) (r : Response) : (s.withResponse r).cfgW = s.cfgW := rfl
@[simp] theorem withResponse_cfgPs (s : State) (r : Response) : (s.withResponse r).cfgPs = s.cfgPs := rfl
@[simp] theorem withResponse_cfgSize (s : State) (r : Response) : (s.withResponse r).cfgSize = s.cfgSize := rfl
@[simp] theorem withResponse_done (s : State) (r : Response) : (s.withResponse r).done = s.done := rfl
@[simp] theorem withResponse_anyErr (s : State) (r : Response) : (s.withResponse r).anyErr = s.anyErr := rfl
@[simp] theorem withResponse_werr (s : State) (r : Response) : (s.withResponse r).werr = s.werr := rfl
@[simp] theorem withResponse_err (s : State) (r : Response) : (s.withResponse r).err = s.err := rfl
@[simp] theorem withResponse_erase (s : State) (r : Response) : (s.withResponse r).erase = s.erase := rfl
@[simp] theorem withResponse_gen (s : State) (r : Response) : (s.withResponse r).gen = s.gen := rfl
@[simp] theorem withResponse_bm (s : State) (r : Response) : (s.withResponse r).bm = s.bm := rfl
@[simp] theorem withResponse_invm (s : State) (r : Response) : (s.withResponse r).invm = s.invm := rfl
@[simp] theorem withResponse_arena (s : State) (r : Response) : (s.withResponse r).arena = s.arena := rfl
@[simp] theorem withResponse_phase (s : State) (r : Response) : (s.withResponse r).phase = s.phase := rfl
@[simp] theorem withResponse_inReset (s : State) (r : Response) : (s.withResponse r).inReset = s.inReset := rfl
@[simp] theorem withResponse_schedule (s : State) (r : Response) : (s.withResponse r).schedule = s.schedule := rfl
@[simp] theorem withResponse_response (s : State) (r : Response) : (s.withResponse r).response = r := rfl
@[simp] theorem withResponse_draws (s : State) (r : Response) : (s.withResponse r).draws = s.draws := rfl

/-! ### withSchedule -/

@[simp] theorem withSchedule_params (s : State) (es : List Event) : (s.withSchedule es).params = s.params := rfl
@[simp] theorem withSchedule_ie (s : State) (es : List Event) : (s.withSchedule es).ie = s.ie := rfl
@[simp] theorem withSchedule_cfgK (s : State) (es : List Event) : (s.withSchedule es).cfgK = s.cfgK := rfl
@[simp] theorem withSchedule_cfgM (s : State) (es : List Event) : (s.withSchedule es).cfgM = s.cfgM := rfl
@[simp] theorem withSchedule_cfgW (s : State) (es : List Event) : (s.withSchedule es).cfgW = s.cfgW := rfl
@[simp] theorem withSchedule_cfgPs (s : State) (es : List Event) : (s.withSchedule es).cfgPs = s.cfgPs := rfl
@[simp] theorem withSchedule_cfgSize (s : State) (es : List Event) : (s.withSchedule es).cfgSize = s.cfgSize := rfl
@[simp] theorem withSchedule_done (s : State) (es : List Event) : (s.withSchedule es).done = s.done := rfl
@[simp] theorem withSchedule_anyErr (s : State) (es : List Event) : (s.withSchedule es).anyErr = s.anyErr := rfl
@[simp] theorem withSchedule_werr (s : State) (es : List Event) : (s.withSchedule es).werr = s.werr := rfl
@[simp] theorem withSchedule_err (s : State) (es : List Event) : (s.withSchedule es).err = s.err := rfl
@[simp] theorem withSchedule_erase (s : State) (es : List Event) : (s.withSchedule es).erase = s.erase := rfl
@[simp] theorem withSchedule_gen (s : State) (es : List Event) : (s.withSchedule es).gen = s.gen := rfl
@[simp] theorem withSchedule_bm (s : State) (es : List Event) : (s.withSchedule es).bm = s.bm := rfl
@[simp] theorem withSchedule_invm (s : State) (es : List Event) : (s.withSchedule es).invm = s.invm := rfl
@[simp] theorem withSchedule_arena (s : State) (es : List Event) : (s.withSchedule es).arena = s.arena := rfl
@[simp] theorem withSchedule_phase (s : State) (es : List Event) : (s.withSchedule es).phase = s.phase := rfl
@[simp] theorem withSchedule_inReset (s : State) (es : List Event) : (s.withSchedule es).inReset = s.inReset := rfl
@[simp] theorem withSchedule_schedule (s : State) (es : List Event) : (s.withSchedule es).schedule = es := rfl
@[simp] theorem withSchedule_response (s : State) (es : List Event) : (s.withSchedule es).response = s.response := rfl
@[simp] theorem withSchedule_draws (s : State) (es : List Event) : (s.withSchedule es).draws = s.draws := rfl

/-! ### dropWrite -/

@[simp] theorem dropWrite_params (s : State) : (s.dropWrite).params = s.params := rfl
@[simp] theorem dropWrite_ie (s : State) : (s.dropWrite).ie = s.ie := rfl
@[simp] theorem dropWrite_cfgK (s : State) : (s.dropWrite).cfgK = s.cfgK := rfl
@[simp] theorem dropWrite_cfgM (s : State) : (s.dropWrite).cfgM = s.cfgM := rfl
@[simp] theorem dropWrite_cfgW (s : State) : (s.dropWrite).cfgW = s.cfgW := rfl
@[simp] theorem dropWrite_cfgPs (s : State) : (s.dropWrite).cfgPs = s.cfgPs := rfl
@[simp] theorem dropWrite_cfgSize (s : State) : (s.dropWrite).cfgSize = s.cfgSize := rfl
@[simp] theorem dropWrite_done (s : State) : (s.dropWrite).done = s.done := rfl
@[simp] theorem dropWrite_anyErr (s : State) : (s.dropWrite).anyErr = s.anyErr := rfl
@[simp] theorem dropWrite_werr (s : State) : (s.dropWrite).werr = true := rfl
@[simp] theorem dropWrite_err (s : State) : (s.dropWrite).err = s.err := rfl
@[simp] theorem dropWrite_erase (s : State) : (s.dropWrite).erase = s.erase := rfl
@[simp] theorem dropWrite_gen (s : State) : (s.dropWrite).gen = s.gen := rfl
@[simp] theorem dropWrite_bm (s : State) : (s.dropWrite).bm = s.bm := rfl
@[simp] theorem dropWrite_invm (s : State) : (s.dropWrite).invm = s.invm := rfl
@[simp] theorem dropWrite_arena (s : State) : (s.dropWrite).arena = s.arena := rfl
@[simp] theorem dropWrite_phase (s : State) : (s.dropWrite).phase = s.phase := rfl
@[simp] theorem dropWrite_inReset (s : State) : (s.dropWrite).inReset = s.inReset := rfl
@[simp] theorem dropWrite_schedule (s : State) : (s.dropWrite).schedule = s.schedule := rfl
@[simp] theorem dropWrite_response (s : State) : (s.dropWrite).response = s.response := rfl
@[simp] theorem dropWrite_draws (s : State) : (s.dropWrite).draws = s.draws := rfl

/-! ### nextDraw -/

@[simp] theorem nextDraw_params (s : State) : (s.nextDraw).params = s.params := rfl
@[simp] theorem nextDraw_ie (s : State) : (s.nextDraw).ie = s.ie := rfl
@[simp] theorem nextDraw_cfgK (s : State) : (s.nextDraw).cfgK = s.cfgK := rfl
@[simp] theorem nextDraw_cfgM (s : State) : (s.nextDraw).cfgM = s.cfgM := rfl
@[simp] theorem nextDraw_cfgW (s : State) : (s.nextDraw).cfgW = s.cfgW := rfl
@[simp] theorem nextDraw_cfgPs (s : State) : (s.nextDraw).cfgPs = s.cfgPs := rfl
@[simp] theorem nextDraw_cfgSize (s : State) : (s.nextDraw).cfgSize = s.cfgSize := rfl
@[simp] theorem nextDraw_done (s : State) : (s.nextDraw).done = s.done := rfl
@[simp] theorem nextDraw_anyErr (s : State) : (s.nextDraw).anyErr = s.anyErr := rfl
@[simp] theorem nextDraw_werr (s : State) : (s.nextDraw).werr = s.werr := rfl
@[simp] theorem nextDraw_err (s : State) : (s.nextDraw).err = s.err := rfl
@[simp] theorem nextDraw_erase (s : State) : (s.nextDraw).erase = s.erase := rfl
@[simp] theorem nextDraw_gen (s : State) : (s.nextDraw).gen = s.gen := rfl
@[simp] theorem nextDraw_bm (s : State) : (s.nextDraw).bm = s.bm := rfl
@[simp] theorem nextDraw_invm (s : State) : (s.nextDraw).invm = s.invm := rfl
@[simp] theorem nextDraw_arena (s : State) : (s.nextDraw).arena = s.arena := rfl
@[simp] theorem nextDraw_phase (s : State) : (s.nextDraw).phase = s.phase := rfl
@[simp] theorem nextDraw_inReset (s : State) : (s.nextDraw).inReset = s.inReset := rfl
@[simp] theorem nextDraw_schedule (s : State) : (s.nextDraw).schedule = s.schedule := rfl
@[simp] theorem nextDraw_response (s : State) : (s.nextDraw).response = s.response := rfl
@[simp] theorem nextDraw_draws (s : State) : (s.nextDraw).draws = s.draws + 1 := rfl

/-! ### report -/

@[simp] theorem report_params (s : State) (code : ErrCode) : (s.report code).params = s.params := rfl
@[simp] theorem report_ie (s : State) (code : ErrCode) : (s.report code).ie = s.ie := rfl
@[simp] theorem report_cfgK (s : State) (code : ErrCode) : (s.report code).cfgK = s.cfgK := rfl
@[simp] theorem report_cfgM (s : State) (code : ErrCode) : (s.report code).cfgM = s.cfgM := rfl
@[simp] theorem report_cfgW (s : State) (code : ErrCode) : (s.report code).cfgW = s.cfgW := rfl
@[simp] theorem report_cfgPs (s : State) (code : ErrCode) : (s.report code).cfgPs = s.cfgPs := rfl
@[simp] theorem report_cfgSize (s : State) (code : ErrCode) : (s.report code).cfgSize = s.cfgSize := rfl
@[simp] theorem report_done (s : State) (code : ErrCode) : (s.report code).done = true := rfl
@[simp] theorem report_anyErr (s : State) (code : ErrCode) : (s.report code).anyErr = (s.anyErr || decide (code ≠ .noError)) := rfl
@[simp] theorem report_werr (s : State) (code : ErrCode) : (s.report code).werr = s.werr := rfl
@[simp] theorem report_err (s : State) (code : ErrCode) : (s.report code).err = code := rfl
@[simp] theorem report_erase (s : State) (code : ErrCode) : (s.report code).erase = s.erase := rfl
@[simp] theorem report_gen (s : State) (code : ErrCode) : (s.report code).gen = s.gen := rfl
@[simp] theorem report_bm (s : State) (code : ErrCode) : (s.report code).bm = s.bm := rfl
@[simp] theorem report_invm (s : State) (code : ErrCode) : (s.report code).invm = s.invm := rfl
@[simp] theorem report_arena (s : State) (code : ErrCode) : (s.report code).arena = s.arena := rfl
@[simp] theorem report_phase (s : State) (code : ErrCode) : (s.report code).phase = s.phase := rfl
@[simp] theorem report_inReset (s : State) (code : ErrCode) : (s.report code).inReset = s.inReset := rfl
@[simp] theorem report_schedule (s : State) (code : ErrCode) : (s.report code).schedule = s.schedule := rfl
@[simp] theorem report_response (s : State) (code : ErrCode) : (s.report code).response = s.response := rfl
@[simp] theorem report_draws (s : State) (code : ErrCode) : (s.report code).draws = s.draws := rfl

/-! ### complete -/

@[simp] theorem complete_params (s : State) (code : ErrCode) : (s.complete code).params = s.params := rfl
@[simp] theorem complete_ie (s : State) (code : ErrCode) : (s.complete code).ie = s.ie := rfl
@[simp] theorem complete_cfgK (s : State) (code : ErrCode) : (s.complete code).cfgK = s.cfgK := rfl
@[simp] theorem complete_cfgM (s : State) (code : ErrCode) : (s.complete code).cfgM = s.cfgM := rfl
@[simp] theorem complete_cfgW (s : State) (code : ErrCode) : (s.complete code).cfgW = s.cfgW := rfl
@[simp] theorem complete_cfgPs (s : State) (code : ErrCode) : (s.complete code).cfgPs = s.cfgPs := rfl
@[simp] theorem complete_cfgSize (s : State) (code : ErrCode) : (s.complete code).cfgSize = s.cfgSize := rfl
@[simp] theorem complete_done (s : State) (code : ErrCode) : (s.complete code).done = true := rfl
@[simp] theorem complete_anyErr (s : State) (code : ErrCode) : (s.complete code).anyErr = (s.anyErr || decide (code ≠ .noError)) := rfl
@[simp] theorem complete_werr (s : State) (code : ErrCode) : (s.complete code).werr = s.werr := rfl
@[simp] theorem complete_err (s : State) (code : ErrCode) : (s.complete code).err = code := rfl
@[simp] theorem complete_erase (s : State) (code : ErrCode) : (s.complete code).erase = s.erase := rfl
@[simp] theorem complete_gen (s : State) (code : ErrCode) : (s.complete code).gen = s.gen := rfl
@[simp] theorem complete_bm (s : State) (code : ErrCode) : (s.complete code).bm = s.bm := rfl
@[simp] theorem complete_invm (s : State) (code : ErrCode) : (s.complete code).invm = s.invm := rfl
@[simp] theorem complete_arena (s : State) (code : ErrCode) : (s.complete code).arena = s.arena := rfl
@[simp] theorem complete_phase (s : State) (code : ErrCode) : (s.complete code).phase = .idle := rfl
@[simp] theorem complete_inReset (s : State) (code : ErrCode) : (s.complete code).inReset = s.inReset := rfl
@[simp] theorem complete_schedule (s : State) (code : ErrCode) : (s.complete code).schedule = s.schedule := rfl
@[simp] theorem complete_response (s : State) (code : ErrCode) : (s.complete code).response = s.response := rfl
@[simp] theorem complete_draws (s : State) (code : ErrCode) : (s.complete code).draws = s.draws := rfl

/-! ### accept -/

@[simp] theorem accept_params (s : State) (op : PendingOp) : (s.accept op).params = s.params := rfl
@[simp] theorem accept_ie (s : State) (op : PendingOp) : (s.accept op).ie = s.ie := rfl
@[simp] theorem accept_cfgK (s : State) (op : PendingOp) : (s.accept op).cfgK = s.cfgK := rfl
@[simp] theorem accept_cfgM (s : State) (op : PendingOp) : (s.accept op).cfgM = s.cfgM := rfl
@[simp] theorem accept_cfgW (s : State) (op : PendingOp) : (s.accept op).cfgW = s.cfgW := rfl
@[simp] theorem accept_cfgPs (s : State) (op : PendingOp) : (s.accept op).cfgPs = s.cfgPs := rfl
@[simp] theorem accept_cfgSize (s : State) (op : PendingOp) : (s.accept op).cfgSize = s.cfgSize := rfl
@[simp] theorem accept_done (s : State) (op : PendingOp) : (s.accept op).done = false := rfl
@[simp] theorem accept_anyErr (s : State) (op : PendingOp) : (s.accept op).anyErr = s.anyErr := rfl
@[simp] theorem accept_werr (s : State) (op : PendingOp) : (s.accept op).werr = s.werr := rfl
@[simp] theorem accept_err (s : State) (op : PendingOp) : (s.accept op).err = s.err := rfl
@[simp] theorem accept_erase (s : State) (op : PendingOp) : (s.accept op).erase = s.erase := rfl
@[simp] theorem accept_gen (s : State) (op : PendingOp) : (s.accept op).gen = s.gen := rfl
@[simp] theorem accept_bm (s : State) (op : PendingOp) : (s.accept op).bm = s.bm := rfl
@[simp] theorem accept_invm (s : State) (op : PendingOp) : (s.accept op).invm = s.invm := rfl
@[simp] theorem accept_arena (s : State) (op : PendingOp) : (s.accept op).arena = s.arena := rfl
@[simp] theorem accept_phase (s : State) (op : PendingOp) : (s.accept op).phase = .busy op := rfl
@[simp] theorem accept_inReset (s : State) (op : PendingOp) : (s.accept op).inReset = s.inReset := rfl
@[simp] theorem accept_schedule (s : State) (op : PendingOp) : (s.accept op).schedule = s.schedule := rfl
@[simp] theorem accept_response (s : State) (op : PendingOp) : (s.accept op).response = s.response := rfl
@[simp] theorem accept_draws (s : State) (op : PendingOp) : (s.accept op).draws = s.draws := rfl

/-! ### writeStatus -/

@[simp] theorem writeStatus_params (s : State) (v : Word) : (s.writeStatus v).params = s.params := rfl
@[simp] theorem writeStatus_ie (s : State) (v : Word) : (s.writeStatus v).ie = s.ie := rfl
@[simp] theorem writeStatus_cfgK (s : State) (v : Word) : (s.writeStatus v).cfgK = s.cfgK := rfl
@[simp] theorem writeStatus_cfgM (s : State) (v : Word) : (s.writeStatus v).cfgM = s.cfgM := rfl
@[simp] theorem writeStatus_cfgW (s : State) (v : Word) : (s.writeStatus v).cfgW = s.cfgW := rfl
@[simp] theorem writeStatus_cfgPs (s : State) (v : Word) : (s.writeStatus v).cfgPs = s.cfgPs := rfl
@[simp] theorem writeStatus_cfgSize (s : State) (v : Word) : (s.writeStatus v).cfgSize = s.cfgSize := rfl
@[simp] theorem writeStatus_done (s : State) (v : Word) : (s.writeStatus v).done = (s.done && !v.getLsbD 1) := rfl
@[simp] theorem writeStatus_anyErr (s : State) (v : Word) : (s.writeStatus v).anyErr = (s.anyErr && !v.getLsbD 2) := rfl
@[simp] theorem writeStatus_werr (s : State) (v : Word) : (s.writeStatus v).werr = (s.werr && !v.getLsbD 3) := rfl
@[simp] theorem writeStatus_err (s : State) (v : Word) : (s.writeStatus v).err = s.err := rfl
@[simp] theorem writeStatus_erase (s : State) (v : Word) : (s.writeStatus v).erase = s.erase := rfl
@[simp] theorem writeStatus_gen (s : State) (v : Word) : (s.writeStatus v).gen = s.gen := rfl
@[simp] theorem writeStatus_bm (s : State) (v : Word) : (s.writeStatus v).bm = s.bm := rfl
@[simp] theorem writeStatus_invm (s : State) (v : Word) : (s.writeStatus v).invm = s.invm := rfl
@[simp] theorem writeStatus_arena (s : State) (v : Word) : (s.writeStatus v).arena = s.arena := rfl
@[simp] theorem writeStatus_phase (s : State) (v : Word) : (s.writeStatus v).phase = s.phase := rfl
@[simp] theorem writeStatus_inReset (s : State) (v : Word) : (s.writeStatus v).inReset = s.inReset := rfl
@[simp] theorem writeStatus_schedule (s : State) (v : Word) : (s.writeStatus v).schedule = s.schedule := rfl
@[simp] theorem writeStatus_response (s : State) (v : Word) : (s.writeStatus v).response = s.response := rfl
@[simp] theorem writeStatus_draws (s : State) (v : Word) : (s.writeStatus v).draws = s.draws := rfl

/-! ### writeCtrl -/

@[simp] theorem writeCtrl_params (s : State) (v : Word) : (s.writeCtrl v).params = s.params := rfl
@[simp] theorem writeCtrl_ie (s : State) (v : Word) : (s.writeCtrl v).ie = v.getLsbD 0 := rfl
@[simp] theorem writeCtrl_cfgK (s : State) (v : Word) : (s.writeCtrl v).cfgK = s.cfgK := rfl
@[simp] theorem writeCtrl_cfgM (s : State) (v : Word) : (s.writeCtrl v).cfgM = s.cfgM := rfl
@[simp] theorem writeCtrl_cfgW (s : State) (v : Word) : (s.writeCtrl v).cfgW = s.cfgW := rfl
@[simp] theorem writeCtrl_cfgPs (s : State) (v : Word) : (s.writeCtrl v).cfgPs = s.cfgPs := rfl
@[simp] theorem writeCtrl_cfgSize (s : State) (v : Word) : (s.writeCtrl v).cfgSize = s.cfgSize := rfl
@[simp] theorem writeCtrl_done (s : State) (v : Word) : (s.writeCtrl v).done = s.done := rfl
@[simp] theorem writeCtrl_anyErr (s : State) (v : Word) : (s.writeCtrl v).anyErr = s.anyErr := rfl
@[simp] theorem writeCtrl_werr (s : State) (v : Word) : (s.writeCtrl v).werr = s.werr := rfl
@[simp] theorem writeCtrl_err (s : State) (v : Word) : (s.writeCtrl v).err = s.err := rfl
@[simp] theorem writeCtrl_erase (s : State) (v : Word) : (s.writeCtrl v).erase = s.erase := rfl
@[simp] theorem writeCtrl_gen (s : State) (v : Word) : (s.writeCtrl v).gen = s.gen := rfl
@[simp] theorem writeCtrl_bm (s : State) (v : Word) : (s.writeCtrl v).bm = s.bm := rfl
@[simp] theorem writeCtrl_invm (s : State) (v : Word) : (s.writeCtrl v).invm = s.invm := rfl
@[simp] theorem writeCtrl_arena (s : State) (v : Word) : (s.writeCtrl v).arena = s.arena := rfl
@[simp] theorem writeCtrl_phase (s : State) (v : Word) : (s.writeCtrl v).phase = s.phase := rfl
@[simp] theorem writeCtrl_inReset (s : State) (v : Word) : (s.writeCtrl v).inReset = s.inReset := rfl
@[simp] theorem writeCtrl_schedule (s : State) (v : Word) : (s.writeCtrl v).schedule = s.schedule := rfl
@[simp] theorem writeCtrl_response (s : State) (v : Word) : (s.writeCtrl v).response = s.response := rfl
@[simp] theorem writeCtrl_draws (s : State) (v : Word) : (s.writeCtrl v).draws = s.draws := rfl

/-! ### resetRegisters -/

@[simp] theorem resetRegisters_params (s : State) : (s.resetRegisters).params = s.params := rfl
@[simp] theorem resetRegisters_ie (s : State) : (s.resetRegisters).ie = false := rfl
@[simp] theorem resetRegisters_cfgK (s : State) : (s.resetRegisters).cfgK = 0#32 := rfl
@[simp] theorem resetRegisters_cfgM (s : State) : (s.resetRegisters).cfgM = 0#32 := rfl
@[simp] theorem resetRegisters_cfgW (s : State) : (s.resetRegisters).cfgW = 0#32 := rfl
@[simp] theorem resetRegisters_cfgPs (s : State) : (s.resetRegisters).cfgPs = 0#32 := rfl
@[simp] theorem resetRegisters_cfgSize (s : State) : (s.resetRegisters).cfgSize = 0#32 := rfl
@[simp] theorem resetRegisters_done (s : State) : (s.resetRegisters).done = false := rfl
@[simp] theorem resetRegisters_anyErr (s : State) : (s.resetRegisters).anyErr = false := rfl
@[simp] theorem resetRegisters_werr (s : State) : (s.resetRegisters).werr = false := rfl
@[simp] theorem resetRegisters_err (s : State) : (s.resetRegisters).err = .noError := rfl
@[simp] theorem resetRegisters_erase (s : State) : (s.resetRegisters).erase = List.replicate s.params.erSlots sentinel := rfl
@[simp] theorem resetRegisters_gen (s : State) : (s.resetRegisters).gen = s.gen := rfl
@[simp] theorem resetRegisters_bm (s : State) : (s.resetRegisters).bm = s.bm := rfl
@[simp] theorem resetRegisters_invm (s : State) : (s.resetRegisters).invm = s.invm := rfl
@[simp] theorem resetRegisters_arena (s : State) : (s.resetRegisters).arena = s.arena := rfl
@[simp] theorem resetRegisters_phase (s : State) : (s.resetRegisters).phase = .idle := rfl
@[simp] theorem resetRegisters_inReset (s : State) : (s.resetRegisters).inReset = s.inReset := rfl
@[simp] theorem resetRegisters_schedule (s : State) : (s.resetRegisters).schedule = s.schedule := rfl
@[simp] theorem resetRegisters_response (s : State) : (s.resetRegisters).response = s.response := rfl
@[simp] theorem resetRegisters_draws (s : State) : (s.resetRegisters).draws = s.draws := rfl

/-! ### holdReset -/

@[simp] theorem holdReset_params (s : State) : (s.holdReset).params = s.params := rfl
@[simp] theorem holdReset_ie (s : State) : (s.holdReset).ie = s.ie := rfl
@[simp] theorem holdReset_cfgK (s : State) : (s.holdReset).cfgK = s.cfgK := rfl
@[simp] theorem holdReset_cfgM (s : State) : (s.holdReset).cfgM = s.cfgM := rfl
@[simp] theorem holdReset_cfgW (s : State) : (s.holdReset).cfgW = s.cfgW := rfl
@[simp] theorem holdReset_cfgPs (s : State) : (s.holdReset).cfgPs = s.cfgPs := rfl
@[simp] theorem holdReset_cfgSize (s : State) : (s.holdReset).cfgSize = s.cfgSize := rfl
@[simp] theorem holdReset_done (s : State) : (s.holdReset).done = s.done := rfl
@[simp] theorem holdReset_anyErr (s : State) : (s.holdReset).anyErr = s.anyErr := rfl
@[simp] theorem holdReset_werr (s : State) : (s.holdReset).werr = s.werr := rfl
@[simp] theorem holdReset_err (s : State) : (s.holdReset).err = s.err := rfl
@[simp] theorem holdReset_erase (s : State) : (s.holdReset).erase = s.erase := rfl
@[simp] theorem holdReset_gen (s : State) : (s.holdReset).gen = s.gen := rfl
@[simp] theorem holdReset_bm (s : State) : (s.holdReset).bm = s.bm := rfl
@[simp] theorem holdReset_invm (s : State) : (s.holdReset).invm = s.invm := rfl
@[simp] theorem holdReset_arena (s : State) : (s.holdReset).arena = s.arena := rfl
@[simp] theorem holdReset_phase (s : State) : (s.holdReset).phase = s.phase := rfl
@[simp] theorem holdReset_inReset (s : State) : (s.holdReset).inReset = true := rfl
@[simp] theorem holdReset_schedule (s : State) : (s.holdReset).schedule = s.schedule := rfl
@[simp] theorem holdReset_response (s : State) : (s.holdReset).response = s.response := rfl
@[simp] theorem holdReset_draws (s : State) : (s.holdReset).draws = s.draws := rfl

/-! ### releaseReset -/

@[simp] theorem releaseReset_params (s : State) : (s.releaseReset).params = s.params := rfl
@[simp] theorem releaseReset_ie (s : State) : (s.releaseReset).ie = s.ie := rfl
@[simp] theorem releaseReset_cfgK (s : State) : (s.releaseReset).cfgK = s.cfgK := rfl
@[simp] theorem releaseReset_cfgM (s : State) : (s.releaseReset).cfgM = s.cfgM := rfl
@[simp] theorem releaseReset_cfgW (s : State) : (s.releaseReset).cfgW = s.cfgW := rfl
@[simp] theorem releaseReset_cfgPs (s : State) : (s.releaseReset).cfgPs = s.cfgPs := rfl
@[simp] theorem releaseReset_cfgSize (s : State) : (s.releaseReset).cfgSize = s.cfgSize := rfl
@[simp] theorem releaseReset_done (s : State) : (s.releaseReset).done = s.done := rfl
@[simp] theorem releaseReset_anyErr (s : State) : (s.releaseReset).anyErr = s.anyErr := rfl
@[simp] theorem releaseReset_werr (s : State) : (s.releaseReset).werr = s.werr := rfl
@[simp] theorem releaseReset_err (s : State) : (s.releaseReset).err = s.err := rfl
@[simp] theorem releaseReset_erase (s : State) : (s.releaseReset).erase = s.erase := rfl
@[simp] theorem releaseReset_gen (s : State) : (s.releaseReset).gen = s.gen := rfl
@[simp] theorem releaseReset_bm (s : State) : (s.releaseReset).bm = s.bm := rfl
@[simp] theorem releaseReset_invm (s : State) : (s.releaseReset).invm = s.invm := rfl
@[simp] theorem releaseReset_arena (s : State) : (s.releaseReset).arena = s.arena := rfl
@[simp] theorem releaseReset_phase (s : State) : (s.releaseReset).phase = s.phase := rfl
@[simp] theorem releaseReset_inReset (s : State) : (s.releaseReset).inReset = false := rfl
@[simp] theorem releaseReset_schedule (s : State) : (s.releaseReset).schedule = s.schedule := rfl
@[simp] theorem releaseReset_response (s : State) : (s.releaseReset).response = s.response := rfl
@[simp] theorem releaseReset_draws (s : State) : (s.releaseReset).draws = s.draws := rfl

end Sys2Proof.Machine.State
end

