-- ==== Sys2Proof/Laws/Bus.lean ====
section
/-! SUPPORT. The host port: what resolving an address gives, and that every access while reset is released is answered. -/

namespace Sys2Proof.Machine

/-- The bus address of a location, the other direction of `locate` (R62). -/
def Location.address : Location → Nat
  | .id => 0x00
  | .param0 => 0x04
  | .param1 => 0x08
  | .ctrl => 0x10
  | .status => 0x14
  | .cmd => 0x18
  | .cfgK => 0x20
  | .cfgM => 0x24
  | .cfgW => 0x28
  | .cfgPs => 0x2C
  | .cfgSize => 0x30
  | .erase i => eraseBase + 4 * i
  | .gen o => genBase + o
  | .bm o => bmBase + o
  | .invm o => invmBase + o
  | .arena o => arenaBase + o

/-- A resolved access is a whole, aligned word in a region of the map (R61, R62). -/
theorem resolve_ok {p : Params} {a : Access} {l : Location} (h : resolve p a = .ok l) :
    a.bytes = 4 ∧ a.addr.toNat % 4 = 0 ∧ locate p a.addr.toNat = some l := by
  unfold resolve at h
  by_cases h1 : a.bytes ≠ 4
  · rw [if_pos h1] at h; cases h
  rw [if_neg h1] at h
  by_cases h2 : a.addr.toNat % 4 ≠ 0
  · rw [if_pos h2] at h; cases h
  rw [if_neg h2] at h
  cases h3 : locate p a.addr.toNat with
  | none => rw [h3] at h; cases h
  | some l' => rw [h3] at h; cases h; exact ⟨by simpa using h1, by simpa using h2, rfl⟩

theorem ite_some_cases {c : Prop} [Decidable c] {x l : Location} {y : Option Location}
    (h : (if c then some x else y) = some l) : (c ∧ l = x) ∨ (¬c ∧ y = some l) := by
  by_cases hc : c
  · rw [if_pos hc] at h; cases h; exact .inl ⟨hc, rfl⟩
  · rw [if_neg hc] at h; exact .inr ⟨hc, h⟩

/-- No two addresses of the map share a location. -/
theorem locate_address {p : Params} {a : Nat} {l : Location} (h4 : a % 4 = 0) (h : locate p a = some l) :
    l.address = a := by
  unfold locate at h
  iterate 16
    rcases ite_some_cases h with ⟨h1, rfl⟩ | ⟨h1, h⟩
    · simp only [Location.address, eraseBase, genBase, bmBase, invmBase, arenaBase] at h1 ⊢; omega
  cases h

/-- A location's slot or offset lies inside its region: the erasure slots, GEN, BM, INVM, ARENA (R62). -/
def Location.inRegion (p : Params) : Location → Prop
  | .erase i => i < p.erSlots
  | .gen o => o < 4 * p.genEntries
  | .bm o => o < 4 * (p.mwMax * p.rwWords)
  | .invm o => o < 4 * (p.kwMax * p.rwWords)
  | .arena o => o < p.arenaBytes
  | _ => True

theorem locate_inRegion {p : Params} {a : Nat} {l : Location} (h : locate p a = some l) : l.inRegion p := by
  unfold locate at h
  iterate 16
    rcases ite_some_cases h with ⟨h1, rfl⟩ | ⟨h1, h⟩
    · simp only [Location.inRegion]
      try (simp only [eraseBase, genBase, bmBase, invmBase, arenaBase] at h1 ⊢; omega)
  cases h

/-- A write of a register or memory word keeps the instance, the sequencer and the model's own fields. -/
theorem writeLocation_keeps (s : State) (v : Word) (l : Location) :
    (s.writeLocation v l).phase = s.phase ∧ (s.writeLocation v l).inReset = s.inReset ∧
      (s.writeLocation v l).params = s.params ∧ (s.writeLocation v l).schedule = s.schedule ∧
      (s.writeLocation v l).response = s.response ∧ (s.writeLocation v l).draws = s.draws := by
  cases l <;> exact ⟨rfl, rfl, rfl, rfl, rfl, rfl⟩

end Sys2Proof.Machine
end

