-- ==== Sys2Proof/Laws/Devices.lean ====
section
/-! SUPPORT. The laws of the XOR-reduction trees and of writing device buffers (20_memory.md R65, 41_encoder.md R132, R134). -/

namespace Sys2Proof.Machine

/-! ### XOR sums -/

@[simp] theorem xorSum_zero (f : Nat → Bool) : xorSum 0 f = false := rfl

theorem xorSum_succ (n : Nat) (f : Nat → Bool) : xorSum (n + 1) f = (xorSum n f ^^ f n) := by
  simp [xorSum, List.range_succ]

theorem xorSum_congr {n : Nat} {f g : Nat → Bool} (h : ∀ t < n, f t = g t) : xorSum n f = xorSum n g := by
  induction n with
  | zero => rfl
  | succ n ih => rw [xorSum_succ, xorSum_succ, ih fun t ht => h t (by omega), h n (by omega)]

/-! ### XOR-reduction trees -/

@[simp] theorem length_xorBytes (x y : List Byte) : (xorBytes x y).length = min x.length y.length := by
  simp [xorBytes]

@[simp] theorem length_zeroBytes (n : Nat) : (zeroBytes n).length = n := by simp [zeroBytes]

theorem getD_xorBytes {x y : List Byte} {o : Nat} (hx : o < x.length) (hy : o < y.length) :
    (xorBytes x y).getD o 0#8 = x.getD o 0#8 ^^^ y.getD o 0#8 := by
  simp [xorBytes, List.getD_eq_getElem?_getD, hx, hy]

/-- One level of a tree: XORing in the selected ones of the first w planes. -/
theorem xorTree_inner (ps w : Nat) (sel : Nat → Bool) (pl : Nat → List Byte) (hpl : ∀ c < w, (pl c).length = ps)
    (acc : List Byte) (hacc : acc.length = ps) :
    let r := (List.range w).foldl (fun acc c => if sel c then xorBytes acc (pl c) else acc) acc
    r.length = ps ∧ ∀ o < ps, ∀ x, (r.getD o 0#8).getLsbD x =
      ((acc.getD o 0#8).getLsbD x ^^ xorSum w (fun c => sel c && ((pl c).getD o 0#8).getLsbD x)) := by
  induction w with
  | zero => simp [hacc]
  | succ n ih =>
    obtain ⟨hl, hb⟩ := ih fun c hc => hpl c (by omega)
    simp only [List.range_succ, List.foldl_append, List.foldl_cons, List.foldl_nil]
    have hn := hpl n (by omega)
    cases hs : sel n with
    | false =>
      refine ⟨by simpa using hl, fun o ho x => ?_⟩
      simp only [xorSum_succ, hs, Bool.false_and, Bool.xor_false]
      simpa using hb o ho x
    | true =>
      refine ⟨by simp [hl, hn], fun o ho x => ?_⟩
      simp only [if_true, xorSum_succ, hs, Bool.true_and]
      rw [getD_xorBytes (by omega) (by omega), BitVec.getLsbD_xor, hb o ho x, Bool.xor_assoc]

/-- What a tree computes (R132, R134): lane by lane the XOR of the selected planes. -/
theorem xorTree_spec (ps k w : Nat) (sel : Nat → Nat → Bool) (pl : Nat → Nat → List Byte)
    (hpl : ∀ j < k, ∀ c < w, (pl j c).length = ps) :
    (xorTree ps k w sel pl).length = ps ∧ ∀ o < ps, ∀ x, ((xorTree ps k w sel pl).getD o 0#8).getLsbD x =
      xorSum k (fun j => xorSum w (fun c => sel j c && ((pl j c).getD o 0#8).getLsbD x)) := by
  unfold xorTree
  induction k with
  | zero =>
    refine ⟨by simp, fun o ho x => ?_⟩
    simp [zeroBytes, List.getD_eq_getElem?_getD, ho]
  | succ n ih =>
    obtain ⟨hl, hb⟩ := ih fun j hj => hpl j (by omega)
    simp only [List.range_succ (n := n), List.foldl_append, List.foldl_cons, List.foldl_nil]
    obtain ⟨hl', hb'⟩ := xorTree_inner ps w (sel n) (pl n) (hpl n (by omega)) _ hl
    refine ⟨hl', fun o ho x => ?_⟩
    rw [xorSum_succ, hb' o ho x, hb o ho x]

theorem getD_memRead (m : Memory) (a n o : Nat) (h : o < n) : (memRead m a n).getD o 0#8 = m.read (a + o) := by
  simp [memRead, List.getD_eq_getElem?_getD, h]

/-! ### Writing device buffers -/

namespace State

theorem planeAt_inDevice {s : State} (hsize : s.opSize = s.opW * s.opPs) (d : Nat) {b o : Nat} (hb : b < s.opW)
    (ho : o < s.opPs) : s.inDevice d (s.planeAt d b + o) := by
  have h : (b + 1) * s.opPs ≤ s.opW * s.opPs := Nat.mul_le_mul_right _ hb
  rw [Nat.succ_mul] at h
  unfold inDevice planeAt
  omega

/-- Every byte of a device lies in one of its planes (R65). -/
theorem inDevice_planeAt {s : State} (hsize : s.opSize = s.opW * s.opPs) {d x : Nat} (h : s.inDevice d x) :
    ∃ b < s.opW, ∃ o < s.opPs, x = s.planeAt d b + o := by
  obtain ⟨h1, h2⟩ := h
  have hps : 0 < s.opPs := by
    rcases Nat.eq_zero_or_pos s.opPs with h | h
    · rw [h, Nat.mul_zero] at hsize; omega
    · exact h
  refine ⟨(x - d * s.opSize) / s.opPs, ?_, (x - d * s.opSize) % s.opPs, Nat.mod_lt _ hps, ?_⟩
  · rw [Nat.div_lt_iff_lt_mul hps, ← hsize]; omega
  · have := Nat.div_add_mod (x - d * s.opSize) s.opPs
    rw [Nat.mul_comm] at this
    unfold planeAt; omega

/-- Buffers of different devices are disjoint (R65). -/
theorem inDevice_unique {s : State} {d d' x : Nat} (h : s.inDevice d x) (h' : s.inDevice d' x) : d = d' := by
  obtain ⟨h1, h2⟩ := h
  obtain ⟨h1', h2'⟩ := h'
  rcases Nat.lt_trichotomy d d' with hlt | heq | hgt
  · have : (d + 1) * s.opSize ≤ d' * s.opSize := Nat.mul_le_mul_right _ hlt
    rw [Nat.succ_mul] at this; omega
  · exact heq
  · have : (d' + 1) * s.opSize ≤ d * s.opSize := Nat.mul_le_mul_right _ hgt
    rw [Nat.succ_mul] at this; omega

theorem wf_writeDevice {s : State} {m : Memory} (hm : m.wf = true) (d : Nat) (pl : Nat → List Byte) :
    (s.writeDevice m d pl).wf = true := by
  unfold writeDevice
  induction s.opW with
  | zero => simpa using hm
  | succ n ih => simpa [List.range_succ] using wf_memWrite ih _ _

theorem wf_writeDevices {s : State} {m : Memory} (hm : m.wf = true) (ds : List Nat) (pl : Nat → Nat → List Byte) :
    (s.writeDevices ds pl m).wf = true := by
  unfold writeDevices
  induction ds generalizing m with
  | nil => exact hm
  | cons d ds ih => exact ih (wf_writeDevice hm d (pl d))

/-- The first n planes of device d written: the planes' bytes there, the old bytes elsewhere. -/
theorem read_writePlanes {s : State} {m : Memory} (hm : m.wf = true) (d n : Nat) (pl : Nat → List Byte)
    (hpl : ∀ b < n, (pl b).length = s.opPs) :
    let r := (List.range n).foldl (fun m b => memWrite m (s.planeAt d b) (pl b)) m
    r.wf = true ∧ (∀ b < n, ∀ o < s.opPs, r.read (s.planeAt d b + o) = (pl b).getD o 0#8) ∧
      ∀ x, (x < d * s.opSize ∨ d * s.opSize + n * s.opPs ≤ x) → r.read x = m.read x := by
  induction n with
  | zero => exact ⟨hm, by simp, by simp⟩
  | succ n ih =>
    obtain ⟨hw, hin, hout⟩ := ih fun b hb => hpl b (by omega)
    have hn := hpl n (by omega)
    simp only [List.range_succ, List.foldl_append, List.foldl_cons, List.foldl_nil]
    refine ⟨wf_memWrite hw _ _, fun b hb o ho => ?_, fun x hx => ?_⟩
    · rw [read_memWrite hw]
      by_cases hbn : b = n
      · subst hbn
        rw [dif_pos (by omega)]
        simp [List.getD_eq_getElem?_getD, hn, ho]
      · have h : (b + 1) * s.opPs ≤ n * s.opPs := Nat.mul_le_mul_right _ (by omega)
        rw [Nat.succ_mul] at h
        rw [dif_neg (by unfold planeAt; omega)]
        exact hin b (by omega) o ho
    · rw [Nat.succ_mul] at hx
      rw [read_memWrite hw, dif_neg (by unfold planeAt; omega)]
      exact hout x (by omega)

/-- One device written (R65): its planes' bytes inside its buffer, the old bytes outside. -/
theorem read_writeDevice {s : State} (hsize : s.opSize = s.opW * s.opPs) {m : Memory} (hm : m.wf = true) (d : Nat)
    (pl : Nat → List Byte) (hpl : ∀ b < s.opW, (pl b).length = s.opPs) :
    (∀ b < s.opW, ∀ o < s.opPs, (s.writeDevice m d pl).read (s.planeAt d b + o) = (pl b).getD o 0#8) ∧
      ∀ x, ¬ s.inDevice d x → (s.writeDevice m d pl).read x = m.read x := by
  obtain ⟨-, hin, hout⟩ := read_writePlanes hm d s.opW pl hpl
  refine ⟨hin, fun x hx => hout x ?_⟩
  unfold inDevice at hx
  omega

/-- Several devices written: each device's planes inside its buffer, the old bytes in every other place. -/
theorem read_writeDevices {s : State} (hsize : s.opSize = s.opW * s.opPs) {m : Memory} (hm : m.wf = true) (ds : List Nat)
    (pl : Nat → Nat → List Byte) (hpl : ∀ d ∈ ds, ∀ b < s.opW, (pl d b).length = s.opPs) :
    (∀ d ∈ ds, ∀ b < s.opW, ∀ o < s.opPs,
        (s.writeDevices ds pl m).read (s.planeAt d b + o) = (pl d b).getD o 0#8) ∧
      ∀ x, (∀ d ∈ ds, ¬ s.inDevice d x) → (s.writeDevices ds pl m).read x = m.read x := by
  induction ds generalizing m with
  | nil => exact ⟨by simp, fun x _ => rfl⟩
  | cons e ds ih =>
    obtain ⟨he, hne⟩ := read_writeDevice hsize hm e (pl e) (hpl e (by simp))
    obtain ⟨hin, hout⟩ := ih (wf_writeDevice hm e (pl e)) fun d hd => hpl d (by simp [hd])
    refine ⟨fun d hd b hb o ho => ?_, fun x hx => ?_⟩
    · by_cases hmem : d ∈ ds
      · exact hin d hmem b hb o ho
      · obtain rfl : d = e := by simpa [hmem] using hd
        have hnot : ∀ d' ∈ ds, ¬ s.inDevice d' (s.planeAt d b + o) := fun d' hd' h =>
          hmem (inDevice_unique h (planeAt_inDevice hsize d hb ho) ▸ hd')
        exact (hout _ hnot).trans (he b hb o ho)
    · exact (hout x fun d hd => hx d (by simp [hd])).trans (hne x (hx e (by simp)))

theorem within_writeDevices {s : State} {m : Memory} {size : Nat} (hm : m.within size = true) (ds : List Nat)
    (pl : Nat → Nat → List Byte) (h : ∀ d ∈ ds, ∀ b < s.opW, s.planeAt d b + (pl d b).length ≤ size) :
    (s.writeDevices ds pl m).within size = true := by
  unfold writeDevices
  induction ds generalizing m with
  | nil => exact hm
  | cons d ds ih =>
    refine ih ?_ fun e he => h e (by simp [he])
    have hd := h d (by simp)
    unfold writeDevice
    revert hd
    induction s.opW with
    | zero => intro _; simpa using hm
    | succ n ihn =>
      intro hd
      simp only [List.range_succ, List.foldl_append, List.foldl_cons, List.foldl_nil]
      exact within_memWrite (ihn fun b hb => hd b (by omega)) (hd n (by omega))

end State

end Sys2Proof.Machine
end

