-- ==== Sys2Proof/Laws/Commands.lean ====
section
/-! SUPPORT. What each command can do, said once: the cases of its evaluation, and what its checks give. -/

namespace Sys2Proof.Machine

@[simp] theorem finish_ok (s t : State) : finish s (.ok t) = t.complete .noError := rfl
@[simp] theorem finish_error (s : State) (c : ErrCode) : finish s (.error c) = s.complete c := rfl

namespace State

/-! ### What the checks give -/

theorem cfgOk_bounds {s : State} (h : s.cfgOk = true) :
    1 ≤ s.opK ∧ s.opK ≤ s.params.kMax ∧ 1 ≤ s.opM ∧ s.opM ≤ s.params.mMax ∧ 1 ≤ s.opW ∧ s.opW ≤ s.params.wMax := by
  simp only [cfgOk, Bool.and_eq_true, decide_eq_true_eq] at h
  omega

/-- A legal configuration's columns fit a stored row. -/
theorem cols_le {s : State} (h : s.cfgOk = true) : s.opN ≤ 32 * s.params.rwWords := by
  obtain ⟨-, hk, -, -, -, hw⟩ := cfgOk_bounds h
  have : s.opN ≤ s.params.kwMax := Nat.mul_le_mul hk hw
  unfold Params.rwWords
  omega

theorem bmRows_le {s : State} (h : s.cfgOk = true) : s.opM * s.opW ≤ s.params.mwMax := by
  obtain ⟨-, -, -, hm, -, hw⟩ := cfgOk_bounds h
  exact Nat.mul_le_mul hm hw

theorem invmRows_le {s : State} (h : s.cfgOk = true) : s.opN ≤ s.params.kwMax := by
  obtain ⟨-, hk, -, -, -, hw⟩ := cfgOk_bounds h
  exact Nat.mul_le_mul hk hw

theorem shapeOk_facts {s : State} (h : s.shapeOk = true) :
    1 ≤ s.opPs ∧ s.opSize = s.opW * s.opPs ∧ (s.opK + s.opM) * s.opSize ≤ s.params.arenaBytes := by
  simp only [shapeOk, Bool.and_eq_true, decide_eq_true_eq, beq_iff_eq] at h
  omega

/-! ### Planes -/

@[simp] theorem length_planeOf (s : State) (m : Memory) (d b : Nat) : (s.planeOf m d b).length = s.opPs := by
  simp [planeOf]

theorem length_codingPlane (s : State) (src : Memory) (i b : Nat) : (s.codingPlane src i b).length = s.opPs :=
  (xorTree_spec _ _ _ _ _ (by simp)).1

theorem length_recoveredPlane (s : State) (l : List Nat) (inv : Nat → Nat → Bool) (src : Memory) (j b : Nat) :
    (s.recoveredPlane l inv src j b).length = s.opPs :=
  (xorTree_spec _ _ _ _ _ (by simp)).1

/-- A lane of a coding plane (R132, R134). -/
theorem codingPlane_lane (s : State) (src : Memory) (i b : Nat) {o : Nat} (ho : o < s.opPs) (x : Nat) :
    ((s.codingPlane src i b).getD o 0#8).getLsbD x =
      xorSum s.opK (fun j => xorSum s.opW (fun c =>
        s.bmBit (i * s.opW + b) (j * s.opW + c) && (src.read (s.planeAt j c + o)).getLsbD x)) := by
  rw [codingPlane, (xorTree_spec _ _ _ _ _ (by simp)).2 o ho x]
  exact xorSum_congr fun j _ => xorSum_congr fun c _ => by rw [planeOf, getD_memRead _ _ _ _ ho]

/-- A lane of a recovered plane (R178). -/
theorem recoveredPlane_lane (s : State) (l : List Nat) (inv : Nat → Nat → Bool) (src : Memory) (j b : Nat) {o : Nat}
    (ho : o < s.opPs) (x : Nat) :
    ((s.recoveredPlane l inv src j b).getD o 0#8).getLsbD x =
      xorSum s.opK (fun t => xorSum s.opW (fun c =>
        inv (j * s.opW + b) (t * s.opW + c) && (src.read (s.planeAt (s.survivor l t) c + o)).getLsbD x)) := by
  rw [recoveredPlane, (xorTree_spec _ _ _ _ _ (by simp)).2 o ho x]
  exact xorSum_congr fun t _ => xorSum_congr fun c _ => by rw [planeOf, getD_memRead _ _ _ _ ho]

theorem wf_encodeInto {s : State} {dst : Memory} (h : dst.wf = true) (ds : List Nat) (src : Memory) :
    (s.encodeInto ds src dst).wf = true :=
  wf_writeDevices h _ _

theorem wf_recoverArena {s : State} (h : s.arena.wf = true) (l : List Nat) (inv : Nat → Nat → Bool) :
    (s.recoverArena l inv).wf = true :=
  wf_writeDevices h _ _

/-- Coding devices encoded into a memory: their lanes there, the old bytes elsewhere (R132, R133, R179). -/
theorem read_encodeInto {s : State} (hsize : s.opSize = s.opW * s.opPs) {dst : Memory} (h : dst.wf = true)
    (ds : List Nat) (src : Memory) :
    (∀ d ∈ ds, ∀ b < s.opW, ∀ o < s.opPs,
        (s.encodeInto ds src dst).read (s.planeAt d b + o) = (s.codingPlane src (d - s.opK) b).getD o 0#8) ∧
      ∀ x, (∀ d ∈ ds, ¬ s.inDevice d x) → (s.encodeInto ds src dst).read x = dst.read x :=
  read_writeDevices hsize h ds _ fun _ _ _ _ => length_codingPlane _ _ _ _

/-- Erased data devices recovered: their lanes there, the old bytes elsewhere (R178). -/
theorem read_recoverArena {s : State} (hsize : s.opSize = s.opW * s.opPs) (h : s.arena.wf = true)
    (l : List Nat) (inv : Nat → Nat → Bool) :
    (∀ d ∈ s.erasedData l, ∀ b < s.opW, ∀ o < s.opPs,
        (s.recoverArena l inv).read (s.planeAt d b + o) = (s.recoveredPlane l inv s.arena d b).getD o 0#8) ∧
      ∀ x, (∀ d ∈ s.erasedData l, ¬ s.inDevice d x) → (s.recoverArena l inv).read x = s.arena.read x :=
  read_writeDevices hsize h _ _ fun _ _ _ _ => length_recoveredPlane _ _ _ _ _ _

@[simp] theorem mem_erasedData {s : State} {l : List Nat} {d : Nat} : d ∈ s.erasedData l ↔ d ∈ l ∧ d < s.opK := by
  simp [erasedData]

@[simp] theorem mem_erasedCoding {s : State} {l : List Nat} {d : Nat} : d ∈ s.erasedCoding l ↔ d ∈ l ∧ s.opK ≤ d := by
  simp [erasedCoding]

@[simp] theorem mem_codingDevices {s : State} {d : Nat} : d ∈ s.codingDevices ↔ s.opK ≤ d ∧ d < s.opK + s.opM := by
  simp only [codingDevices, List.mem_map, List.mem_range]
  constructor
  · rintro ⟨i, hi, rfl⟩; omega
  · rintro ⟨h1, h2⟩; exact ⟨d - s.opK, by omega, by omega⟩

end State

/-! ### The erasure scan raises only ERASURE -/

theorem eraseScanFrom_error {s : State} {n : Nat} {met : List Nat} {c : ErrCode}
    (h : s.eraseScanFrom n met = .error c) : c = .erasure := by
  induction n generalizing met with
  | zero => unfold State.eraseScanFrom at h; split at h <;> cases h; rfl
  | succ n ih =>
    unfold State.eraseScanFrom at h
    simp only at h
    split at h
    · cases h
    · split at h
      · cases h; rfl
      · split at h
        · cases h; rfl
        · exact ih h

theorem eraseScan_error {s : State} {c : ErrCode} (h : s.eraseScan = .error c) : c = .erasure :=
  eraseScanFrom_error h

/-- The scan reads CFG_K, CFG_M and ERASE only (R172). -/
theorem eraseScan_congr {s t : State} (he : t.erase = s.erase) (hk : t.cfgK = s.cfgK) (hm : t.cfgM = s.cfgM) :
    t.eraseScan = s.eraseScan := by
  have hs : ∀ i, t.eraseSlot i = s.eraseSlot i := fun i => by simp [State.eraseSlot, he]
  have hK : t.opK = s.opK := by simp [State.opK, hk]
  have hM : t.opM = s.opM := by simp [State.opM, hm]
  have key : ∀ n met, t.eraseScanFrom n met = s.eraseScanFrom n met := by
    intro n
    induction n with
    | zero => intro met; simp only [State.eraseScanFrom, hs, hM]
    | succ n ih => intro met; simp only [State.eraseScanFrom, hs, hK, hM, ih]
  simp only [State.eraseScan, hM, key]

/-! ### The cases of each command's evaluation -/

/-- EXPAND (R111, R112). -/
theorem expandEffect_cases (s : State) :
    (s.cfgOk = true ∧ s.entriesOk = true ∧
      expandEffect s = .ok (s.withBm (writeBlock s.bm s.params.rwWords (s.opM * s.opW) s.opN s.expandBit))) ∨
    ((s.cfgOk = false ∨ s.entriesOk = false) ∧ expandEffect s = .error .config) := by
  unfold expandEffect
  cases s.cfgOk <;> cases s.entriesOk <;> simp

/-- ENCODE (R131, R132). -/
theorem encodeEffect_cases (s : State) :
    (s.cfgOk = true ∧ s.shapeOk = true ∧ encodeEffect s = .ok (s.withArena s.encodeArena)) ∨
    (s.cfgOk = false ∧ encodeEffect s = .error .config) ∨
    (s.cfgOk = true ∧ s.shapeOk = false ∧ encodeEffect s = .error .shape) := by
  unfold encodeEffect
  cases s.cfgOk <;> cases s.shapeOk <;> simp

/-- INVERT (R151, R154). -/
theorem invertEffect_cases (s : State) :
    (s.cfgOk = true ∧ ∃ rows, gf2Inv s.opN s.invmBit = some rows ∧ invertEffect s = .ok (s.storeInverse rows)) ∨
    (s.cfgOk = false ∧ invertEffect s = .error .config) ∨
    (s.cfgOk = true ∧ gf2Inv s.opN s.invmBit = none ∧ invertEffect s = .error .singular) := by
  unfold invertEffect
  cases s.cfgOk with
  | false => simp
  | true =>
    cases h : gf2Inv s.opN s.invmBit with
    | none => simp
    | some rows => simp

/-- DECODE after the scan (R176 to R179). -/
theorem decodeWith_cases (s : State) (l : List Nat) :
    (s.erasedData l = [] ∧ decodeWith s l = .ok (s.withArena (s.reencodeArena l s.arena))) ∨
    (s.erasedData l ≠ [] ∧ ∃ rows, gf2Inv s.opN (s.decodingBit l) = some rows ∧
      decodeWith s l =
        .ok ((s.storeInverse rows).withArena (s.reencodeArena l (s.recoverArena l (rowsBit rows))))) ∨
    (s.erasedData l ≠ [] ∧ gf2Inv s.opN (s.decodingBit l) = none ∧ decodeWith s l = .error .singular) := by
  unfold decodeWith
  by_cases he : s.erasedData l = []
  · simp [he]
  · cases h : gf2Inv s.opN (s.decodingBit l) with
    | none => simp [he]
    | some rows => simp [he]

/-- DECODE (R171, R182). -/
theorem decodeEffect_cases (s : State) :
    (s.cfgOk = true ∧ s.shapeOk = true ∧ ∃ l, s.eraseScan = .ok l ∧ decodeEffect s = decodeWith s l) ∨
    (s.cfgOk = false ∧ decodeEffect s = .error .config) ∨
    (s.cfgOk = true ∧ s.shapeOk = false ∧ decodeEffect s = .error .shape) ∨
    (s.cfgOk = true ∧ s.shapeOk = true ∧ ∃ c, s.eraseScan = .error c ∧ decodeEffect s = .error c) := by
  unfold decodeEffect
  cases s.cfgOk <;> cases s.shapeOk <;> cases h : s.eraseScan <;> simp

end Sys2Proof.Machine
end

