-- ==== Sys2Proof/Laws/Field.lean ====
section
/-! SUPPORT. The small laws of multiplication by x in GF(2^w) (00_scope.md R11). -/

namespace Sys2Proof.Machine

/-- Multiplication by x is linear (R11). -/
theorem xtime_xor (w : Nat) (low a b : Word) : xtime w low (a ^^^ b) = xtime w low a ^^^ xtime w low b := by
  apply BitVec.eq_of_getLsbD_eq
  intro i hi
  have hc : ∀ v : Word, (xtime w low v).getLsbD i =
      (((v <<< 1).getLsbD i && (fieldMask w).getLsbD i) ^^ (v.getLsbD (w - 1) && low.getLsbD i)) := by
    intro v
    unfold xtime
    rw [BitVec.getLsbD_xor, BitVec.getLsbD_and]
    cases v.getLsbD (w - 1) <;> simp
  have hs : ((a ^^^ b) <<< 1).getLsbD i = ((a <<< 1).getLsbD i ^^ (b <<< 1).getLsbD i) := by
    simp only [BitVec.getLsbD_shiftLeft, BitVec.getLsbD_xor]
    cases decide (i < 32) <;> cases decide (i < 1) <;> simp
  rw [BitVec.getLsbD_xor, hc, hc, hc, hs, BitVec.getLsbD_xor]
  cases (a <<< 1).getLsbD i <;> cases (b <<< 1).getLsbD i <;> cases (fieldMask w).getLsbD i <;>
    cases a.getLsbD (w - 1) <;> cases b.getLsbD (w - 1) <;> cases low.getLsbD i <;> rfl

theorem xtimePow_succ (w : Nat) (low : Word) (n : Nat) (a : Word) :
    xtimePow w low (n + 1) a = xtime w low (xtimePow w low n a) := rfl

theorem xtimePow_xor (w : Nat) (low : Word) (n : Nat) (a b : Word) :
    xtimePow w low n (a ^^^ b) = xtimePow w low n a ^^^ xtimePow w low n b := by
  induction n with
  | zero => rfl
  | succ n ih => simp only [xtimePow_succ, ih, xtime_xor]

theorem xtimePow_add (w : Nat) (low : Word) (m n : Nat) (a : Word) :
    xtimePow w low (m + n) a = xtimePow w low m (xtimePow w low n a) := by
  induction m with
  | zero => simp [xtimePow]
  | succ m ih => rw [Nat.succ_add, xtimePow_succ, ih, xtimePow_succ]

/-- The mask of w ≤ 32 bits, bit by bit (R9). -/
theorem getLsbD_fieldMask {w : Nat} (hw : w ≤ 32) (i : Nat) : (fieldMask w).getLsbD i = decide (i < w) := by
  unfold fieldMask
  rw [BitVec.getLsbD_ofNat, Nat.testBit_two_pow_sub_one]
  by_cases h : i < w
  · simp [h, show i < 32 by omega]
  · simp [h]

/-- Multiplication by x stays in the field (R11). -/
theorem xtime_lt {w : Nat} (hw : w ≤ 32) {low : Word} (hlow : low.toNat < 2 ^ w) (a : Word) :
    (xtime w low a).toNat < 2 ^ w := by
  have hm : (fieldMask w).toNat < 2 ^ w := by
    unfold fieldMask
    have : 2 ^ w ≤ 2 ^ 32 := Nat.pow_le_pow_right (by omega) hw
    have : 0 < 2 ^ w := Nat.two_pow_pos w
    rw [BitVec.toNat_ofNat, Nat.mod_eq_of_lt (by omega)]
    omega
  unfold xtime
  rw [BitVec.toNat_xor]
  apply Nat.xor_lt_two_pow
  · rw [BitVec.toNat_and]
    exact Nat.lt_of_le_of_lt Nat.and_le_right hm
  · split
    · exact hlow
    · simp

theorem xtimePow_lt {w : Nat} (hw : w ≤ 32) {low : Word} (hlow : low.toNat < 2 ^ w) {a : Word} (ha : a.toNat < 2 ^ w)
    (n : Nat) : (xtimePow w low n a).toNat < 2 ^ w := by
  cases n with
  | zero => exact ha
  | succ n => exact xtime_lt hw hlow _

end Sys2Proof.Machine
end

