-- ==== Sys2Proof/Laws/Gf2.lean ====
section
/-! SUPPORT. The small laws of bit-matrices and of the elimination's steps (42_inverter.md R152, R153). -/

namespace Sys2Proof.Machine

/-! ### Packed rows -/

/-- Bit c of a packed row is the function at c, inside the row. -/
theorem getLsbD_packRow (n : Nat) (f : Nat → Bool) (c : Nat) :
    (packRow n f).getLsbD c = (decide (c < n) && f c) := by
  have key : ∀ k ≤ n, ((List.range k).foldl (fun v c => if f c then v ||| (1#n <<< c) else v) 0#n).getLsbD c =
      (decide (c < k) && f c) := by
    intro k hk
    induction k with
    | zero => simp
    | succ k ih =>
      rw [List.range_succ, List.foldl_append, List.foldl_cons, List.foldl_nil]
      have hc := ih (by omega)
      by_cases hf : f k = true
      · rw [if_pos hf, BitVec.getLsbD_or, hc]
        by_cases h : c = k
        · subst h
          simp [hf, show c < n by omega]
        · have h0 : (1#n <<< k).getLsbD c = false := by
            simp only [BitVec.getLsbD_shiftLeft, BitVec.getLsbD_one]
            by_cases hlt : c < k
            · simp [hlt]
            · simp [show c - k ≠ 0 by omega]
          rw [h0, Bool.or_false]
          have : decide (c < k + 1) = decide (c < k) := decide_eq_decide.mpr (by omega)
          rw [this]
      · rw [if_neg hf, hc]
        by_cases h : c = k
        · subst h; simp [hf]
        · have : decide (c < k + 1) = decide (c < k) := decide_eq_decide.mpr (by omega)
          rw [this]
  exact key n (Nat.le_refl n)

/-! ### Sums over GF(2) -/

/-- The sum of sums is the sum termwise. -/
theorem xorSum_xor (n : Nat) (f g : Nat → Bool) : xorSum n (fun t => f t ^^ g t) = (xorSum n f ^^ xorSum n g) := by
  induction n with
  | zero => rfl
  | succ n ih =>
    simp only [xorSum_succ, ih]
    cases xorSum n f <;> cases xorSum n g <;> cases f n <;> cases g n <;> rfl

theorem xorSum_false (n : Nat) : xorSum n (fun _ => false) = false := by
  induction n with
  | zero => rfl
  | succ n ih => rw [xorSum_succ, ih]; rfl

/-- A factor that does not depend on the index comes out of the sum. -/
theorem and_xorSum (n : Nat) (b : Bool) (f : Nat → Bool) : (b && xorSum n f) = xorSum n (fun t => b && f t) := by
  cases b with
  | false => simp [xorSum_false]
  | true => simp

/-- Two sums change places. -/
theorem xorSum_comm (m n : Nat) (f : Nat → Nat → Bool) :
    xorSum m (fun i => xorSum n (fun j => f i j)) = xorSum n (fun j => xorSum m (fun i => f i j)) := by
  induction m with
  | zero => simp [xorSum_false]
  | succ m ih => simp only [xorSum_succ, ih, xorSum_xor]

/-- A sum with one term that can be non-zero. -/
theorem xorSum_single {n : Nat} {f : Nat → Bool} {k : Nat} (hk : k < n) (h : ∀ t < n, t ≠ k → f t = false) :
    xorSum n f = f k := by
  induction n with
  | zero => omega
  | succ n ih =>
    rw [xorSum_succ]
    by_cases hn : k = n
    · subst hn
      rw [xorSum_congr (g := fun _ => false) (fun t ht => h t (by omega) (by omega)), xorSum_false, Bool.false_xor]
    · rw [ih (by omega) (fun t ht => h t (by omega)), h n (by omega) (by omega), Bool.xor_false]

/-- A sum over rows of w terms each, index r·w + c. -/
theorem xorSum_mul (k w : Nat) (f : Nat → Bool) :
    xorSum (k * w) f = xorSum k (fun j => xorSum w (fun c => f (j * w + c))) := by
  have add : ∀ a b : Nat, ∀ f : Nat → Bool, xorSum (a + b) f = (xorSum a f ^^ xorSum b (fun t => f (a + t))) := by
    intro a b f
    induction b with
    | zero => simp
    | succ b ih => rw [← Nat.add_assoc, xorSum_succ, xorSum_succ, ih, Bool.xor_assoc]
  induction k with
  | zero => simp
  | succ k ih => rw [Nat.succ_mul, add, ih, xorSum_succ]

/-- The product of matrices is associative. -/
theorem matMul_assoc (n : Nat) (a b c : Nat → Nat → Bool) (i j : Nat) :
    matMul n (matMul n a b) c i j = matMul n a (matMul n b c) i j := by
  have h1 : ∀ t, (matMul n a b i t && c t j) = xorSum n (fun u => a i u && (b u t && c t j)) := by
    intro t
    rw [matMul, Bool.and_comm, and_xorSum]
    exact xorSum_congr fun u _ => by cases a i u <;> cases b u t <;> cases c t j <;> rfl
  have h2 : ∀ u, (a i u && matMul n b c u j) = xorSum n (fun t => a i u && (b u t && c t j)) := by
    intro u
    rw [matMul, and_xorSum]
  rw [matMul, xorSum_congr (fun t _ => h1 t), matMul, xorSum_congr (fun u _ => h2 u), xorSum_comm]

/-! ### The elimination's steps -/

variable {n : Nat}

@[simp] theorem AugRow.add_t (x y : AugRow n) : (x.add y).t = x.t ^^^ y.t := rfl
@[simp] theorem AugRow.add_b (x y : AugRow n) : (x.add y).b = x.b ^^^ y.b := rfl

@[simp] theorem length_augment (a : Nat → Nat → Bool) : (augment n a).length = n := by simp [augment]

@[simp] theorem length_swapRows (rows : List (AugRow n)) (i p : Nat) : (swapRows rows i p).length = n := by
  simp [swapRows]

@[simp] theorem length_clearColumn (rows : List (AugRow n)) (i : Nat) : (clearColumn rows i).length = n := by
  simp [clearColumn]

theorem getD_augment (a : Nat → Nat → Bool) {r : Nat} (hr : r < n) :
    (augment n a).getD r (AugRow.zero n) = ⟨packRow n (a r), packRow n (fun c => decide (c = r))⟩ := by
  simp [augment, hr]

theorem getD_swapRows (rows : List (AugRow n)) (i p : Nat) {r : Nat} (hr : r < n) :
    (swapRows rows i p).getD r (AugRow.zero n) =
      if r = i then rows.getD p (AugRow.zero n)
      else if r = p then rows.getD i (AugRow.zero n)
      else rows.getD r (AugRow.zero n) := by
  simp [swapRows, hr]

theorem getD_clearColumn (rows : List (AugRow n)) (i : Nat) {r : Nat} (hr : r < n) :
    (clearColumn rows i).getD r (AugRow.zero n) =
      if decide (r ≠ i) && (rows.getD r (AugRow.zero n)).t.getLsbD i then
        (rows.getD r (AugRow.zero n)).add (rows.getD i (AugRow.zero n))
      else rows.getD r (AugRow.zero n) := by
  simp [clearColumn, hr]

/-- A pivot found is a row from i on with a 1 in column i. -/
theorem pivotRow_some {rows : List (AugRow n)} {i p : Nat} (h : pivotRow rows i = some p) :
    i ≤ p ∧ p < n ∧ (rows.getD p (AugRow.zero n)).t.getLsbD i = true := by
  have h1 := List.find?_some h
  have h2 := List.mem_of_find?_eq_some h
  rw [List.mem_range] at h2
  simp only [Bool.and_eq_true, decide_eq_true_eq] at h1
  exact ⟨h1.1, h2, h1.2⟩

/-- No pivot: column i is zero from row i on. -/
theorem pivotRow_none {rows : List (AugRow n)} {i : Nat} (h : pivotRow rows i = none) :
    ∀ r, i ≤ r → r < n → (rows.getD r (AugRow.zero n)).t.getLsbD i = false := by
  intro r hi hr
  have := List.find?_eq_none.mp h r (List.mem_range.mpr hr)
  simpa [hi] using this

end Sys2Proof.Machine
end

