-- ==== Sys2Proof/Laws/PerInstr.lean ====
section
/-! SUPPORT. One family of statements made per command: its word passes the checks of a command word. -/

namespace Sys2Proof.Laws.WellFormedWord

/-- The command's word (R91) has RSVD = 0 and an assigned OP (R90, R92). -/
def Statement (i : Instr) : Prop := commandWordWf (encodeCmd i) = true

theorem nop : Statement .nop := by
  unfold Statement; decide
theorem expand : Statement .expand := by
  unfold Statement; decide
theorem encode : Statement .encode := by
  unfold Statement; decide
theorem decode : Statement .decode := by
  unfold Statement; decide
theorem invert : Statement .invert := by
  unfold Statement; decide

end Sys2Proof.Laws.WellFormedWord
end

