-- ==== Sys2Proof/Laws/Reset.lean ====
section
/-! SUPPORT. What an asserted reset leaves (70_reset_and_hazards.md R240 to R243): the registers, the memories when Idle, and the cells an abandoned command could not write. -/

namespace Sys2Proof.Machine.State

theorem assertReset_idle {s : State} (h : s.phase = .idle) : s.assertReset = s.resetRegisters.holdReset := by
  simp [assertReset, h]

theorem assertReset_busy {s : State} {op : PendingOp} (h : s.phase = .busy op) :
    s.assertReset = (s.abandon op).nextDraw.resetRegisters.holdReset := by
  simp [assertReset, h]

@[simp] theorem statusWord_resetRegisters (s : State) : s.resetRegisters.statusWord = 0#32 := by
  simp only [statusWord, resetRegisters_err, resetRegisters_werr, resetRegisters_anyErr, resetRegisters_done,
    resetRegisters_phase]
  decide

@[simp] theorem statusWord_holdReset (s : State) : s.holdReset.statusWord = s.statusWord := rfl

@[simp] theorem abandon_params (s : State) (op : PendingOp) : (s.abandon op).params = s.params := by cases op <;> rfl
@[simp] theorem abandon_gen (s : State) (op : PendingOp) : (s.abandon op).gen = s.gen := by cases op <;> rfl
@[simp] theorem abandon_schedule (s : State) (op : PendingOp) : (s.abandon op).schedule = s.schedule := by cases op <;> rfl
@[simp] theorem abandon_response (s : State) (op : PendingOp) : (s.abandon op).response = s.response := by cases op <;> rfl

/-- Only an abandoned EXPAND could write BM (R243). -/
theorem abandon_bm {op : PendingOp} (s : State) (h : op ≠ .expand) : (s.abandon op).bm = s.bm := by
  cases op <;> first | contradiction | rfl

/-- Only an abandoned INVERT or DECODE could write INVM (R243). -/
theorem abandon_invm {op : PendingOp} (s : State) (h : op ≠ .invert) (h' : op ≠ .decode) :
    (s.abandon op).invm = s.invm := by
  cases op <;> first | contradiction | rfl

/-- Only an abandoned ENCODE or DECODE could write ARENA (R243). -/
theorem abandon_arena {op : PendingOp} (s : State) (h : op ≠ .encode) (h' : op ≠ .decode) :
    (s.abandon op).arena = s.arena := by
  cases op <;> first | contradiction | rfl

theorem abandon_expand_bm (s : State) :
    (s.abandon .expand).bm = s.looseBits s.bm s.params.mwMax (s.opM * s.opW) s.opN := rfl

theorem abandon_invert_invm (s : State) :
    (s.abandon .invert).invm = s.looseBits s.invm s.params.kwMax s.opN s.opN := rfl

theorem abandon_decode_invm (s : State) :
    (s.abandon .decode).invm = s.looseBits s.invm s.params.kwMax s.opN s.opN := rfl

theorem abandon_encode_arena (s : State) :
    (s.abandon .encode).arena = s.looseBytes s.arena (s.opK * s.opSize) (s.opM * s.opSize) := rfl

theorem abandon_decode_arena (s : State) :
    (s.abandon .decode).arena =
      s.scannedDevices.foldl (fun m d => s.looseBytes m (d * s.opSize) s.opSize) s.arena := rfl

theorem wf_looseBytes (s : State) {m : Memory} (h : m.wf = true) (a len : Nat) : (s.looseBytes m a len).wf = true :=
  wf_memWrite h _ _

/-- Bytes outside the abandoned stretch keep their values. -/
theorem read_looseBytes (s : State) {m : Memory} (h : m.wf = true) {a len x : Nat} (hx : x < a ∨ a + len ≤ x) :
    (s.looseBytes m a len).read x = m.read x := by
  unfold looseBytes
  rw [read_memWrite h, dif_neg]
  simp
  omega

theorem wf_looseDevices (s : State) (ds : List Nat) {m : Memory} (h : m.wf = true) :
    (ds.foldl (fun m d => s.looseBytes m (d * s.opSize) s.opSize) m).wf = true := by
  induction ds generalizing m with
  | nil => exact h
  | cons d ds ih => exact ih (s.wf_looseBytes h _ _)

/-- Bytes outside the abandoned devices keep their values. -/
theorem read_looseDevices (s : State) (ds : List Nat) {m : Memory} (h : m.wf = true) {x : Nat}
    (hx : ∀ d ∈ ds, ¬ s.inDevice d x) :
    (ds.foldl (fun m d => s.looseBytes m (d * s.opSize) s.opSize) m).read x = m.read x := by
  induction ds generalizing m with
  | nil => rfl
  | cons d ds ih =>
    rw [List.foldl_cons, ih (s.wf_looseBytes h _ _) (fun e he => hx e (by simp [he]))]
    apply s.read_looseBytes h
    have := hx d (by simp)
    unfold inDevice at this
    omega

theorem wf_looseBits (s : State) {m : Memory} (h : m.wf = true) (maxRows rows cols : Nat) :
    (s.looseBits m maxRows rows cols).wf = true :=
  wf_writeBlock h _ _ _ _

/-- Matrix bits outside the abandoned block keep their values. -/
theorem readBit_looseBits (s : State) {m : Memory} (h : m.wf = true) (maxRows rows cols : Nat) {r c : Nat}
    (hc : c < 32 * s.params.rwWords) (hx : rows ≤ r ∨ cols ≤ c) :
    readBit (s.looseBits m maxRows rows cols) s.params.rwWords r c = readBit m s.params.rwWords r c := by
  unfold looseBits
  rw [readBit_writeBlock h (by omega) _ hc, if_neg (by omega)]

theorem within_looseBytes (s : State) {m : Memory} (h : m.within s.params.arenaBytes = true) (a len : Nat) :
    (s.looseBytes m a len).within s.params.arenaBytes = true := by
  unfold looseBytes
  by_cases ha : a ≤ s.params.arenaBytes
  · exact within_memWrite h (by simp; omega)
  · have h0 : min (a + len) s.params.arenaBytes - a = 0 := by omega
    simpa only [h0, List.range_zero, List.map_nil, memWrite] using h

theorem within_looseDevices (s : State) (ds : List Nat) {m : Memory} (h : m.within s.params.arenaBytes = true) :
    (ds.foldl (fun m d => s.looseBytes m (d * s.opSize) s.opSize) m).within s.params.arenaBytes = true := by
  induction ds generalizing m with
  | nil => exact h
  | cons d ds ih => exact ih (s.within_looseBytes h _ _)

theorem within_looseBits (s : State) {m : Memory} {maxRows : Nat}
    (h : m.within (4 * (maxRows * s.params.rwWords)) = true) (rows cols : Nat) :
    (s.looseBits m maxRows rows cols).within (4 * (maxRows * s.params.rwWords)) = true :=
  within_writeBlock h _ (by omega) (by omega)

/-- Where the scan accepts the list, the devices an abandoned DECODE could write are the list's (R172, R243). -/
theorem scannedDevicesFrom_of_scan (s : State) {n : Nat} {met l : List Nat} (h : s.eraseScanFrom n met = .ok l) :
    s.scannedDevicesFrom n met = l := by
  induction n generalizing met with
  | zero => unfold eraseScanFrom at h; split at h <;> cases h; rfl
  | succ n ih =>
    unfold eraseScanFrom at h
    unfold scannedDevicesFrom
    simp only at h ⊢
    split at h
    · rename_i h1; cases h; rw [if_pos h1]
    · rename_i h1
      rw [if_neg h1]
      split at h
      · cases h
      · rename_i h2
        rw [if_neg h2]
        split at h
        · cases h
        · rename_i h3; rw [if_neg h3]; exact ih h

/-- The devices an abandoned DECODE could write exist, whatever the list (R172, R243). -/
theorem scannedDevicesFrom_lt (s : State) {n : Nat} {met : List Nat} (h : ∀ d ∈ met, d < s.opK + s.opM) :
    ∀ d ∈ s.scannedDevicesFrom n met, d < s.opK + s.opM := by
  induction n generalizing met with
  | zero => exact h
  | succ n ih =>
    unfold scannedDevicesFrom
    simp only
    split
    · exact h
    · split
      · exact h
      · split
        · exact h
        · refine ih fun d hd => ?_
          rcases List.mem_append.mp hd with hd | hd
          · exact h d hd
          · simp only [List.mem_singleton] at hd
            omega

theorem scannedDevices_lt (s : State) : ∀ d ∈ s.scannedDevices, d < s.opK + s.opM :=
  s.scannedDevicesFrom_lt (by simp)

theorem scannedDevices_of_scan {s : State} {l : List Nat} (h : s.eraseScan = .ok l) : s.scannedDevices = l :=
  s.scannedDevicesFrom_of_scan h

end Sys2Proof.Machine.State
end

