-- ==== Sys2Proof/Laws/Step.lean ====
section
/-! SUPPORT. What a step can be, said once: each event's step, each access's answer, and each command's completion. -/

namespace Sys2Proof.Machine

/-! ### Events -/

theorem step_access {s : State} {a : Access} {rest : List Event} (h : s.schedule = .access a :: rest) :
    step s = hostAccess a (s.withSchedule rest) := by
  simp [step, h, runEvent]

theorem step_coreTurn {s : State} {rest : List Event} (h : s.schedule = .coreTurn :: rest) :
    step s = coreTurn (s.withSchedule rest) := by
  simp [step, h, runEvent]

theorem step_resetAssert {s : State} {rest : List Event} (h : s.schedule = .resetAssert :: rest) :
    step s = .next (s.withSchedule rest).assertReset := by
  simp [step, h, runEvent]

theorem step_resetRelease {s : State} {rest : List Event} (h : s.schedule = .resetRelease :: rest) :
    step s = .next (s.withSchedule rest).releaseReset := by
  simp [step, h, runEvent]

theorem step_empty {s : State} (h : s.schedule = []) : step s = runOut s := by
  simp [step, h]

/-! ### Runs -/

@[simp] theorem run_zero (s : State) : Host.Core.run Sys2Proof.core 0 s = .next s := rfl

theorem run_succ {s t : State} (h : step s = .next t) (k : Nat) :
    Host.Core.run Sys2Proof.core (k + 1) s = Host.Core.run Sys2Proof.core k t := by
  have h' : Sys2Proof.core.step s = .next t := h
  refine (Host.Core.run.eq_2 Sys2Proof.core s k).trans ?_
  rw [h']

/-! ### Accesses -/

theorem hostAccess_read {s : State} {a : BitVec 32} {l : Location} (hr : s.inReset = false)
    (h : resolve s.params { dir := .read, addr := a, bytes := 4 } = .ok l) :
    hostAccess { dir := .read, addr := a, bytes := 4 } s = .next (s.hostRead l) := by
  simp [hostAccess, hr, h]

theorem hostAccess_write {s : State} {a : BitVec 32} {v : Word} {l : Location} (hr : s.inReset = false)
    (h : resolve s.params { dir := .write v, addr := a, bytes := 4 } = .ok l) :
    hostAccess { dir := .write v, addr := a, bytes := 4 } s = hostWrite s v l := by
  simp [hostAccess, hr, h]

theorem hostAccess_busError {s : State} {a : Access} {e : BusError} (hr : s.inReset = false)
    (h : resolve s.params a = .error e) : hostAccess a s = .next (s.answerBusError e) := by
  simp [hostAccess, hr, h]

/-- A write that takes effect while Idle, at any location but CMD. -/
theorem hostWrite_idle {s : State} (hi : s.phase = .idle) (v : Word) {l : Location} (hl : l ≠ .cmd) :
    hostWrite s v l = .next ((s.withResponse .acknowledged).writeLocation v l) := by
  simp [hostWrite, hi, Phase.isBusy, hl]

/-- A command issue while Idle. -/
theorem hostWrite_cmd {s : State} (hi : s.phase = .idle) (v : Word) :
    hostWrite s v .cmd = issueCommand v (s.withResponse .acknowledged) := by
  simp [hostWrite, hi, Phase.isBusy]

/-! ### Completions -/

theorem exec_nop (s : State) : exec .nop s = .next (s.report .noError) := rfl
theorem exec_expand (s : State) : exec .expand s = .next (finish s (expandEffect s)) := rfl
theorem exec_encode (s : State) : exec .encode s = .next (finish s (encodeEffect s)) := rfl
theorem exec_decode (s : State) : exec .decode s = .next (finish s (decodeEffect s)) := rfl
theorem exec_invert (s : State) : exec .invert s = .next (finish s (invertEffect s)) := rfl

theorem exec_answers (i : Instr) (s : State) : ∃ t, exec i s = .next t := by
  cases i <;> exact ⟨_, rfl⟩

theorem issueCommand_answers (v : Word) (s : State) : ∃ t, issueCommand v s = .next t := by
  unfold issueCommand
  split
  · exact ⟨_, rfl⟩
  · split
    · exact exec_answers _ _
    · exact ⟨_, rfl⟩

theorem hostWrite_answers (s : State) (v : Word) (l : Location) : ∃ t, hostWrite s v l = .next t := by
  unfold hostWrite
  split
  · exact ⟨_, rfl⟩
  · split
    · exact issueCommand_answers _ _
    · exact ⟨_, rfl⟩

theorem hostAccess_answers (a : Access) {s : State} (h : s.inReset = false) : ∃ t, hostAccess a s = .next t := by
  unfold hostAccess
  rw [if_neg (by simp [h])]
  split
  · exact ⟨_, rfl⟩
  · split
    · exact ⟨_, rfl⟩
    · exact hostWrite_answers _ _ _

/-- Every way a command that was Busy can complete: an error with nothing written, or ERR = 0 after its checks passed with
its own memories written. -/
theorem exec_cases {i : Instr} {s t : State} (hi : i ≠ .nop) (h : exec i s = .next t) :
    (∃ c, c ≠ .noError ∧ t = s.complete c) ∨
    (i = .expand ∧ s.cfgOk = true ∧ s.entriesOk = true ∧
      t = (s.withBm (writeBlock s.bm s.params.rwWords (s.opM * s.opW) s.opN s.expandBit)).complete .noError) ∨
    (i = .encode ∧ s.cfgOk = true ∧ s.shapeOk = true ∧ t = (s.withArena s.encodeArena).complete .noError) ∨
    (i = .invert ∧ s.cfgOk = true ∧ ∃ rows, gf2Inv s.opN s.invmBit = some rows ∧
      t = (s.storeInverse rows).complete .noError) ∨
    (i = .decode ∧ s.cfgOk = true ∧ s.shapeOk = true ∧ ∃ l, s.eraseScan = .ok l ∧
      ((s.erasedData l = [] ∧ t = (s.withArena (s.reencodeArena l s.arena)).complete .noError) ∨
       (s.erasedData l ≠ [] ∧ ∃ rows, gf2Inv s.opN (s.decodingBit l) = some rows ∧
        t = ((s.storeInverse rows).withArena
          (s.reencodeArena l (s.recoverArena l (rowsBit rows)))).complete .noError))) := by
  cases i with
  | nop => contradiction
  | expand =>
    rw [exec_expand] at h; cases h
    rcases expandEffect_cases s with ⟨h1, h2, e⟩ | ⟨-, e⟩ <;> rw [e]
    · exact .inr (.inl ⟨rfl, h1, h2, rfl⟩)
    · exact .inl ⟨_, by simp, rfl⟩
  | encode =>
    rw [exec_encode] at h; cases h
    rcases encodeEffect_cases s with ⟨h1, h2, e⟩ | ⟨-, e⟩ | ⟨-, -, e⟩ <;> rw [e]
    · exact .inr (.inr (.inl ⟨rfl, h1, h2, rfl⟩))
    all_goals exact .inl ⟨_, by simp, rfl⟩
  | invert =>
    rw [exec_invert] at h; cases h
    rcases invertEffect_cases s with ⟨h1, rows, h2, e⟩ | ⟨-, e⟩ | ⟨-, -, e⟩ <;> rw [e]
    · exact .inr (.inr (.inr (.inl ⟨rfl, h1, rows, h2, rfl⟩)))
    all_goals exact .inl ⟨_, by simp, rfl⟩
  | decode =>
    rw [exec_decode] at h; cases h
    rcases decodeEffect_cases s with ⟨h1, h2, l, hl, e⟩ | ⟨-, e⟩ | ⟨-, -, e⟩ | ⟨-, -, c, hc, e⟩ <;> rw [e]
    · rcases decodeWith_cases s l with ⟨h3, e⟩ | ⟨h3, rows, h4, e⟩ | ⟨-, -, e⟩ <;> rw [e]
      · exact .inr (.inr (.inr (.inr ⟨rfl, h1, h2, l, hl, .inl ⟨h3, rfl⟩⟩)))
      · exact .inr (.inr (.inr (.inr ⟨rfl, h1, h2, l, hl, .inr ⟨h3, rows, h4, rfl⟩⟩)))
      · exact .inl ⟨_, by simp, rfl⟩
    · exact .inl ⟨_, by simp, rfl⟩
    · exact .inl ⟨_, by simp, rfl⟩
    · exact .inl ⟨c, by rw [eraseScan_error hc]; simp, rfl⟩

theorem complete_error {s : State} {c : ErrCode} (hc : c ≠ .noError) :
    s.complete c = { s with err := c, done := true, anyErr := true, phase := .idle } := by
  simp [State.complete, State.report, hc]

theorem complete_noError {s : State} :
    s.complete .noError = { s with err := .noError, done := true, phase := .idle } := by
  simp [State.complete, State.report]

end Sys2Proof.Machine
end

