-- ==== Sys2Proof/Tests/Slice0.lean ====
section
/-! SUPPORT. Tests of the model: command words written out from R91, refused words, worked examples of the spec, and for every statement with hypotheses a concrete case that meets them. -/

set_option Elab.async false

namespace Sys2Proof.Tests

open Sys2Proof Sys2Proof.Machine Sys2Proof.Safety

/-! ### Decoding (30_encoding.md R90 to R93) -/

theorem test_decode_nop : decodeCmd 0b0000_0000_0000_0000_0000_0000_0000_0000#32 = .ok .nop := by decide
theorem test_decode_expand : decodeCmd 0b0000_0000_0000_0000_0000_0000_0000_0001#32 = .ok .expand := by decide
theorem test_decode_encode : decodeCmd 0b0000_0000_0000_0000_0000_0000_0000_0010#32 = .ok .encode := by decide
theorem test_decode_decode : decodeCmd 0b0000_0000_0000_0000_0000_0000_0000_0011#32 = .ok .decode := by decide
theorem test_decode_invert : decodeCmd 0b0000_0000_0000_0000_0000_0000_0000_0100#32 = .ok .invert := by decide

/-- OP = 0x5 is unassigned (R92). -/
theorem test_decode_unassigned : decodeCmd 0x00000005#32 = .error .unassignedOp := by decide

/-- A reserved bit makes the word illegal even with an assigned OP (R92). -/
theorem test_decode_reserved : decodeCmd 0x80000001#32 = .error .reservedBitsSet := by decide

/-- The table's numbering of EXPAND reads back as EXPAND. -/
theorem test_decodeTableWord_expand : decodeTableWord 32 1 = some .expand := by decide

/-! ### Well-formedness smoke tests: one ill-formed word for each check -/

theorem test_reservedBits_refused : reservedBitsClear 0x00000011#32 = false ∧ commandWordWf 0x00000011#32 = false := by
  decide

theorem test_opAssigned_refused : opAssigned 0x0000000F#32 = false ∧ commandWordWf 0x0000000F#32 = false := by decide

theorem test_commandWord_accepted : commandWordWf 0x00000004#32 = true := by decide

/-! ### A small instance -/

/-- K_MAX = 2, M_MAX = 2, W_MAX = 3, XOR_BYTES = 1, ARENA_BYTES = 64. -/
def smallParams : Params where
  kMax := 2
  mMax := 2
  wMax := 3
  xorBytes := 1
  arenaBytes := 64
  polyLow := [0x1#32, 0x3#32, 0x3#32]

/-- The small instance at power-on with K, M, W, PS configured, SIZE = W·PS, and these bytes in its memories. -/
def bench (k m w ps : Nat) (gen bm invm arena : List Byte) : State :=
  { State.powerOn smallParams (memWrite [] 0 gen) (memWrite [] 0 bm) (memWrite [] 0 invm) (memWrite [] 0 arena) with
    cfgK := BitVec.ofNat 32 k
    cfgM := BitVec.ofNat 32 m
    cfgW := BitVec.ofNat 32 w
    cfgPs := BitVec.ofNat 32 ps
    cfgSize := BitVec.ofNat 32 (w * ps) }

/-- What is read of the state a command leaves. -/
def afterExec {α : Type} (i : Instr) (s : State) (f : State → α) : Option α :=
  match exec i s with
  | .next t => some (f t)
  | _ => none

/-- What is read of the state a step leaves. -/
def afterStep {α : Type} (s : State) (f : State → α) : Option α :=
  match step s with
  | .next t => some (f t)
  | _ => none

/-! ### Worked examples of the spec -/

/-- R203: from reset, NOP leaves STATUS = 0x00000002. -/
theorem test_nop_status : afterExec .nop State.reset (fun t => t.statusWord) = some 0x00000002#32 := by decide +kernel

/-- R201: an illegal word from reset sets DONE, ANYERR and ERR = 5. -/
theorem test_illegal_status :
    afterStep { State.reset with schedule := [.access { dir := .write 0x5#32, addr := 0x18#32, bytes := 4 }] }
      (fun t => t.statusWord) = some 0x00000506#32 := by decide +kernel

/-- The state of R118: GEN = 1, 3 at K = 2, M = 1, W = 2. -/
def generated : State := bench 2 1 2 8 [0x1#8, 0#8, 0#8, 0#8, 0x3#8] [] [] []

/-- R118: EXPAND writes BM rows 0xD and 0x6. -/
theorem test_expand_R118 : afterExec .expand generated (fun t => (t.err, readWord t.bm 0, readWord t.bm 4)) =
    some (.noError, 0xD#32, 0x6#32) := by decide +kernel

/-- R111: an entry 4 = 2^W is a CONFIG error. -/
theorem test_expand_entry_range :
    afterExec .expand (bench 2 1 2 8 [0x1#8, 0#8, 0#8, 0#8, 0x4#8] [] [] []) (fun t => (t.err, t.bm)) =
      some (.config, []) := by decide +kernel

/-- The state of R139: BM rows 0xD, 0x6, data 00 .. 0f and a0 .. af. -/
def loaded : State := bench 2 1 2 8 [] [0xD#8, 0#8, 0#8, 0#8, 0x6#8] []
  ((List.range 16).map (fun n => BitVec.ofNat 8 n) ++ (List.range 16).map (fun n => BitVec.ofNat 8 (0xa0 + n)))

/-- R139: the coding words. -/
theorem test_encode_R139 : afterExec .encode loaded (fun t => (t.err, [32, 36, 40, 44].map (readWord t.arena))) =
    some (.noError, [0x0b0a0908#32, 0x0f0e0d0c#32, 0xa8a8a8a8#32, 0xa8a8a8a8#32]) := by decide +kernel

/-- R213: SIZE must be W·PS. -/
theorem test_encode_shape : afterExec .encode { loaded with cfgSize := 15#32 } (fun t => t.err) = some .shape := by
  decide +kernel

/-- The state of R187: data device 0 overwritten with 0xEE, the coding device encoded, device 0 listed. -/
def lost : State := { bench 2 1 2 8 [] [0xD#8, 0#8, 0#8, 0#8, 0x6#8] []
    (List.replicate 16 0xEE#8 ++ (List.range 16).map (fun n => BitVec.ofNat 8 (0xa0 + n))
      ++ (List.range 8).map (fun n => BitVec.ofNat 8 (8 + n)) ++ List.replicate 8 0xa8#8) with
  erase := [0#32, sentinel, sentinel] }

/-- R187: data device 0 restored, INVM rows 7, 9, 1, 2. -/
theorem test_decode_R187 :
    afterExec .decode lost (fun t => (t.err, [0, 4, 8, 12].map (readWord t.arena), [0, 4, 8, 12].map (readWord t.invm))) =
      some (.noError, [0x03020100#32, 0x07060504#32, 0x0b0a0908#32, 0x0f0e0d0c#32], [0x7#32, 0x9#32, 0x1#32, 0x2#32]) := by
  decide +kernel

/-- R172: M + 1 entries are ERASURE. -/
theorem test_decode_too_many :
    afterExec .decode { lost with erase := [0#32, 1#32, sentinel] } (fun t => (t.err, t.arena == lost.arena)) =
      some (.erasure, true) := by decide +kernel

/-- The state of R158, with the third row as given. -/
def square (row2 : Byte) : State :=
  bench 1 1 3 1 [] [] [0x3#8, 0#8, 0#8, 0#8, 0x6#8, 0#8, 0#8, 0#8, row2] []

/-- R158: rows 3, 6, 4 invert to rows 7, 6, 4. -/
theorem test_invert_R158 : afterExec .invert (square 0x4#8) (fun t => (t.err, [0, 4, 8].map (readWord t.invm))) =
    some (.noError, [0x7#32, 0x6#32, 0x4#32]) := by decide +kernel

/-- R158: rows 3, 6, 5 are SINGULAR and stay. -/
theorem test_invert_singular : afterExec .invert (square 0x5#8) (fun t => (t.err, [0, 4, 8].map (readWord t.invm))) =
    some (.singular, [0x3#32, 0x6#32, 0x5#32]) := by decide +kernel

/-! ### Witnesses: a concrete case that meets the hypotheses of each statement -/

/-- A whole-word write of the host. -/
def wordWrite (v : Word) (a : BitVec 32) : Access := { dir := .write v, addr := a, bytes := 4 }

/-- A whole-word read of the host. -/
def wordRead (a : BitVec 32) : Access := { dir := .read, addr := a, bytes := 4 }

/-- K = 2, M = 1, W = 2, PS = 1, SIZE = 2, the Cauchy generator [1, 3] of R118 in GEN and its expansion in BM; data devices
12 34 and 56 78 and their coding device 3c 62. -/
def coded : State := bench 2 1 2 1 [0x1#8, 0#8, 0#8, 0#8, 0x3#8] [0xD#8, 0#8, 0#8, 0#8, 0x6#8] []
  [0x12#8, 0x34#8, 0x56#8, 0x78#8, 0x3c#8, 0x62#8, 0xAA#8]

/-- The Cauchy generator of R118. -/
def cauchy (_ j : Nat) : Word := if j = 0 then 1#32 else 3#32

theorem smallParams_legal : smallParams.sizesLegal = true := by decide +kernel

theorem coded_inv : Inv coded := by constructor <;> decide +kernel

/-- The same with ENCODE pending, DONE clear and one event to come. -/
def coding (e : Event) : State := { coded with phase := .busy .encode, schedule := [e] }

theorem coding_inv : Inv (coding .coreTurn) := by constructor <;> decide +kernel

/-! Steps -/

theorem witness_StepRunsTheDecodedCommand :
    ((coding .coreTurn).phase = .busy .encode ∧ (coding .coreTurn).schedule = [.coreTurn]) ∧
    (({ coded with phase := .busy .decode } : State).phase = .busy .decode ∧ coded.schedule = []) ∧
    (coded.phase = .idle ∧ coded.inReset = false ∧ decodeCmd 0#32 = .ok .nop ∧
      ({ coded with schedule := [.access (wordWrite 0#32 0x18#32)] } : State).schedule =
        [.access { dir := .write 0#32, addr := 0x18#32, bytes := 4 }]) := by decide +kernel

theorem witness_CommandWriteIsAccepted : coded.phase = .idle ∧ coded.inReset = false ∧
    ({ coded with schedule := [.access (wordWrite 2#32 0x18#32)] } : State).schedule =
      [.access { dir := .write (encodeCmd PendingOp.encode.instr), addr := 0x18#32, bytes := 4 }] := by decide +kernel

/-- NOP's word, and the least illegal word of each kind. -/
theorem witness_NopAndIllegalWordsCompleteAtOnce : coded.phase = .idle ∧ coded.inReset = false ∧
    (∀ v : Word, ({ coded with schedule := [.access (wordWrite v 0x18#32)] } : State).schedule =
      [.access { dir := .write v, addr := 0x18#32, bytes := 4 }]) ∧
    (∀ i : Instr, (5#32 : Word) ≠ encodeCmd i ∧ (16#32 : Word) ≠ encodeCmd i) :=
  ⟨rfl, rfl, fun _ => rfl, fun i => by cases i <;> decide⟩

/-- A write to CMD and one to the last arena word while Busy. -/
theorem witness_WritesWhileBusyAreDropped :
    (coding (.access (wordWrite 1#32 0x18#32))).phase = .busy .encode ∧
    resolve smallParams { dir := .write 1#32, addr := 0x18#32, bytes := 4 } = .ok .cmd ∧
    resolve smallParams { dir := .write 1#32, addr := 0x8000003C#32, bytes := 4 } = .ok (.arena 60) ∧
    Location.cmd ≠ .id ∧ Location.arena 60 ≠ .status := by decide +kernel

theorem witness_CtrlAndStatusWritesAlwaysAct :
    (coding (.access (wordWrite 1#32 0x10#32))).inReset = false ∧
    (coding (.access (wordWrite 1#32 0x10#32))).schedule = [.access { dir := .write 1#32, addr := 0x10#32, bytes := 4 }] ∧
    (coding (.access (wordWrite 0xE#32 0x14#32))).schedule =
      [.access { dir := .write 0xE#32, addr := 0x14#32, bytes := 4 }] := by decide +kernel

theorem witness_ReadOnlyRegistersIgnoreWrites : coded.inReset = false ∧
    (∀ a ∈ [0x0#32, 0x4#32, 0x8#32], ({ coded with schedule := [.access (wordWrite 7#32 a)] } : State).schedule =
      [.access { dir := .write 7#32, addr := a, bytes := 4 }]) ∧
    ({ coded with schedule := [.access (wordRead 0x18#32)] } : State).schedule =
      [.access { dir := .read, addr := 0x18#32, bytes := 4 }] :=
  ⟨rfl, fun _ _ => rfl, rfl⟩

/-- A register while Busy, a memory while Idle (the value is determined), a memory while Busy (it is not). -/
theorem witness_ReadsHaveNoSideEffect :
    (coding (.access (wordRead 0x20#32))).inReset = false ∧
    resolve smallParams { dir := .read, addr := 0x20#32, bytes := 4 } = .ok .cfgK ∧
    ¬((coding (.access (wordRead 0x20#32))).phase.isBusy = true ∧ Location.cfgK.isMemory = true) ∧
    resolve smallParams { dir := .read, addr := 0x80000000#32, bytes := 4 } = .ok (.arena 0) ∧
    ¬(coded.phase.isBusy = true ∧ (Location.arena 0).isMemory = true) ∧
    ((coding (.access (wordRead 0x80000000#32))).phase.isBusy = true ∧ (Location.arena 0).isMemory = true) := by
  decide +kernel

/-- Each cause of a bus error, the last one an address just past each of two regions. -/
theorem witness_BusErrorsChangeNothing :
    (coding (.access { dir := .read, addr := 0x18#32, bytes := 1 })).inReset = false ∧
    ({ dir := .read, addr := 0x18#32, bytes := 1 } : Access).bytes ≠ 4 ∧
    (0x1A#32 : BitVec 32).toNat % 4 ≠ 0 ∧
    locate smallParams (0x0C#32 : BitVec 32).toNat = none ∧ locate smallParams (0x80000040#32 : BitVec 32).toNat = none ∧
    locate smallParams (0x0000010C#32 : BitVec 32).toNat = none := by decide +kernel

/-- The reset input held, with an access waiting. -/
def heldReset : State := { State.reset with inReset := true, schedule := [.access (wordRead 0x0#32)] }

theorem witness_AccessDuringResetHasNoMove : heldReset.inReset = true ∧
    heldReset.schedule = [.access { dir := .read, addr := 0x0#32, bytes := 4 }] := by decide +kernel

/-- Both stops occur, and a step that is none of them. -/
theorem witness_StepStopsOnlyAtTheEndOrInReset :
    (coded.schedule = [] ∧ coded.phase = .idle) ∧ heldReset.inReset = true ∧
    (afterStep (coding .coreTurn) (fun t => t.done)) = some true := by decide +kernel

/-! The address map, registers and memory -/

/-- The last cell of each window. -/
theorem witness_AddressMapWindows : smallParams.sizesLegal = true ∧ 2 < smallParams.erSlots ∧ 3 < smallParams.genEntries ∧
    5 < smallParams.mwMax ∧ 5 < smallParams.kwMax ∧ 0 < smallParams.rwWords ∧
    (60 < smallParams.arenaBytes ∧ 60 % 4 = 0) := by decide +kernel

/-- The holes between the registers and the addresses next to each window are outside every region. -/
theorem witness_AddressMapWindows_unmapped :
    ∀ a ∈ [0x0C, 0x1C, 0x34, 0xFC, 0x10C, 0x00FFFFFC, 0x01000010, 0x01FFFFFC, 0x02000018, 0x02FFFFFC, 0x03000018,
      0x7FFFFFFC, 0x80000040, 0xFFFFFFFC],
      a ∉ [0x00, 0x04, 0x08, 0x10, 0x14, 0x18, 0x20, 0x24, 0x28, 0x2C, 0x30] ∧
      (a < 0x100 ∨ 0x100 + 4 * smallParams.erSlots ≤ a) ∧
      (a < 0x01000000 ∨ 0x01000000 + 4 * smallParams.genEntries ≤ a) ∧
      (a < 0x02000000 ∨ 0x02000000 + 4 * (smallParams.mwMax * smallParams.rwWords) ≤ a) ∧
      (a < 0x03000000 ∨ 0x03000000 + 4 * (smallParams.kwMax * smallParams.rwWords) ≤ a) ∧
      (a < 0x80000000 ∨ 0x80000000 + smallParams.arenaBytes ≤ a) := by decide +kernel

theorem witness_IdentificationRegisters : State.reset.params.sizesLegal = true := by decide +kernel

/-- A CFG register, the last erasure slot and the last word of each memory. -/
theorem witness_WriteThenReadReturnsTheWord : Inv coded ∧ 2 < coded.params.erSlots ∧ coded.phase = .idle ∧ coded.inReset = false ∧
    resolve coded.params (wordWrite 9#32 0x30#32) = .ok .cfgSize ∧
    resolve coded.params (wordWrite 9#32 0x108#32) = .ok (.erase 2) ∧
    resolve coded.params (wordWrite 9#32 0x0100000C#32) = .ok (.gen 12) ∧
    resolve coded.params (wordWrite 9#32 0x02000014#32) = .ok (.bm 20) ∧
    resolve coded.params (wordWrite 9#32 0x03000014#32) = .ok (.invm 20) ∧
    resolve coded.params (wordWrite 9#32 0x8000003C#32) = .ok (.arena 60) :=
  ⟨coded_inv, by decide +kernel⟩

/-- A state with each error in ERR. -/
theorem witness_StatusAndCtrlLayout : State.reset.err = .noError ∧
    (∀ c : ErrCode, ({ State.reset with err := c } : State).err = c) := ⟨rfl, fun _ => rfl⟩

theorem witness_WritesChangeOnlyTheirOwnAddress : Inv coded ∧ coded.phase = .idle ∧ coded.inReset = false ∧
    resolve coded.params (wordWrite 9#32 0x80000004#32) = .ok (.arena 4) ∧ Location.arena 4 ≠ .cmd ∧
    resolve coded.params (wordRead 0x80000000#32) = .ok (.arena 0) ∧ (0x80000004#32 : BitVec 32) ≠ 0x80000000#32 ∧
    (∃ t, hostAccess (wordWrite 9#32 0x80000004#32) coded = .next t) :=
  ⟨coded_inv, rfl, rfl, by decide +kernel, by decide, by decide +kernel, by decide, hostAccess_answers _ rfl⟩

theorem witness_ArenaWordsAreLittleEndian : coded.arena.wf = true ∧ (3 : Nat) < 4 := by decide +kernel

theorem witness_MatrixWordPacking : (31 : Nat) < 32 := by decide

/-! Completion, errors, frames -/

theorem witness_EveryCompletionReports :
    afterExec .encode coded (fun t => t.err) = some .noError ∧ afterExec .invert coded (fun t => t.err) = some .singular ∧
      Instr.encode ≠ .nop := by decide +kernel

theorem witness_CommandsKeepTheirInputs : ∀ i : Instr, ∃ t, exec i coded = .next t := fun i => exec_answers i coded

theorem witness_FailedCommandsWriteOnlyStatus : ∃ t, exec .invert coded = .next t ∧ t.err ≠ .noError :=
  ⟨_, rfl, by decide +kernel⟩

theorem witness_ErrorsEachCommandCanReport :
    (∃ t, exec .nop coded = .next t) ∧ (∃ t, exec .expand coded = .next t) ∧ (∃ t, exec .encode coded = .next t) ∧
      (∃ t, exec .decode coded = .next t) ∧ (∃ t, exec .invert coded = .next t) :=
  ⟨exec_answers _ _, exec_answers _ _, exec_answers _ _, exec_answers _ _, exec_answers _ _⟩

/-! EXPAND -/

theorem witness_ExpandWritesTheBitMatrix : coded.bm.wf = true ∧ coded.cfgOk = true ∧ coded.entriesOk = true := by
  decide +kernel

/-- Both causes of CONFIG: K + M > 2^W, and an entry 2^W. -/
theorem witness_ExpandReportsConfig : ({ coded with cfgW := 1#32 } : State).cfgOk = false ∧
    2 ^ coded.opW ≤ (readWord (bench 2 1 2 1 [0x4#8] [] [] []).gen 0).toNat := by decide +kernel

theorem witness_ExpandFieldLaw : coded.params.sizesLegal = true ∧ coded.bm.wf = true ∧
    (∃ t, exec .expand coded = .next t ∧ t.err = .noError) ∧ 0 < coded.opM ∧ 1 < coded.opK ∧
    (3#32 : Word).toNat < 2 ^ coded.opW :=
  ⟨by decide +kernel, by decide +kernel, ⟨_, rfl, by decide +kernel⟩, by decide +kernel, by decide +kernel, by decide +kernel⟩

/-- GEN = 1, 0: an entry of each kind. -/
theorem witness_ExpandOfZeroAndOne :
    let s := bench 2 1 2 1 [0x1#8] [] [] []
    s.params.sizesLegal = true ∧ s.bm.wf = true ∧ (∃ t, exec .expand s = .next t ∧ t.err = .noError) ∧
      s.genEntry 0 0 = 1#32 ∧ s.genEntry 0 1 = 0#32 :=
  ⟨by decide +kernel, by decide +kernel, ⟨_, rfl, by decide +kernel⟩, by decide +kernel, by decide +kernel⟩

/-! ENCODE -/

theorem witness_EncodeWritesTheCodingDevices : coded.arena.wf = true ∧ coded.cfgOk = true ∧ coded.shapeOk = true := by
  decide +kernel

theorem witness_EncodeReportsConfigThenShape : ({ coded with cfgM := 0#32 } : State).cfgOk = false ∧
    coded.cfgOk = true ∧ ({ coded with cfgPs := 0#32 } : State).shapeOk = false := by decide +kernel

theorem coded_entries : FieldEntries coded cauchy := by unfold FieldEntries; decide +kernel

theorem coded_expanded : BmExpands coded cauchy := by unfold BmExpands; decide +kernel

theorem coded_consistent : CodingConsistent coded := by unfold CodingConsistent; decide +kernel

theorem witness_EncodeFieldLaw : coded.params.sizesLegal = true ∧ coded.arena.wf = true ∧ FieldEntries coded cauchy ∧
    BmExpands coded cauchy ∧ ∃ t, exec .encode coded = .next t ∧ t.err = .noError :=
  ⟨by decide +kernel, by decide +kernel, coded_entries, coded_expanded, _, rfl, by decide +kernel⟩

/-- The coding device overwritten. -/
theorem witness_EncodeIgnoresOldCodingContent : coded.arena.wf = true ∧ (coded.arena.write 4 0xFF#8).wf = true ∧
    coded.cfgOk = true ∧ coded.shapeOk = true ∧
    (∀ a, (a < coded.opK * coded.opSize ∨ (coded.opK + coded.opM) * coded.opSize ≤ a) →
      (coded.arena.write 4 0xFF#8).read a = coded.arena.read a) := by
  refine ⟨by decide +kernel, by decide +kernel, by decide +kernel, by decide +kernel, fun a ha => ?_⟩
  have h1 : coded.opK * coded.opSize = 4 := by decide +kernel
  have h2 : (coded.opK + coded.opM) * coded.opSize = 6 := by decide +kernel
  rw [h1, h2] at ha
  rw [Memory.read_write (by decide +kernel), if_neg (by omega)]

/-! INVERT -/

/-- The matrix of R158 with its inverse, and a zero matrix. -/
theorem witness_GaussJordanComputesTheInverse :
    (∃ rows, gf2Inv 3 (square 0x4#8).invmBit = some rows) ∧
    IsInverse 3 (square 0x4#8).invmBit (rowsBit [0x7#3, 0x6#3, 0x4#3]) ∧ gf2Inv 1 (fun _ _ => false) = none := by
  refine ⟨⟨[0x7#3, 0x6#3, 0x4#3], by decide +kernel⟩, ?_, by decide +kernel⟩
  unfold IsInverse
  decide +kernel

theorem square_nonSingular : NonSingular ((square 0x4#8).opK * (square 0x4#8).opW) (square 0x4#8).invmBit :=
  ⟨rowsBit [0x7#3, 0x6#3, 0x4#3], by unfold IsInverse; decide +kernel⟩

theorem witness_InvertStoresTheInverse : (square 0x4#8).invm.wf = true ∧ (square 0x4#8).cfgOk = true ∧
    NonSingular ((square 0x4#8).opK * (square 0x4#8).opW) (square 0x4#8).invmBit :=
  ⟨by decide +kernel, by decide +kernel, square_nonSingular⟩

/-- K = M = W = 1 with all memories zero: the matrix [0]. -/
def zeroes : State := { bench 1 1 1 1 [] [] [] [] with erase := [0#32, sentinel, sentinel] }

theorem zeroes_singular : ¬ NonSingular (zeroes.opK * zeroes.opW) zeroes.invmBit := by
  rintro ⟨b, h⟩
  have h00 := h 0 (by decide) 0 (by decide)
  have hz : zeroes.invmBit 0 0 = false := by decide +kernel
  rw [show zeroes.opK * zeroes.opW = 1 by decide] at h00
  simp [matMul, xorSum, hz, identityBit] at h00

theorem witness_InvertReportsConfigThenSingular : State.reset.cfgOk = false ∧ zeroes.cfgOk = true ∧
    ¬ NonSingular (zeroes.opK * zeroes.opW) zeroes.invmBit :=
  ⟨by decide +kernel, by decide +kernel, zeroes_singular⟩

theorem witness_InvertTwiceRestoresInvm : (square 0x4#8).invm.wf = true ∧
    ∃ t, exec .invert (square 0x4#8) = .next t ∧ t.err = .noError :=
  ⟨by decide +kernel, _, rfl, by decide +kernel⟩

/-! DECODE -/

/-- `coded` with data device 0 listed as erased. -/
def oneLost : State := { coded with erase := [0#32, sentinel, sentinel] }

/-- An empty list, one entry, the most entries, and a refused list. -/
theorem witness_ErasureScanAccepts : coded.eraseScan = .ok [] ∧ oneLost.eraseScan = .ok [0] ∧
    ({ coded with cfgM := 2#32, erase := [3#32, 0#32, sentinel] } : State).eraseScan = .ok [3, 0] ∧
    ({ coded with erase := [3#32, sentinel, sentinel] } : State).eraseScan = .error .erasure := by decide +kernel

theorem witness_SurvivorsAreTheLowest : ([0] : List Nat).length ≤ coded.opM ∧ (2 : Nat) ∈ coded.survivors [0] ∧
    (∃ d, d < coded.opK + coded.opM ∧ d ∉ ([] : List Nat) ∧ d ∉ coded.survivors []) :=
  ⟨by decide +kernel, by decide +kernel, 2, by decide +kernel, by decide, by decide +kernel⟩

/-- With device 0 erased the survivors are 1 and 2: row 1 is an identity row block, row 2 a BM row block. -/
theorem witness_DecodingMatrixRows : 0 < coded.opK ∧ 1 < coded.opK ∧ 1 < coded.opW ∧
    (coded.survivors [0]).getD 0 0 < coded.opK ∧ coded.opK ≤ (coded.survivors [0]).getD 1 0 := by decide +kernel

theorem oneLost_nonSingular : NonSingular (oneLost.opK * oneLost.opW) (oneLost.decodingBit [0]) :=
  ⟨rowsBit [0x7#4, 0x9#4, 0x1#4, 0x2#4], by unfold IsInverse; decide +kernel⟩

theorem witness_DecodeRecoversAndReencodes : oneLost.arena.wf = true ∧ oneLost.invm.wf = true ∧ oneLost.cfgOk = true ∧
    oneLost.shapeOk = true ∧ oneLost.eraseScan = .ok [0] ∧ (∃ j ∈ ([0] : List Nat), j < oneLost.opK) ∧
    NonSingular (oneLost.opK * oneLost.opW) (oneLost.decodingBit [0]) :=
  ⟨by decide +kernel, by decide +kernel, by decide +kernel, by decide +kernel, by decide +kernel, by decide +kernel,
    oneLost_nonSingular⟩

/-- The coding device listed, and the empty list. -/
theorem witness_DecodeWithoutDataErasures : coded.arena.wf = true ∧ coded.cfgOk = true ∧ coded.shapeOk = true ∧
    coded.eraseScan = .ok [] ∧
    ({ coded with erase := [2#32, sentinel, sentinel] } : State).eraseScan = .ok [2] ∧
    (∀ e ∈ ([2] : List Nat), coded.opK ≤ e) := by decide +kernel

theorem witness_DecodeReportsErrorsInOrder : State.reset.cfgOk = false ∧
    (coded.cfgOk = true ∧ ({ coded with cfgSize := 3#32 } : State).shapeOk = false) ∧
    (coded.shapeOk = true ∧ ∀ l, ({ coded with erase := [3#32, sentinel, sentinel] } : State).eraseScan ≠ .ok l) ∧
    (zeroes.cfgOk = true ∧ zeroes.shapeOk = true ∧ zeroes.eraseScan = .ok [0] ∧ (∃ j ∈ ([0] : List Nat), j < zeroes.opK) ∧
      ¬ NonSingular (zeroes.opK * zeroes.opW) (zeroes.decodingBit [0])) := by
  refine ⟨by decide +kernel, ⟨by decide +kernel, by decide +kernel⟩, ⟨by decide +kernel, fun l => ?_⟩,
    by decide +kernel, by decide +kernel, by decide +kernel, by decide +kernel, ?_⟩
  · rw [show ({ coded with erase := [3#32, sentinel, sentinel] } : State).eraseScan = .error .erasure by decide +kernel]
    simp
  · rintro ⟨b, h⟩
    have h00 := h 0 (by decide) 0 (by decide)
    have hz : zeroes.decodingBit [0] 0 0 = false := by decide +kernel
    rw [show zeroes.opK * zeroes.opW = 1 by decide] at h00
    simp [matMul, xorSum, hz, identityBit] at h00

/-- M = 2: the list 3, 0 and the list 0, 3. -/
theorem witness_DecodeIgnoresTheListOrder :
    let s : State := { coded with cfgM := 2#32, erase := [3#32, 0#32, sentinel] }
    s.arena.wf = true ∧ s.eraseScan = .ok [3, 0] ∧
      ({ s with erase := [0#32, 3#32, sentinel] } : State).eraseScan = .ok [0, 3] ∧
      (∀ d, d ∈ ([3, 0] : List Nat) ↔ d ∈ ([0, 3] : List Nat)) :=
  ⟨by decide +kernel, by decide +kernel, by decide +kernel, fun d => by simp; omega⟩

/-- Another arena differs from this one inside device 0 only. -/
theorem oneLost_agrees (a : Nat) (h : ∀ d ∈ ([0] : List Nat), ¬ oneLost.inDevice d a) :
    (oneLost.arena.write 1 0xFF#8).read a = oneLost.arena.read a := by
  have h0 := h 0 (by simp)
  rw [Memory.read_write (by decide +kernel), if_neg]
  rintro rfl
  exact h0 (by decide +kernel)

theorem witness_DecodeIgnoresErasedContent : oneLost.arena.wf = true ∧ (oneLost.arena.write 1 0xFF#8).wf = true ∧
    oneLost.eraseScan = .ok [0] ∧
    (∀ a, (∀ d ∈ ([0] : List Nat), ¬ oneLost.inDevice d a) →
      (oneLost.arena.write 1 0xFF#8).read a = oneLost.arena.read a) ∧
    (∃ t, exec .decode oneLost = .next t ∧ t.err = .noError) ∧
    ∃ u, exec .decode { oneLost with arena := oneLost.arena.write 1 0xFF#8 } = .next u :=
  ⟨by decide +kernel, by decide +kernel, by decide +kernel, oneLost_agrees, ⟨_, rfl, by decide +kernel⟩, exec_answers _ _⟩

theorem witness_DecodeRestoresConsistentDevices : coded.arena.wf = true ∧ (coded.arena.write 1 0xFF#8).wf = true ∧
    coded.cfgOk = true ∧ coded.shapeOk = true ∧ CodingConsistent coded ∧
    ({ coded with erase := [0#32, sentinel, sentinel] } : State).eraseScan = .ok [0] ∧
    NonSingular (coded.opK * coded.opW) (coded.decodingBit [0]) ∧
    (∀ a, a < (coded.opK + coded.opM) * coded.opSize → (∀ d ∈ ([0] : List Nat), ¬ coded.inDevice d a) →
      (coded.arena.write 1 0xFF#8).read a = coded.arena.read a) :=
  ⟨by decide +kernel, by decide +kernel, by decide +kernel, by decide +kernel, coded_consistent, by decide +kernel,
    oneLost_nonSingular, fun a _ h => oneLost_agrees a h⟩

/-- Inverses over GF(4) of the row pairs of [1 0; 0 1; 1 3]. -/
theorem coded_selections : EverySelectionInvertible coded cauchy := by
  have key : ∀ (ds : List Nat) (y : List (List Word)),
      ((∀ r < 2, ∀ c < 2, ((y.getD r []).getD c 0#32).toNat < 2 ^ 2) ∧
        ∀ r < 2, ∀ c < 2, fieldSum 2 (fun t => gfMul 2 coded.opPoly (stackedEntry 2 cauchy (ds.getD r 0) t)
          ((y.getD t []).getD c 0#32)) = if r = c then 1#32 else 0#32) →
      RowsInvertible coded.opK coded.opW coded.opPoly cauchy ds :=
    fun ds y h => ⟨fun r c => (y.getD r []).getD c 0#32, h⟩
  intro ds hlen hnodup hlt
  match ds, hlen, hnodup, hlt with
  | [d, e], _, hnodup, hlt =>
    have hd : d < 3 := hlt d (by simp)
    have he : e < 3 := hlt e (by simp)
    have hde : d ≠ e := by rintro rfl; simp at hnodup
    interval_cases d <;> interval_cases e <;> try contradiction
    · exact key _ [[1#32, 0#32], [0#32, 1#32]] (by decide +kernel)
    · exact key _ [[1#32, 0#32], [2#32, 2#32]] (by decide +kernel)
    · exact key _ [[0#32, 1#32], [1#32, 0#32]] (by decide +kernel)
    · exact key _ [[3#32, 1#32], [1#32, 0#32]] (by decide +kernel)
    · exact key _ [[0#32, 1#32], [2#32, 2#32]] (by decide +kernel)
    · exact key _ [[1#32, 3#32], [0#32, 1#32]] (by decide +kernel)
  | [], hlen, _, _ => exact absurd hlen (by decide +kernel)
  | [_], hlen, _, _ => exact absurd hlen (by simp; decide +kernel)
  | _ :: _ :: _ :: _, hlen, _, _ =>
    have : coded.opK = 2 := by decide +kernel
    simp [this] at hlen

theorem witness_DecodeRoundTrip : coded.params.sizesLegal = true ∧ coded.arena.wf = true ∧
    (coded.arena.write 1 0xFF#8).wf = true ∧ coded.cfgOk = true ∧ coded.shapeOk = true ∧ FieldEntries coded cauchy ∧
    BmExpands coded cauchy ∧ EverySelectionInvertible coded cauchy ∧ CodingConsistent coded ∧
    ({ coded with erase := [0#32, sentinel, sentinel] } : State).eraseScan = .ok [0] ∧
    (∀ a, a < (coded.opK + coded.opM) * coded.opSize → (∀ d ∈ ([0] : List Nat), ¬ coded.inDevice d a) →
      (coded.arena.write 1 0xFF#8).read a = coded.arena.read a) :=
  ⟨by decide +kernel, by decide +kernel, by decide +kernel, by decide +kernel, by decide +kernel, coded_entries,
    coded_expanded, coded_selections, coded_consistent, by decide +kernel, fun a _ h => oneLost_agrees a h⟩

/-! Interrupt, reset, invariants and runs -/

theorem witness_InterruptFollowsDone : (∃ t, exec .encode coded = .next t) ∧
    (∀ i : Instr, (5#32 : Word) ≠ encodeCmd i) ∧ (∃ t, issueCommand 5#32 coded = .next t) ∧
    (2#32 : Word).getLsbD 1 = true ∧ (2#32 : Word).getLsbD 0 = false :=
  ⟨exec_answers _ _, fun i => by cases i <;> decide, issueCommand_answers _ _, by decide, by decide⟩

theorem witness_ResetGivesEveryRegisterItsValue : (coding .resetAssert).schedule = [.resetAssert] ∧
    (coding .resetRelease).schedule = [.resetRelease] := by decide +kernel

theorem witness_IdleResetKeepsTheMemories : coded.phase = .idle ∧
    ({ coded with schedule := [.resetAssert] } : State).schedule = [.resetAssert] := by decide +kernel

/-- `coded` with a list whose second entry repeats the first: the scan fails; the first byte past the devices is 8. -/
def repeatedLoss : State :=
  { coded with cfgM := 2#32, erase := [0#32, 0#32, sentinel], phase := .busy .decode, schedule := [.resetAssert] }

/-- Each pending command; for DECODE an accepted list and a byte outside its devices, and a refused list and the first byte
past the devices. -/
theorem witness_BusyResetTouchesOnlyTheCommandsOutputs : coded.bm.wf = true ∧ coded.invm.wf = true ∧ coded.arena.wf = true ∧
    (∀ op : PendingOp, ({ oneLost with phase := .busy op, schedule := [.resetAssert] } : State).phase = .busy op) ∧
    oneLost.eraseScan = .ok [0] ∧ (∀ d ∈ ([0] : List Nat), ¬ oneLost.inDevice d 2) ∧
    repeatedLoss.phase = .busy .decode ∧ repeatedLoss.schedule = [.resetAssert] ∧
    repeatedLoss.eraseScan = .error .erasure ∧ (repeatedLoss.opK + repeatedLoss.opM) * repeatedLoss.opSize ≤ 8 :=
  ⟨by decide +kernel, by decide +kernel, by decide +kernel, fun _ => rfl, by decide +kernel, by decide +kernel,
    by decide +kernel, by decide +kernel, by decide +kernel, by decide +kernel⟩

theorem witness_EveryStepKeepsTheInvariant : Inv (coding .coreTurn) ∧ ∃ t, step (coding .coreTurn) = .next t :=
  ⟨coding_inv, _, rfl⟩

theorem witness_BusyInputsAreFrozen : (coding (.access (wordWrite 9#32 0x20#32))).phase = .busy .encode ∧
    (coding (.access (wordWrite 9#32 0x20#32))).inReset = false ∧
    (coding (.access (wordWrite 9#32 0x20#32))).schedule = [.access (wordWrite 9#32 0x20#32)] := by decide +kernel

theorem witness_AcceptedCommandCompletesOnItsInputs :
    let as := [wordRead 0x14#32, wordWrite 9#32 0x20#32]
    let s : State := { coded with phase := .busy .encode, schedule := as.map .access }
    s.phase = .busy .encode ∧ s.inReset = false ∧ s.schedule = as.map .access := by decide +kernel

/-- What is read of the state a script line leaves. -/
def afterLine {α : Type} (l : ScriptLine) (s : State) (f : State → α) : Option α :=
  match runLine l s with
  | .next t => some (f t)
  | _ => none

/-- R97: `WAIT` on an Idle CORE is one read, which finds BUSY = 0. -/
theorem test_wait_idle : expandLine smallParams false (.wait 3) = [.access (wordRead 0x14#32)] := by decide

/-- R97: `EXPECT` is `RD` and a comparison: it holds at an arena word and at no misaligned number (0x101), where `RD` is a bus
error (R61). -/
theorem test_expect : expectHolds coded (.arena 0) 0x78563412#32 = true ∧
    expectHolds { coded with erase := [0#32, 0#32, 0#32] } (.number 0x100#32) 0#32 = true ∧
    expectHolds { coded with erase := [0#32, 0#32, 0#32] } (.number 0x101#32) 0#32 = false := by decide +kernel

/-- P5, outcome A: still Busy at the write of CFG_K, which is dropped. -/
theorem test_P5_busy : scriptPasses [.run .encode, .wr .cfgK 5#32, .wait 1, .expect .cfgK 2#32, .expect .status 0xA#32]
    coded = true := by decide +kernel

/-- P5, outcome B: already completed at the write of CFG_K, which takes effect. -/
theorem test_P5_completed : scriptPasses
    [.run .encode, .coreTurn, .wr .cfgK 5#32, .wait 1, .expect .cfgK 5#32, .expect .status 0x2#32] coded = true := by
  decide +kernel

/-- The last cell each name has, the longest erasure list, CONFIG at the largest word, and a WAIT reached Idle and one reached
Busy. -/
theorem witness_ScriptAddressesReachTheirLocations : smallParams.sizesLegal = true ∧ 2 < smallParams.erSlots ∧
    3 < smallParams.genEntries ∧ 5 < smallParams.mwMax ∧ 5 < smallParams.kwMax ∧ 0 < smallParams.rwWords ∧
    (60 < smallParams.arenaBytes ∧ 60 % 4 = 0) ∧ ([1#32, 2#32] : List Word).length ≤ smallParams.mMax ∧
    ((0xFFFFFFFF : Nat) < 2 ^ 32 ∧ 1 * 0xFFFFFFFF < 2 ^ 32) ∧ coded.inReset = false ∧
    (afterLine (.wait 2) coded (fun t => t.phase)) = some .idle ∧
    (afterLine (.wait 2) (coding .coreTurn) (fun t => (t.phase, t.response))) = some (.idle, .data 0x2#32) := by
  decide +kernel

/-- R11 at w = 3, POLY_LOW = 3 (x^3 + x + 1): x · x^2 = x + 1, and x · (x + 1) = x^2 + x needs no reduction. -/
theorem test_xtime : xtime 3 0x3#32 0x4#32 = 0x3#32 ∧ xtime 3 0x3#32 0x3#32 = 0x6#32 := by decide

/-- W = 3: an element whose bit 2 is 0, one whose bit 2 is 1, and the largest b below W. -/
theorem witness_FieldMultiplicationByX : smallParams.sizesLegal = true ∧ 1 ≤ 3 ∧ 3 ≤ smallParams.wMax ∧
    ((3#32 : Word).toNat < 2 ^ 3 ∧ (3#32 : Word).getLsbD (3 - 1) = false) ∧
    ((4#32 : Word).toNat < 2 ^ 3 ∧ (4#32 : Word).getLsbD (3 - 1) = true) ∧ 2 < 3 := by decide +kernel

end Sys2Proof.Tests
end

section
/-! What an access, a host write, a command issue and the CORE's turn can answer, said once, with its branch
(20_memory.md R60 to R70, 44_control.md R200 to R202). -/

namespace Sys2Proof.Machine

theorem Phase.isBusy_eq_false {p : Phase} : p.isBusy = false ↔ p = .idle := by
  cases p <;> simp [Phase.isBusy]

/-- The commands whose word does not enter Busy: NOP only (R201). -/
theorem pendingOf_eq_none {i : Instr} : pendingOf i = none ↔ i = .nop := by
  cases i <;> simp [pendingOf]

/-- A pending command is never NOP (R201). -/
theorem PendingOp.instr_ne_nop (op : PendingOp) : op.instr ≠ .nop := by
  cases op <;> simp [PendingOp.instr]

/-- Every answer of a command issue (R200, R201). -/
theorem issueCommand_cases {v : Word} {s t : State} (h : issueCommand v s = .next t) :
    (∃ e, decodeCmd v = .error e ∧ t = s.report .illegal) ∨
    (decodeCmd v = .ok .nop ∧ t = s.report .noError) ∨
    ∃ i op, decodeCmd v = .ok i ∧ pendingOf i = some op ∧ t = s.accept op := by
  unfold issueCommand at h
  split at h
  · next e he => cases h; exact .inl ⟨e, he, rfl⟩
  · next i hi =>
    split at h
    · next hn =>
      obtain rfl := pendingOf_eq_none.mp hn
      cases h
      exact .inr (.inl ⟨hi, rfl⟩)
    · next op hop => cases h; exact .inr (.inr ⟨i, op, hi, hop, rfl⟩)

/-- Every answer of a legal host write: dropped while Busy, a command issue while Idle, or taken (R68 to R70). -/
theorem hostWrite_cases {s t : State} {v : Word} {l : Location} (h : hostWrite s v l = .next t) :
    (s.phase.isBusy = true ∧ l.writableWhileBusy = false ∧ t = (s.withResponse .acknowledged).dropWrite) ∨
    (s.phase = .idle ∧ l = .cmd ∧ issueCommand v (s.withResponse .acknowledged) = .next t) ∨
    ((s.phase = .idle ∨ l.writableWhileBusy = true) ∧ l ≠ .cmd ∧
      t = (s.withResponse .acknowledged).writeLocation v l) := by
  unfold hostWrite at h
  simp only at h
  split at h
  · next hb =>
    cases h
    rw [Bool.and_eq_true, Bool.not_eq_true'] at hb
    exact .inl ⟨hb.1, hb.2, rfl⟩
  · next hb =>
    have hfree : s.phase = .idle ∨ l.writableWhileBusy = true := by
      rw [← Phase.isBusy_eq_false]
      cases hp : s.phase.isBusy <;> simp_all
    split at h
    · next hl =>
      subst hl
      exact .inr (.inl ⟨hfree.resolve_right (by simp [Location.writableWhileBusy]), rfl, h⟩)
    · next hl => cases h; exact .inr (.inr ⟨hfree, hl, rfl⟩)

/-- Every answer of a host access: reset is released, and it is a bus error, a read or a write (R60 to R63, R240). -/
theorem hostAccess_cases {a : Access} {s t : State} (h : hostAccess a s = .next t) :
    s.inReset = false ∧
      ((∃ e, resolve s.params a = .error e ∧ t = s.answerBusError e) ∨
       ∃ l, resolve s.params a = .ok l ∧
        ((a.dir = .read ∧ t = s.hostRead l) ∨ ∃ v, a.dir = .write v ∧ hostWrite s v l = .next t)) := by
  unfold hostAccess at h
  split at h
  · cases h
  · next hr =>
    refine ⟨by simpa using hr, ?_⟩
    split at h
    · next e he => cases h; exact .inl ⟨e, he, rfl⟩
    · next l hl =>
      refine .inr ⟨l, hl, ?_⟩
      split at h
      · next hd => cases h; exact .inl ⟨hd, rfl⟩
      · next v hd => exact .inr ⟨v, hd, h⟩

/-- Every answer of the CORE's turn: nothing while Idle, the pending command's completion while Busy (R202, log 22). -/
theorem coreTurn_cases {s t : State} (h : coreTurn s = .next t) :
    (s.phase = .idle ∧ t = s) ∨ ∃ op, s.phase = .busy op ∧ exec op.instr s = .next t := by
  unfold coreTurn at h
  split at h
  · next hp => cases h; exact .inl ⟨hp, rfl⟩
  · next op hp => exact .inr ⟨op, hp, h⟩

/-- A step without an event left is an owed completion (R254). -/
theorem runOut_cases {s t : State} (h : runOut s = .next t) :
    ∃ op, s.phase = .busy op ∧ exec op.instr s = .next t := by
  unfold runOut at h
  split at h
  · cases h
  · next op hp => exact ⟨op, hp, h⟩

end Sys2Proof.Machine
end

section
/-! With `shape_ok` (60_exceptions.md R213) every plane of every device lies in the arena, so what ENCODE and DECODE write does. -/

namespace Sys2Proof.Machine.State

/-- A plane of an existing device ends inside the arena (R65, R213). -/
theorem planeAt_add_opPs_le {s : State} (h : s.shapeOk = true) {d b : Nat} (hd : d < s.opK + s.opM) (hb : b < s.opW) :
    s.planeAt d b + s.opPs ≤ s.params.arenaBytes := by
  obtain ⟨-, hsize, harena⟩ := shapeOk_facts h
  have hdev : (d + 1) * s.opSize ≤ (s.opK + s.opM) * s.opSize := Nat.mul_le_mul_right _ hd
  have hplane : (b + 1) * s.opPs ≤ s.opW * s.opPs := Nat.mul_le_mul_right _ hb
  rw [Nat.succ_mul] at hdev hplane
  unfold planeAt
  omega

theorem within_encodeInto {s : State} (h : s.shapeOk = true) {ds : List Nat} (hds : ∀ d ∈ ds, d < s.opK + s.opM)
    (src : Memory) {dst : Memory} (hdst : dst.within s.params.arenaBytes = true) :
    (s.encodeInto ds src dst).within s.params.arenaBytes = true :=
  within_writeDevices hdst _ _ fun d hd b hb => by
    simpa only [length_codingPlane] using planeAt_add_opPs_le h (hds d hd) hb

theorem within_encodeArena {s : State} (h : s.shapeOk = true) (harena : s.arena.within s.params.arenaBytes = true) :
    s.encodeArena.within s.params.arenaBytes = true :=
  within_encodeInto h (fun _ hd => (mem_codingDevices.mp hd).2) _ harena

/-- An accepted erasure list names existing devices only (R172). -/
theorem eraseScan_lt {s : State} {l : List Nat} (h : s.eraseScan = .ok l) : ∀ d ∈ l, d < s.opK + s.opM :=
  scannedDevices_of_scan h ▸ s.scannedDevices_lt

theorem within_reencodeArena {s : State} (h : s.shapeOk = true) {l : List Nat} (hl : s.eraseScan = .ok l)
    {data : Memory} (hdata : data.within s.params.arenaBytes = true) :
    (s.reencodeArena l data).within s.params.arenaBytes = true :=
  within_encodeInto h (fun d hd => eraseScan_lt hl d (mem_erasedCoding.mp hd).1) _ hdata

theorem within_recoverArena {s : State} (h : s.shapeOk = true) {l : List Nat} (hl : s.eraseScan = .ok l)
    (inv : Nat → Nat → Bool) (harena : s.arena.within s.params.arenaBytes = true) :
    (s.recoverArena l inv).within s.params.arenaBytes = true :=
  within_writeDevices harena _ _ fun d hd b hb => by
    simpa only [length_recoveredPlane] using
      planeAt_add_opPs_le h (eraseScan_lt hl d (mem_erasedData.mp hd).1) hb

end Sys2Proof.Machine.State
end

section
/-! Every named update of the state keeps `Inv`, under the condition the machine makes it in; a command, a host access and a step
are such updates in a row. -/

namespace Sys2Proof.Safety.Inv

open Sys2Proof.Machine

variable {s t : State}

/-! ### The model's own fields and the memories -/

theorem withSchedule (hs : Inv s) (es : List Event) : Inv (s.withSchedule es) :=
  { hs with resetHeld := fun hr => congrArg (·.withSchedule es) (hs.resetHeld hr) }

theorem withResponse (hs : Inv s) (r : Response) : Inv (s.withResponse r) :=
  { hs with resetHeld := fun hr => congrArg (·.withResponse r) (hs.resetHeld hr) }

theorem nextDraw (hs : Inv s) : Inv s.nextDraw :=
  { hs with resetHeld := fun hr => congrArg State.nextDraw (hs.resetHeld hr) }

theorem withGen (hs : Inv s) {m : Memory} (hwf : m.wf = true) (hrange : m.within (4 * s.params.genEntries) = true) :
    Inv (s.withGen m) :=
  { hs with genWf := hwf, genRange := hrange, resetHeld := fun hr => congrArg (·.withGen m) (hs.resetHeld hr) }

theorem withBm (hs : Inv s) {m : Memory} (hwf : m.wf = true)
    (hrange : m.within (4 * (s.params.mwMax * s.params.rwWords)) = true) : Inv (s.withBm m) :=
  { hs with bmWf := hwf, bmRange := hrange, resetHeld := fun hr => congrArg (·.withBm m) (hs.resetHeld hr) }

theorem withInvm (hs : Inv s) {m : Memory} (hwf : m.wf = true)
    (hrange : m.within (4 * (s.params.kwMax * s.params.rwWords)) = true) : Inv (s.withInvm m) :=
  { hs with invmWf := hwf, invmRange := hrange, resetHeld := fun hr => congrArg (·.withInvm m) (hs.resetHeld hr) }

theorem withArena (hs : Inv s) {m : Memory} (hwf : m.wf = true) (hrange : m.within s.params.arenaBytes = true) :
    Inv (s.withArena m) :=
  { hs with arenaWf := hwf, arenaRange := hrange, resetHeld := fun hr => congrArg (·.withArena m) (hs.resetHeld hr) }

theorem storeInverse (hs : Inv s) (hc : s.cfgOk = true) (rows : List (BitVec s.opN)) : Inv (s.storeInverse rows) :=
  hs.withInvm (wf_writeBlock hs.invmWf _ _ _ _)
    (within_writeBlock hs.invmRange _ (State.invmRows_le hc) (State.cols_le hc))

/-! ### Commands -/

/-- While Busy reset is released: an asserted reset holds the CORE Idle (R240). -/
theorem inReset_eq_false_of_busy (hs : Inv s) {op : PendingOp} (hp : s.phase = .busy op) : s.inReset = false := by
  by_contra hr
  have hidle : s.phase = .idle := congrArg State.phase (hs.resetHeld (by simpa using hr)).symm
  simp [hp] at hidle

theorem report (hs : Inv s) (hr : s.inReset = false) (hi : s.phase = .idle) (c : ErrCode) : Inv (s.report c) :=
  { hs with
    busyNotDone := fun hb => by simp [hi, Phase.isBusy] at hb
    resetHeld := fun h => by simp [hr] at h }

theorem complete (hs : Inv s) (hr : s.inReset = false) (c : ErrCode) : Inv (s.complete c) :=
  { hs with
    busyNotDone := fun hb => by simp [Phase.isBusy] at hb
    resetHeld := fun h => by simp [hr] at h }

theorem accept (hs : Inv s) (hr : s.inReset = false) (op : PendingOp) : Inv (s.accept op) :=
  { hs with
    busyNotDone := fun _ => rfl
    resetHeld := fun h => by simp [hr] at h }

/-- The completion of a pending command keeps the invariant (R202): its checks bound what it writes. -/
theorem exec_pending (hs : Inv s) {op : PendingOp} (hp : s.phase = .busy op) (h : exec op.instr s = .next t) : Inv t := by
  have hr := hs.inReset_eq_false_of_busy hp
  rcases exec_cases op.instr_ne_nop h with ⟨c, -, rfl⟩ | ⟨-, hc, -, rfl⟩ | ⟨-, -, hshape, rfl⟩ | ⟨-, hc, rows, -, rfl⟩ |
    ⟨-, hc, hshape, l, hl, ⟨-, rfl⟩ | ⟨-, rows, -, rfl⟩⟩
  · exact hs.complete hr c
  · exact (hs.withBm (wf_writeBlock hs.bmWf _ _ _ _)
      (within_writeBlock hs.bmRange _ (State.bmRows_le hc) (State.cols_le hc))).complete hr _
  · exact (hs.withArena (State.wf_encodeInto hs.arenaWf _ _)
      (State.within_encodeArena hshape hs.arenaRange)).complete hr _
  · exact (hs.storeInverse hc rows).complete hr _
  · exact (hs.withArena (State.wf_encodeInto hs.arenaWf _ _)
      (State.within_reencodeArena hshape hl hs.arenaRange)).complete hr _
  · exact ((hs.storeInverse hc rows).withArena (State.wf_encodeInto (State.wf_recoverArena hs.arenaWf _ _) _ _)
      (State.within_reencodeArena hshape hl (State.within_recoverArena hshape hl _ hs.arenaRange))).complete hr _

theorem issueCommand (hs : Inv s) (hr : s.inReset = false) (hi : s.phase = .idle) {v : Word}
    (h : Machine.issueCommand v s = .next t) : Inv t := by
  rcases issueCommand_cases h with ⟨-, -, rfl⟩ | ⟨-, rfl⟩ | ⟨-, op, -, -, rfl⟩
  · exact hs.report hr hi _
  · exact hs.report hr hi _
  · exact hs.accept hr op

theorem coreTurn (hs : Inv s) (h : Machine.coreTurn s = .next t) : Inv t := by
  rcases coreTurn_cases h with ⟨-, rfl⟩ | ⟨op, hp, h⟩
  · exact hs
  · exact hs.exec_pending hp h

/-! ### Host accesses -/

theorem dropWrite (hs : Inv s) (hr : s.inReset = false) : Inv s.dropWrite :=
  { hs with resetHeld := fun h => by simp [hr] at h }

/-- An aligned offset in a region of whole words leaves room for its word (R61, R62). -/
theorem word_le_of_aligned {base o size : Nat} (hbase : base % 4 = 0) (haddr : (base + o) % 4 = 0) (hsize : size % 4 = 0)
    (ho : o < size) : o + 4 ≤ size := by
  omega

/-- A write of a register or of a memory word at an aligned address of the map keeps the invariant, while Busy too (R62, R70). -/
theorem writeLocation (hs : Inv s) (hr : s.inReset = false) (v : Word) {l : Location} (haddr : l.address % 4 = 0)
    (hl : l.inRegion s.params) : Inv (s.writeLocation v l) := by
  have hreset : ∀ t : State, t.inReset = s.inReset → t.inReset = true → t.resetRegisters = t := fun t ht h => by
    simp [ht, hr] at h
  cases l with
  | id | param0 | param1 | cmd => exact hs
  | ctrl | cfgK | cfgM | cfgW | cfgPs | cfgSize => exact { hs with resetHeld := hreset _ rfl }
  | status =>
    exact { hs with
      busyNotDone := fun hb => by simp [State.writeLocation, hs.busyNotDone hb]
      resetHeld := hreset _ rfl }
  | erase i =>
    exact { hs with
      eraseSlots := List.length_set.trans hs.eraseSlots
      resetHeld := hreset _ rfl }
  | gen o =>
    exact hs.withGen (wf_writeWord hs.genWf o v)
      (within_writeWord hs.genRange (word_le_of_aligned rfl haddr (Nat.mul_mod_right 4 _) hl) v)
  | bm o =>
    exact hs.withBm (wf_writeWord hs.bmWf o v)
      (within_writeWord hs.bmRange (word_le_of_aligned rfl haddr (Nat.mul_mod_right 4 _) hl) v)
  | invm o =>
    exact hs.withInvm (wf_writeWord hs.invmWf o v)
      (within_writeWord hs.invmRange (word_le_of_aligned rfl haddr (Nat.mul_mod_right 4 _) hl) v)
  | arena o =>
    obtain ⟨-, -, -, ⟨hbytes, -⟩, -⟩ := Params.bounds_of_sizesLegal hs.paramsLegal
    exact hs.withArena (wf_writeWord hs.arenaWf o v)
      (within_writeWord hs.arenaRange (word_le_of_aligned rfl haddr hbytes hl) v)

theorem hostRead (hs : Inv s) (l : Location) : Inv (s.hostRead l) := by
  unfold State.hostRead
  split
  · exact (hs.withResponse _).nextDraw
  · exact hs.withResponse _

theorem hostWrite (hs : Inv s) (hr : s.inReset = false) {v : Word} {l : Location} (haddr : l.address % 4 = 0)
    (hl : l.inRegion s.params) (h : Machine.hostWrite s v l = .next t) : Inv t := by
  have hack := hs.withResponse .acknowledged
  rcases hostWrite_cases h with ⟨-, -, rfl⟩ | ⟨hi, -, h⟩ | ⟨-, -, rfl⟩
  · exact hack.dropWrite hr
  · exact hack.issueCommand hr hi h
  · exact hack.writeLocation hr v haddr hl

theorem hostAccess (hs : Inv s) {a : Access} (h : Machine.hostAccess a s = .next t) : Inv t := by
  obtain ⟨hr, ⟨e, -, rfl⟩ | ⟨l, hl, hcase⟩⟩ := hostAccess_cases h
  · exact hs.withResponse (.busError e)
  · obtain ⟨-, haligned, hloc⟩ := resolve_ok hl
    rcases hcase with ⟨-, rfl⟩ | ⟨v, -, h⟩
    · exact hs.hostRead l
    · exact hs.hostWrite hr (locate_address haligned hloc ▸ haligned) (locate_inRegion hloc) h

/-! ### Reset -/

/-- An abandoned command's free values lie in cells that exist (R243). -/
theorem abandon (hs : Inv s) (op : PendingOp) : Inv (s.abandon op) := by
  have hinvm := s.wf_looseBits hs.invmWf s.params.kwMax s.opN s.opN
  have hinvmRange := s.within_looseBits hs.invmRange s.opN s.opN
  cases op with
  | expand => exact hs.withBm (s.wf_looseBits hs.bmWf _ _ _) (s.within_looseBits hs.bmRange _ _)
  | encode => exact hs.withArena (s.wf_looseBytes hs.arenaWf _ _) (s.within_looseBytes hs.arenaRange _ _)
  | decode =>
    exact (hs.withArena (s.wf_looseDevices _ hs.arenaWf) (s.within_looseDevices _ hs.arenaRange)).withInvm hinvm hinvmRange
  | invert => exact hs.withInvm hinvm hinvmRange

/-- The registers take their reset values, and hold them while reset stays asserted (R240). -/
theorem resetRegisters_holdReset (hs : Inv s) : Inv s.resetRegisters.holdReset :=
  { hs with
    eraseSlots := List.length_replicate
    busyNotDone := fun _ => rfl
    resetHeld := fun _ => rfl }

theorem assertReset (hs : Inv s) : Inv s.assertReset := by
  cases hp : s.phase with
  | idle => exact State.assertReset_idle hp ▸ hs.resetRegisters_holdReset
  | busy op => exact State.assertReset_busy hp ▸ (hs.abandon op).nextDraw.resetRegisters_holdReset

theorem releaseReset (hs : Inv s) : Inv s.releaseReset :=
  { hs with resetHeld := fun h => by simp at h }

/-! ### Steps -/

theorem step (hs : Inv s) (h : Machine.step s = .next t) : Inv t := by
  cases hsched : s.schedule with
  | nil =>
    rw [step_empty hsched] at h
    obtain ⟨op, hp, h⟩ := runOut_cases h
    exact hs.exec_pending hp h
  | cons e rest =>
    have hrest := hs.withSchedule rest
    cases e with
    | access a => exact hrest.hostAccess (step_access hsched ▸ h)
    | coreTurn => exact hrest.coreTurn (step_coreTurn hsched ▸ h)
    | resetAssert =>
      rw [step_resetAssert hsched] at h
      cases h
      exact hrest.assertReset
    | resetRelease =>
      rw [step_resetRelease hsched] at h
      cases h
      exact hrest.releaseReset

end Sys2Proof.Safety.Inv
end

section

/-- Settles O56: each event's step is a row of updates that each keep the invariant. -/
theorem everyStepKeepsTheInvariant : Obligations.EveryStepKeepsTheInvariant := by
  unfold Obligations.EveryStepKeepsTheInvariant
  exact fun _ _ hs h => hs.step h

end

section
/-! Multiplication by x in numbers (00_scope.md R11): doubling, and XOR with POLY_LOW[w] where the doubled element leaves the w
bits; the powers of x below x^w; and the field product bit by bit (R12). -/

namespace Sys2Proof.Machine

theorem toNat_fieldMask {w : Nat} (hw : w ≤ 32) : (fieldMask w).toNat = 2 ^ w - 1 := by
  have hpow : 2 ^ w ≤ 2 ^ 32 := Nat.pow_le_pow_right (by omega) hw
  have hpos : 0 < 2 ^ w := Nat.two_pow_pos w
  rw [fieldMask, BitVec.toNat_ofNat, Nat.mod_eq_of_lt (by omega)]

/-- The shifted and masked word is the double modulo 2^w (R11). -/
theorem toNat_shiftLeft_and_fieldMask {w : Nat} (hw : w ≤ 32) (a : Word) :
    ((a <<< 1) &&& fieldMask w).toNat = 2 * a.toNat % 2 ^ w := by
  rw [BitVec.toNat_and, toNat_fieldMask hw, Nat.and_two_pow_sub_one_eq_mod, BitVec.toNat_shiftLeft, Nat.shiftLeft_eq,
    Nat.mod_mod_of_dvd _ (Nat.pow_dvd_pow 2 hw), pow_one, Nat.mul_comm]

/-- Multiplication by x with the top bit set (R11). -/
theorem toNat_xtime_of_top {w : Nat} (hw : w ≤ 32) (low : Word) {a : Word} (htop : a.getLsbD (w - 1) = true) :
    (xtime w low a).toNat = (2 * a.toNat % 2 ^ w) ^^^ low.toNat := by
  rw [xtime, if_pos htop, BitVec.toNat_xor, toNat_shiftLeft_and_fieldMask hw]

/-- An element of w bits whose top bit is clear has w - 1 bits. -/
theorem toNat_lt_of_top_clear {w : Nat} {a : Word} (ha : a.toNat < 2 ^ w) (htop : a.getLsbD (w - 1) = false) :
    a.toNat < 2 ^ (w - 1) := by
  refine Nat.lt_pow_two_of_testBit _ fun i hi => ?_
  rcases Nat.eq_or_lt_of_le hi with rfl | hlt
  · exact htop
  · exact Nat.testBit_lt_two_pow (ha.trans_le (Nat.pow_le_pow_right (by omega) (by omega)))

/-- Multiplication by x with the top bit clear (R11). -/
theorem toNat_xtime_of_top_clear {w : Nat} (h1 : 1 ≤ w) (hw : w ≤ 32) (low : Word) {a : Word} (ha : a.toNat < 2 ^ w)
    (htop : a.getLsbD (w - 1) = false) : (xtime w low a).toNat = 2 * a.toNat := by
  have hlt := toNat_lt_of_top_clear ha htop
  have hpow : 2 ^ w = 2 * 2 ^ (w - 1) := by rw [← pow_succ', Nat.sub_add_cancel h1]
  rw [xtime, htop, if_neg Bool.false_ne_true, BitVec.xor_zero, toNat_shiftLeft_and_fieldMask hw,
    Nat.mod_eq_of_lt (by omega)]

/-- x^b is 2^b for b < w (R11): no reduction happens before x^w. -/
theorem toNat_xtimePow_one {w : Nat} (hw : w ≤ 32) (low : Word) {b : Nat} (hb : b < w) :
    (xtimePow w low b 1#32).toNat = 2 ^ b := by
  induction b with
  | zero => rfl
  | succ b ih =>
    have hx := ih (by omega)
    have htop : (xtimePow w low b 1#32).getLsbD (w - 1) = false := by
      rw [← BitVec.testBit_toNat, hx, Nat.testBit_two_pow_of_ne (by omega)]
    have hlt : (xtimePow w low b 1#32).toNat < 2 ^ w := hx ▸ Nat.pow_lt_pow_right (by omega) (by omega)
    rw [xtimePow_succ, toNat_xtime_of_top_clear (by omega) hw low hlt htop, hx, pow_succ']

/-- Bit b of the field product is the sum of bit b of the selected multiples of e (R12). -/
theorem getLsbD_gfMul (w : Nat) (low a e : Word) (b : Nat) :
    (gfMul w low a e).getLsbD b = xorSum w (fun i => a.getLsbD i && (xtimePow w low i e).getLsbD b) := by
  have partialSum : ∀ n, ((List.range n).foldl (fun acc i => if a.getLsbD i then acc ^^^ xtimePow w low i e else acc)
      0#32).getLsbD b = xorSum n (fun i => a.getLsbD i && (xtimePow w low i e).getLsbD b) := by
    intro n
    induction n with
    | zero => simp
    | succ n ih =>
      rw [List.range_succ, List.foldl_append, List.foldl_cons, List.foldl_nil, xorSum_succ, ← ih]
      cases a.getLsbD n <;> simp
  exact partialSum w

end Sys2Proof.Machine
end

section

open Sys2Proof Sys2Proof.Machine

/-- Settles O60: legal parameters have w at most 32 (R6), so the masked shift of R11 is doubling modulo 2^w. -/
theorem fieldMultiplicationByX : Obligations.FieldMultiplicationByX := by
  unfold Obligations.FieldMultiplicationByX
  intro p w a e hp h1 hwmax ha
  obtain ⟨-, -, ⟨-, hmax⟩, -⟩ := Params.bounds_of_sizesLegal hp
  have hw : w ≤ 32 := hwmax.trans hmax
  exact ⟨toNat_xtime_of_top_clear h1 hw _ ha, toNat_xtime_of_top hw _, rfl, fun n => xtimePow_succ _ _ n a,
    fun _ hb => toNat_xtimePow_one hw _ hb, getLsbD_gfMul _ _ _ _⟩

end

section
/-! What the host reads in the identification registers, STATUS and CTRL, field by field (10_state.md R21 to R26, R33). -/

namespace Sys2Proof.Machine

/-- The fields of PARAM0 (R22). -/
theorem param0Word_fields (p : Params) :
    (param0Word p).extractLsb' 0 8 = BitVec.ofNat 8 p.kMax ∧ (param0Word p).extractLsb' 8 8 = BitVec.ofNat 8 p.mMax ∧
      (param0Word p).extractLsb' 16 6 = BitVec.ofNat 6 p.wMax ∧ (param0Word p).extractLsb' 22 2 = 0#2 ∧
      (param0Word p).extractLsb' 24 8 = BitVec.ofNat 8 p.xorBytes := by
  unfold param0Word
  simp (disch := omega) only [BitVec.extractLsb'_append_eq_of_le, BitVec.extractLsb'_append_eq_right, Nat.reduceSub,
    BitVec.extractLsb'_eq_self, and_self]

/-- STATUS.BUSY is 1 exactly when the sequencer is not Idle (R33). -/
theorem Phase.isBusy_eq_decide (p : Phase) : p.isBusy = decide (p ≠ .idle) := by
  cases p <;> rfl

namespace State

/-- The flags of STATUS (R26). -/
theorem statusWord_flags (s : State) :
    s.statusWord.getLsbD 0 = s.phase.isBusy ∧ s.statusWord.getLsbD 1 = s.done ∧ s.statusWord.getLsbD 2 = s.anyErr ∧
      s.statusWord.getLsbD 3 = s.werr := by
  unfold statusWord
  simp only [BitVec.getLsbD_append]
  simp

/-- STATUS.ERR (R26, R211). -/
theorem statusWord_err (s : State) : s.statusWord.extractLsb' 8 3 = s.err.code := by
  unfold statusWord
  simp (disch := omega) only [BitVec.extractLsb'_append_eq_of_le, BitVec.extractLsb'_append_eq_right, Nat.reduceSub]

/-- The reserved fields of STATUS read 0 (R26). -/
theorem statusWord_reserved (s : State) :
    s.statusWord.extractLsb' 4 4 = 0#4 ∧ s.statusWord.extractLsb' 11 21 = 0#21 := by
  unfold statusWord
  simp (disch := omega) only [BitVec.extractLsb'_append_eq_of_le, BitVec.extractLsb'_append_eq_right, Nat.reduceSub,
    BitVec.extractLsb'_eq_self, and_self]

/-- The fields of CTRL (R24). -/
theorem ctrlWord_fields (s : State) : s.ctrlWord.getLsbD 0 = s.ie ∧ s.ctrlWord.extractLsb' 1 31 = 0#31 := by
  refine ⟨?_, BitVec.extractLsb'_append_eq_left⟩
  unfold ctrlWord
  rw [BitVec.getLsbD_append]
  simp

end State

end Sys2Proof.Machine
end

section

open Sys2Proof Sys2Proof.Machine

/-- Settles O15: R6 bounds each parameter below the range of its field, so no field is cut. -/
theorem identificationRegisters : Obligations.IdentificationRegisters := by
  unfold Obligations.IdentificationRegisters
  intro s hp
  obtain ⟨⟨-, hkMax⟩, ⟨-, hmMax⟩, ⟨-, hwMax⟩, ⟨-, -, harena⟩, hxor⟩ := Params.bounds_of_sizesLegal hp
  obtain ⟨hk, hm, hw, hreserved, hx⟩ := param0Word_fields s.params
  simp only [State.readLocation, hk, hm, hw, hreserved, hx, param1Word, BitVec.toNat_ofNat]
  refine ⟨rfl, ?_, ?_, ?_, trivial, ?_, ?_⟩ <;> exact Nat.mod_eq_of_lt (by omega)

/-- Settles O16: STATUS and CTRL are concatenations of their fields. -/
theorem statusAndCtrlLayout : Obligations.StatusAndCtrlLayout := by
  unfold Obligations.StatusAndCtrlLayout
  intro s
  simp only [State.readLocation]
  obtain ⟨hbusy, hdone, hanyErr, hwerr⟩ := s.statusWord_flags
  obtain ⟨hlow, hhigh⟩ := s.statusWord_reserved
  have hcode (c : ErrCode) (h : s.err = c) : s.statusWord.extractLsb' 8 3 = c.code := h ▸ s.statusWord_err
  exact ⟨hbusy.trans s.phase.isBusy_eq_decide, hdone, hanyErr, hwerr, hlow, s.statusWord_err, hcode .noError, hcode .config,
    hcode .shape, hcode .erasure, hcode .singular, hcode .illegal, hhigh, s.ctrlWord_fields⟩

end

section
/-! Host writes that take effect in any phase (20_memory.md R69, R70(b)), and reading back what a write stored (R72). -/

namespace Sys2Proof.Machine

/-- The locations whose writes are the same while Busy: the read-only registers, CTRL and STATUS (R69, R70). -/
theorem Location.writableWhileBusy_eq_false {l : Location} :
    l.writableWhileBusy = false ↔ l ≠ .id ∧ l ≠ .param0 ∧ l ≠ .param1 ∧ l ≠ .ctrl ∧ l ≠ .status := by
  cases l <;> simp [Location.writableWhileBusy]

/-- Which location an address resolves to does not depend on the direction of the access (R61, R62). -/
theorem resolve_dir (p : Params) (d d' : Direction) (a : BitVec 32) (n : Nat) :
    resolve p { dir := d, addr := a, bytes := n } = resolve p { dir := d', addr := a, bytes := n } := rfl

theorem resolve_ctrl (p : Params) (d : Direction) :
    resolve p { dir := d, addr := 0x10#32, bytes := 4 } = .ok .ctrl := by
  simp [resolve, locate]

theorem resolve_status (p : Params) (d : Direction) :
    resolve p { dir := d, addr := 0x14#32, bytes := 4 } = .ok .status := by
  simp [resolve, locate]

theorem hostWrite_writableWhileBusy (s : State) (v : Word) {l : Location} (hl : l.writableWhileBusy = true) :
    hostWrite s v l = .next ((s.withResponse .acknowledged).writeLocation v l) := by
  have hcmd : l ≠ .cmd := by rintro rfl; simp [Location.writableWhileBusy] at hl
  simp [hostWrite, hl, hcmd]

/-- The step of a write that acts in any phase (R69, R70(b)). -/
theorem step_write_writableWhileBusy {s : State} {v : Word} {a : BitVec 32} {l : Location} {rest : List Event}
    (hr : s.inReset = false) (hl : l.writableWhileBusy = true)
    (ha : resolve s.params { dir := .write v, addr := a, bytes := 4 } = .ok l)
    (h : s.schedule = .access { dir := .write v, addr := a, bytes := 4 } :: rest) :
    step s = .next (((s.withSchedule rest).withResponse .acknowledged).writeLocation v l) := by
  exact (step_access h).trans ((hostAccess_write (s := s.withSchedule rest) hr ha).trans
    (hostWrite_writableWhileBusy _ v hl))

namespace State

/-- A write to STATUS, flag by flag: 1 clears, 0 keeps (R26). -/
theorem writeStatus_eq (s : State) (v : Word) :
    s.writeStatus v = { s with
      done := if v.getLsbD 1 then false else s.done
      anyErr := if v.getLsbD 2 then false else s.anyErr
      werr := if v.getLsbD 3 then false else s.werr } := by
  unfold writeStatus
  cases v.getLsbD 1 <;> cases v.getLsbD 2 <;> cases v.getLsbD 3 <;> simp

/-- While Idle every location is read at its current value (R68). -/
theorem hostRead_idle {s : State} (hi : s.phase = .idle) (l : Location) :
    s.hostRead l = s.withResponse (.data (s.readLocation l)) := by
  simp [hostRead, hi, Phase.isBusy]

/-- A CFG register, an ERASE slot that exists or a memory word stores every bit of a write (R25, R27, R29 to R32). -/
theorem readLocation_writeLocation_same {s : State} (hs : Safety.Inv s) (v : Word) {l : Location}
    (hregion : l.inRegion s.params) (hstores : l.writableWhileBusy = false) (hcmd : l ≠ .cmd) :
    (s.writeLocation v l).readLocation l = v := by
  cases l with
  | id | param0 | param1 | ctrl | status => simp [Location.writableWhileBusy] at hstores
  | cmd => contradiction
  | cfgK | cfgM | cfgW | cfgPs | cfgSize => rfl
  | erase i =>
    have hi : i < s.erase.length := hs.eraseSlots ▸ hregion
    simp [writeLocation, readLocation, eraseSlot, hi]
  | gen o => exact readWord_writeWord_same hs.genWf o v
  | bm o => exact readWord_writeWord_same hs.bmWf o v
  | invm o => exact readWord_writeWord_same hs.invmWf o v
  | arena o => exact readWord_writeWord_same hs.arenaWf o v

end State

end Sys2Proof.Machine
end

section

open Sys2Proof Sys2Proof.Machine

/-- Settles O8: writes to CTRL and STATUS are not subject to the BUSY check. -/
theorem ctrlAndStatusWritesAlwaysAct : Obligations.CtrlAndStatusWritesAlwaysAct := by
  unfold Obligations.CtrlAndStatusWritesAlwaysAct
  intro s v rest hr
  refine ⟨fun h => step_write_writableWhileBusy hr rfl (resolve_ctrl _ _) h, fun h => ?_⟩
  rw [step_write_writableWhileBusy hr rfl (resolve_status _ _) h]
  exact congrArg Host.Outcome.next (State.writeStatus_eq _ v)

/-- Settles O17: the write and the read resolve to the same location, which the write leaves Idle and holding the word. -/
theorem writeThenReadReturnsTheWord : Obligations.WriteThenReadReturnsTheWord := by
  unfold Obligations.WriteThenReadReturnsTheWord
  refine ⟨fun s v a l hs hi hr hres hid hparam0 hparam1 hctrl hstatus hcmd => ?_, fun s => ?_⟩
  · obtain ⟨-, -, hloc⟩ := resolve_ok hres
    have hstores := Location.writableWhileBusy_eq_false.mpr ⟨hid, hparam0, hparam1, hctrl, hstatus⟩
    obtain ⟨hphase, hreset, hparams, -⟩ := writeLocation_keeps (s.withResponse .acknowledged) v l
    refine ⟨_, (hostAccess_write hr hres).trans (hostWrite_idle hi v hcmd), _,
      hostAccess_read (hreset.trans hr) (hparams ▸ (resolve_dir _ _ _ a 4).trans hres), ?_⟩
    rw [State.hostRead_idle (hphase.trans hi), State.withResponse_response]
    exact congrArg Response.data
      (State.readLocation_writeLocation_same (hs.withResponse .acknowledged) v (locate_inRegion hloc) hstores hcmd)
  · exact ⟨⟨rfl, rfl, rfl, rfl, rfl⟩, ⟨rfl, rfl, rfl, rfl, rfl⟩, fun _ _ => rfl, fun _ => rfl, fun _ _ => rfl⟩

end

section
/-! The interrupt output after each update that touches CTRL.IE or STATUS.DONE (10_state.md R35, 60_exceptions.md R222). -/

namespace Sys2Proof

/-- With RSVD = 0 a command word is its OP field (R90). -/
theorem toNat_opField {v : Word} (h : rsvdField v = 0#28) : (opField v).toNat = v.toNat := by
  have hv : 0#28 ++ opField v = v := by
    rw [← h, rsvdField, opField, BitVec.extractLsb'_append_extractLsb'_eq_extractLsb' (by rfl)]
    exact BitVec.extractLsb'_eq_self
  have hnat := congrArg BitVec.toNat hv
  rwa [BitVec.toNat_append, BitVec.toNat_ofNat, Nat.zero_mod, Nat.zero_shiftLeft, Nat.zero_or] at hnat

/-- A word the decoder accepts is the command's own word (R91, R93). -/
theorem eq_encodeCmd_of_decodeCmd {v : Word} {i : Instr} (h : decodeCmd v = .ok i) : v = encodeCmd i := by
  unfold decodeCmd at h
  split at h
  · cases h
  · next hrsvd =>
    rw [toNat_opField (not_not.mp hrsvd)] at h
    split at h <;> cases h <;> next hop => exact BitVec.eq_of_toNat_eq hop

namespace Machine

namespace State

@[simp] theorem irq_report (s : State) (c : ErrCode) : (s.report c).irq = s.ie := Bool.and_true _

@[simp] theorem irq_complete (s : State) (c : ErrCode) : (s.complete c).irq = s.ie := Bool.and_true _

@[simp] theorem irq_accept (s : State) (op : PendingOp) : (s.accept op).irq = false := Bool.and_false _

theorem irq_writeStatus (s : State) {v : Word} (hv : v.getLsbD 1 = true) : (s.writeStatus v).irq = false := by
  rw [irq, writeStatus_done, hv, Bool.not_true, Bool.and_false, Bool.and_false]

theorem irq_writeCtrl (s : State) {v : Word} (hv : v.getLsbD 0 = false) : (s.writeCtrl v).irq = false := by
  rw [irq, writeCtrl_ie, hv, Bool.false_and]

theorem irq_assertReset (s : State) : s.assertReset.irq = false := by
  cases hp : s.phase with
  | idle => rw [assertReset_idle hp]; rfl
  | busy op => rw [assertReset_busy hp]; rfl

end State

/-- Every completion raises IRQ where IE is set (R222): no command writes CTRL. -/
theorem irq_of_exec {i : Instr} {s t : State} (h : exec i s = .next t) : t.irq = s.ie := by
  by_cases hi : i = .nop
  · subst hi
    cases h
    exact s.irq_report _
  · rcases exec_cases hi h with ⟨c, -, rfl⟩ | ⟨-, -, -, rfl⟩ | ⟨-, -, -, rfl⟩ | ⟨-, -, rows, -, rfl⟩ |
      ⟨-, -, -, l, -, ⟨-, rfl⟩ | ⟨-, rows, -, rfl⟩⟩ <;> exact State.irq_complete _ _

/-- An illegal word raises IRQ where IE is set (R216, R222). -/
theorem irq_of_issueCommand_illegal {v : Word} {s t : State} (hv : ∀ i : Instr, v ≠ encodeCmd i)
    (h : issueCommand v s = .next t) : t.irq = s.ie := by
  rcases issueCommand_cases h with ⟨-, -, rfl⟩ | ⟨hi, -⟩ | ⟨i, -, hi, -⟩
  · exact s.irq_report _
  · exact absurd (eq_encodeCmd_of_decodeCmd hi) (hv _)
  · exact absurd (eq_encodeCmd_of_decodeCmd hi) (hv i)

end Machine

end Sys2Proof
end

section

open Sys2Proof Sys2Proof.Machine

/-- Settles O50: a completion's report sets DONE, and each clearing update clears DONE or IE. -/
theorem interruptFollowsDone : Obligations.InterruptFollowsDone := by
  unfold Obligations.InterruptFollowsDone
  exact ⟨fun _ => Bool.and_eq_true_iff, fun _ _ _ => irq_of_exec, fun _ _ _ => irq_of_issueCommand_illegal, State.irq_accept,
    fun s _ => s.irq_writeStatus, fun s _ => s.irq_writeCtrl, State.irq_assertReset⟩

end

section
/-! The state after reset (10_state.md R37). -/

namespace Sys2Proof

theorem Params.sizesLegal_reference : Params.reference.sizesLegal = true := by
  decide +kernel

/-- Every erasure slot holds the sentinel at power-on (R27, R37). -/
theorem Machine.State.eraseSlot_powerOn (p : Params) (gen bm invm arena : Memory) (i : Nat) :
    (State.powerOn p gen bm invm arena).eraseSlot i = sentinel := by
  rw [eraseSlot, powerOn, List.getD_eq_getElem?_getD, List.getElem?_replicate]
  split <;> rfl

/-- With legal parameters the invariant holds at power-on, whatever canonical contents its memories have (R37, R242). -/
theorem Safety.Inv.powerOn {p : Params} (hp : p.sizesLegal = true) {gen bm invm arena : Machine.Memory}
    (hgen : gen.wf = true ∧ gen.within (4 * p.genEntries) = true)
    (hbm : bm.wf = true ∧ bm.within (4 * (p.mwMax * p.rwWords)) = true)
    (hinvm : invm.wf = true ∧ invm.within (4 * (p.kwMax * p.rwWords)) = true)
    (harena : arena.wf = true ∧ arena.within p.arenaBytes = true) :
    Inv (Machine.State.powerOn p gen bm invm arena) where
  paramsLegal := hp
  eraseSlots := List.length_replicate
  genWf := hgen.1
  bmWf := hbm.1
  invmWf := hinvm.1
  arenaWf := harena.1
  genRange := hgen.2
  bmRange := hbm.2
  invmRange := hinvm.2
  arenaRange := harena.2
  busyNotDone := fun _ => rfl
  resetHeld := fun h => nomatch h

end Sys2Proof
end

section

open Sys2Proof Sys2Proof.Machine Sys2Proof.Safety

/-- Settles O51: the reset registers hold their values, and the identification registers those of the reference configuration. -/
theorem resetRegisterValues : Obligations.ResetRegisterValues := by
  unfold Obligations.ResetRegisterValues
  exact ⟨rfl, by decide, by decide, by decide, by decide, rfl, rfl, rfl, rfl, rfl,
    fun i _ => State.eraseSlot_powerOn _ _ _ _ _ i, rfl, rfl⟩

/-- Settles O55: the reference configuration is legal, and a memory that lists nothing is canonical. -/
theorem resetMeetsTheInvariant : Obligations.ResetMeetsTheInvariant := by
  unfold Obligations.ResetMeetsTheInvariant
  exact Inv.powerOn Params.sizesLegal_reference ⟨rfl, rfl⟩ ⟨rfl, rfl⟩ ⟨rfl, rfl⟩ ⟨rfl, rfl⟩

end

section
/-! What the accesses of the host leave of a Busy CORE (20_memory.md R70, 44_control.md R205), and the completion after them
(R202). -/

namespace Sys2Proof.Machine

namespace State

/-- What no host access changes while Busy: the state with IE, the STATUS flags and the port's answer blanked (R70, R205). -/
def frozen (s : State) : State :=
  { s with ie := false, done := false, anyErr := false, werr := false, response := .noAccess, draws := 0 }

theorem frozen_hostRead (s : State) (l : Location) : (s.hostRead l).frozen = s.frozen := by
  unfold hostRead
  split <;> rfl

/-- The writes that act while Busy reach IE and the sticky flags only (R70(b)). -/
theorem frozen_writeLocation (s : State) (v : Word) {l : Location} (hl : l.writableWhileBusy = true) :
    (s.writeLocation v l).frozen = s.frozen := by
  cases l with
  | id | param0 | param1 | ctrl | status => rfl
  | _ => simp [Location.writableWhileBusy] at hl

/-- The frozen part, field by field. -/
theorem frozen_eq_iff {s t : State} : t.frozen = s.frozen ↔
    t.params = s.params ∧ t.cfgK = s.cfgK ∧ t.cfgM = s.cfgM ∧ t.cfgW = s.cfgW ∧ t.cfgPs = s.cfgPs ∧
      t.cfgSize = s.cfgSize ∧ t.err = s.err ∧ t.erase = s.erase ∧ t.gen = s.gen ∧ t.bm = s.bm ∧ t.invm = s.invm ∧
      t.arena = s.arena ∧ t.phase = s.phase ∧ t.inReset = s.inReset ∧ t.schedule = s.schedule := by
  simp [frozen]

end State

/-- While Busy a host access, legal or not, keeps the frozen part of the state (R70, R205, R221). -/
theorem frozen_of_hostAccess {s t : State} {op : PendingOp} {a : Access} (hp : s.phase = .busy op)
    (h : hostAccess a s = .next t) : t.frozen = s.frozen := by
  obtain ⟨-, ⟨e, -, rfl⟩ | ⟨l, -, ⟨-, rfl⟩ | ⟨v, -, hw⟩⟩⟩ := hostAccess_cases h
  · rfl
  · exact s.frozen_hostRead l
  · rcases hostWrite_cases hw with ⟨-, -, rfl⟩ | ⟨hi, -⟩ | ⟨hfree, -, rfl⟩
    · rfl
    · simp [hp] at hi
    · exact State.frozen_writeLocation _ v (hfree.resolve_left (by simp [hp]))

/-- The step of a host access while Busy answers, and only its event leaves the frozen part (R70, R205). -/
theorem step_access_busy {s : State} {op : PendingOp} {a : Access} {rest : List Event} (hp : s.phase = .busy op)
    (hr : s.inReset = false) (h : s.schedule = .access a :: rest) :
    ∃ t, step s = .next t ∧ t.frozen = (s.withSchedule rest).frozen := by
  obtain ⟨t, ht⟩ := hostAccess_answers a (s := s.withSchedule rest) hr
  exact ⟨t, (step_access h).trans ht, frozen_of_hostAccess (s := s.withSchedule rest) hp ht⟩

/-- After a list of accesses a run of a Busy CORE goes on from a state with the same frozen part and no event left (R205). -/
theorem run_accesses_busy {s : State} {op : PendingOp} {as : List Access} (hp : s.phase = .busy op)
    (hr : s.inReset = false) (h : s.schedule = as.map .access) :
    ∃ u, (∀ k, Host.Core.run Sys2Proof.core (as.length + k) s = Host.Core.run Sys2Proof.core k u) ∧
      u.frozen = (s.withSchedule []).frozen := by
  induction as generalizing s with
  | nil => exact ⟨s, fun k => by rw [List.length_nil, Nat.zero_add], congrArg (s.frozen.withSchedule ·) h⟩
  | cons a as ih =>
    obtain ⟨t, hstep, ht⟩ := step_access_busy hp hr h
    obtain ⟨-, -, -, -, -, -, -, -, -, -, -, -, hphase, hreset, hsched⟩ := State.frozen_eq_iff.mp ht
    obtain ⟨u, hrun, hu⟩ := ih (hphase.trans hp) (hreset.trans hr) hsched
    refine ⟨u, fun k => ?_, hu.trans (congrArg (·.withSchedule []) ht)⟩
    rw [List.length_cons, Nat.add_right_comm, run_succ hstep, hrun]

/-- A pending command's `exec` ends in the completion report, with the schedule kept (R202). -/
theorem exec_pending_completes {op : PendingOp} {s t : State} (h : exec op.instr s = .next t) :
    t.phase = .idle ∧ t.done = true ∧ t.schedule = s.schedule := by
  rcases exec_cases op.instr_ne_nop h with ⟨c, -, rfl⟩ | ⟨-, -, -, rfl⟩ | ⟨-, -, -, rfl⟩ | ⟨-, -, rows, -, rfl⟩ |
    ⟨-, -, -, l, -, ⟨-, rfl⟩ | ⟨-, rows, -, rfl⟩⟩ <;> exact ⟨rfl, rfl, rfl⟩

theorem step_busy_empty {s : State} {op : PendingOp} (hp : s.phase = .busy op) (h : s.schedule = []) :
    step s = exec op.instr s := by
  simp [step_empty h, runOut, hp]

end Sys2Proof.Machine
end

section

open Sys2Proof Sys2Proof.Machine

/-- Settles O57: an access while Busy reaches IE, the sticky flags and the port's answer only. -/
theorem busyInputsAreFrozen : Obligations.BusyInputsAreFrozen := by
  unfold Obligations.BusyInputsAreFrozen
  intro s op a rest hp hr hsched
  obtain ⟨t, hstep, ht⟩ := step_access_busy hp hr hsched
  obtain ⟨hparams, hk, hm, hw, hps, hsize, herr, herase, hgen, hbm, hinvm, harena, hphase, hreset, hrest⟩ :=
    State.frozen_eq_iff.mp ht
  exact ⟨t, hstep, hphase, hrest, hreset.trans hr, hparams, hk, hm, hw, hps, hsize, herase, hgen, hbm, hinvm, harena, herr⟩

/-- Settles O58: by induction over the accesses the inputs stay frozen, and the step after them is the owed completion. -/
theorem acceptedCommandCompletesOnItsInputs : Obligations.AcceptedCommandCompletesOnItsInputs := by
  unfold Obligations.AcceptedCommandCompletesOnItsInputs
  intro s op as hp hr hsched
  obtain ⟨u, hrun, hu⟩ := run_accesses_busy hp hr hsched
  obtain ⟨hparams, hk, hm, hw, hps, hsize, -, herase, hgen, hbm, hinvm, harena, hphase, -, hempty⟩ :=
    State.frozen_eq_iff.mp hu
  obtain ⟨t, ht⟩ := exec_answers op.instr u
  obtain ⟨hidle, hdone, hkept⟩ := exec_pending_completes ht
  have hlast : step u = .next t := (step_busy_empty (hphase.trans hp) hempty).trans ht
  exact ⟨u, t, hrun 0, (hrun 1).trans (run_succ hlast 0), ht, hidle, hdone, hkept.trans hempty,
    hparams, hk, hm, hw, hps, hsize, herase, hgen, hbm, hinvm, harena⟩

end

section
/-! Reads (20_memory.md R68, R70), bus errors (R61, R63) and the read-only registers (R69). -/

namespace Sys2Proof.Machine

namespace State

/-- A location's value depends on neither what is scheduled nor what the port answered last. -/
@[simp] theorem readLocation_withSchedule (s : State) (es : List Event) (l : Location) :
    (s.withSchedule es).readLocation l = s.readLocation l := by
  cases l <;> rfl

@[simp] theorem readLocation_withResponse (s : State) (r : Response) (l : Location) :
    (s.withResponse r).readLocation l = s.readLocation l := by
  cases l <;> rfl

/-- But for a memory while Busy, a read answers the location's current value (R68, R70(c)). -/
theorem hostRead_current {s : State} {l : Location} (h : ¬(s.phase.isBusy = true ∧ l.isMemory = true)) :
    s.hostRead l = s.withResponse (.data (s.readLocation l)) :=
  if_neg (by rwa [Bool.and_eq_true])

/-- A memory read while Busy answers the next free value (R70(d), log 6). -/
theorem hostRead_busyMemory {s : State} {l : Location} (h : s.phase.isBusy = true ∧ l.isMemory = true) :
    s.hostRead l = (s.withResponse (.data (Config.busyReadWord s.draws))).nextDraw :=
  if_pos (by rwa [Bool.and_eq_true])

end State

/-- The step of a legal read (R68). -/
theorem step_read {s : State} {a : BitVec 32} {l : Location} {rest : List Event} (hr : s.inReset = false)
    (ha : resolve s.params { dir := .read, addr := a, bytes := 4 } = .ok l)
    (h : s.schedule = .access { dir := .read, addr := a, bytes := 4 } :: rest) :
    step s = .next ((s.withSchedule rest).hostRead l) :=
  (step_access h).trans (hostAccess_read (s := s.withSchedule rest) hr ha)

/-- A partial, a misaligned and an unmapped access do not resolve (R61, R63). -/
theorem resolve_error {p : Params} {a : Access}
    (h : a.bytes ≠ 4 ∨ a.addr.toNat % 4 ≠ 0 ∨ locate p a.addr.toNat = none) : ∃ e, resolve p a = .error e := by
  cases hres : resolve p a with
  | error e => exact ⟨e, rfl⟩
  | ok l =>
    obtain ⟨hbytes, haligned, hloc⟩ := resolve_ok hres
    simp [hbytes, haligned, hloc] at h

/-- The addresses of the read-only registers (R62). -/
theorem resolve_readOnly {p : Params} {d : Direction} {a : BitVec 32} (h : a = 0x0#32 ∨ a = 0x4#32 ∨ a = 0x8#32) :
    ∃ l, (l = .id ∨ l = .param0 ∨ l = .param1) ∧ resolve p { dir := d, addr := a, bytes := 4 } = .ok l := by
  rcases h with rfl | rfl | rfl
  · exact ⟨.id, by simp, by simp [resolve, locate]⟩
  · exact ⟨.param0, by simp, by simp [resolve, locate]⟩
  · exact ⟨.param1, by simp, by simp [resolve, locate]⟩

theorem resolve_cmd (p : Params) (d : Direction) :
    resolve p { dir := d, addr := 0x18#32, bytes := 4 } = .ok .cmd := by
  simp [resolve, locate]

end Sys2Proof.Machine
end

section

open Sys2Proof Sys2Proof.Machine

/-- Settles O9: the read-only registers are outside the BUSY check, and their writes store nothing. -/
theorem readOnlyRegistersIgnoreWrites : Obligations.ReadOnlyRegistersIgnoreWrites := by
  unfold Obligations.ReadOnlyRegistersIgnoreWrites
  intro s rest hr
  refine ⟨fun v a ha hsched => ?_, fun hsched => ?_⟩
  · obtain ⟨l, hl, hres⟩ := resolve_readOnly (p := s.params) (d := .write v) ha
    rcases hl with rfl | rfl | rfl <;> exact step_write_writableWhileBusy hr rfl hres hsched
  · rw [step_read hr (resolve_cmd _ _) hsched, State.hostRead_current (by simp [Location.isMemory])]
    rfl

/-- Settles O10: a read only answers, and a memory read while Busy also draws a free value. -/
theorem readsHaveNoSideEffect : Obligations.ReadsHaveNoSideEffect := by
  unfold Obligations.ReadsHaveNoSideEffect
  intro s a l rest hr hsched hres
  rw [step_read hr hres hsched]
  by_cases hfree : s.phase.isBusy = true ∧ l.isMemory = true
  · rw [State.hostRead_busyMemory (s := s.withSchedule rest) hfree]
    exact ⟨_, _, rfl, fun hcur => absurd hfree hcur⟩
  · rw [State.hostRead_current (s := s.withSchedule rest) hfree, State.readLocation_withSchedule]
    exact ⟨_, _, rfl, fun _ => ⟨rfl, rfl⟩⟩

/-- Settles O11: an access that does not resolve is answered, and nothing else, in any phase. -/
theorem busErrorsChangeNothing : Obligations.BusErrorsChangeNothing := by
  unfold Obligations.BusErrorsChangeNothing
  intro s a rest hr hsched hbad
  obtain ⟨e, he⟩ := resolve_error hbad
  exact ⟨e, (step_access hsched).trans (hostAccess_busError (s := s.withSchedule rest) hr he)⟩

end

section
/-! The address map read from location to address (20_memory.md R62), and what a write leaves at every other address (R72). -/

namespace Sys2Proof.Machine

/-- With legal parameters the windows do not overlap, so every location of a region stands at its address (R62). -/
theorem locate_location_address {p : Params} (hp : p.sizesLegal = true) {l : Location} (hl : l.inRegion p) :
    locate p l.address = some l := by
  obtain ⟨herase, hgen, -, hbm, hinvm⟩ := Params.derived_bounds hp
  cases l with
  | erase i =>
    simp only [Location.inRegion] at hl
    have hslot : (0x100 + 4 * i - 0x100) / 4 = i := by omega
    simp (disch := omega) only [locate, Location.address, eraseBase, if_neg, if_pos, hslot]
  | gen o | bm o | invm o | arena o =>
    simp only [Location.inRegion] at hl
    simp (disch := omega) only [locate, Location.address, eraseBase, genBase, bmBase, invmBase, arenaBase, if_neg, if_pos,
      Nat.add_sub_cancel_left]
  | _ => rfl

/-- An address that is no register's and lies in no window is unmapped (R62). -/
theorem locate_eq_none {p : Params} {a : Nat}
    (hreg : a ∉ [0x00, 0x04, 0x08, 0x10, 0x14, 0x18, 0x20, 0x24, 0x28, 0x2C, 0x30])
    (herase : a < eraseBase ∨ eraseBase + 4 * p.erSlots ≤ a) (hgen : a < genBase ∨ genBase + 4 * p.genEntries ≤ a)
    (hbm : a < bmBase ∨ bmBase + 4 * (p.mwMax * p.rwWords) ≤ a)
    (hinvm : a < invmBase ∨ invmBase + 4 * (p.kwMax * p.rwWords) ≤ a)
    (harena : a < arenaBase ∨ arenaBase + p.arenaBytes ≤ a) : locate p a = none := by
  simp only [List.mem_cons, List.not_mem_nil, or_false, not_or] at hreg
  simp only [locate, hreg, if_false]
  clear hreg
  simp (disch := omega) only [if_neg]

/-- Two word addresses of the map are at least a word apart. -/
theorem address_apart {p : Params} {x y : Access} {l k : Location} (hx : resolve p x = .ok l) (hy : resolve p y = .ok k)
    (hne : x.addr ≠ y.addr) : l.address + 4 ≤ k.address ∨ k.address + 4 ≤ l.address := by
  obtain ⟨-, hx4, hl⟩ := resolve_ok hx
  obtain ⟨-, hy4, hk⟩ := resolve_ok hy
  rw [locate_address hx4 hl, locate_address hy4 hk]
  have : x.addr.toNat ≠ y.addr.toNat := fun h => hne (BitVec.eq_of_toNat_eq h)
  omega

/-- A write that takes effect keeps the value of every location a word or more away (R72). -/
theorem State.readLocation_writeLocation_other {s : State} (hs : Safety.Inv s) (v : Word) {l k : Location}
    (hfar : l.address + 4 ≤ k.address ∨ k.address + 4 ≤ l.address) :
    (s.writeLocation v l).readLocation k = s.readLocation k := by
  have hne : k ≠ l := by rintro rfl; omega
  cases l with
  | id | param0 | param1 | cmd => rfl
  | ctrl => cases k with | ctrl => contradiction | _ => rfl
  | status => cases k with | status => contradiction | _ => rfl
  | cfgK => cases k with | cfgK => contradiction | _ => rfl
  | cfgM => cases k with | cfgM => contradiction | _ => rfl
  | cfgW => cases k with | cfgW => contradiction | _ => rfl
  | cfgPs => cases k with | cfgPs => contradiction | _ => rfl
  | cfgSize => cases k with | cfgSize => contradiction | _ => rfl
  | erase i =>
    cases k with
    | erase j =>
      have hij : i ≠ j := by rintro rfl; contradiction
      simp [readLocation, writeLocation, eraseSlot, List.getD_eq_getElem?_getD, List.getElem?_set_ne hij]
    | _ => rfl
  | gen o =>
    cases k with
    | gen x => exact readWord_writeWord_other hs.genWf v (by simp only [Location.address] at hfar; omega)
    | _ => rfl
  | bm o =>
    cases k with
    | bm x => exact readWord_writeWord_other hs.bmWf v (by simp only [Location.address] at hfar; omega)
    | _ => rfl
  | invm o =>
    cases k with
    | invm x => exact readWord_writeWord_other hs.invmWf v (by simp only [Location.address] at hfar; omega)
    | _ => rfl
  | arena o =>
    cases k with
    | arena x => exact readWord_writeWord_other hs.arenaWf v (by simp only [Location.address] at hfar; omega)
    | _ => rfl

end Sys2Proof.Machine
end

section

open Sys2Proof Sys2Proof.Machine

/-- Settles O14: each location of a region stands at its address, and an address outside them all is unmapped. -/
theorem addressMapWindows : Obligations.AddressMapWindows := by
  unfold Obligations.AddressMapWindows
  intro p hp
  have hmap (l : Location) (hl : l.inRegion p) : locate p l.address = some l := locate_location_address hp hl
  have hword {n size : Nat} (h : n < size) : 4 * n < 4 * size := by omega
  refine ⟨⟨rfl, rfl, rfl, rfl, rfl, rfl, rfl, rfl, rfl, rfl, rfl⟩, fun i hi => hmap (.erase i) hi,
    fun n hn => hmap (.gen _) (hword hn), fun r hr q hq => hmap (.bm _) (hword (cell_lt hr hq)),
    fun r hr q hq => hmap (.invm _) (hword (cell_lt hr hq)), fun a ha _ => hmap (.arena a) ha,
    fun a => locate_eq_none⟩

/-- Settles O18: two addresses of the map are a word apart, and a write stays inside its word. -/
theorem writesChangeOnlyTheirOwnAddress : Obligations.WritesChangeOnlyTheirOwnAddress := by
  unfold Obligations.WritesChangeOnlyTheirOwnAddress
  intro s t v a b l k hs hi hr hl hcmd hk hab h
  rw [hostAccess_write hr hl, hostWrite_idle hi v hcmd] at h
  cases h
  exact (State.readLocation_writeLocation_other (hs.withResponse .acknowledged) v (address_apart hl hk hab)).trans
    (s.readLocation_withResponse _ k)

end

section
/-! The byte lanes of a stored word (20_memory.md R64) and the matrix bits it packs (R67). -/

namespace Sys2Proof.Machine

/-- Byte lane t of a word read is the byte t above its offset (R64). -/
theorem byteLane_readWord (m : Memory) (a : Nat) {t : Nat} (ht : t < 4) : byteLane (readWord m a) t = m.read (a + t) := by
  unfold byteLane readWord wordOfBytes
  obtain rfl | rfl | rfl | rfl : t = 0 ∨ t = 1 ∨ t = 2 ∨ t = 3 := by omega
  all_goals
    simp (disch := omega) only [BitVec.extractLsb'_append_eq_of_le, BitVec.extractLsb'_append_eq_right, Nat.reduceSub,
      Nat.reduceMul, BitVec.extractLsb'_eq_self, Nat.add_zero]

/-- Bit t of a word is a bit of its byte lane. -/
theorem getLsbD_eq_byteLane (v : Word) (t : Nat) : v.getLsbD t = (byteLane v (t / 8)).getLsbD (t % 8) := by
  rw [byteLane, BitVec.getLsbD_extractLsb', Nat.div_add_mod, decide_eq_true (Nat.mod_lt t (by decide)), Bool.true_and]

/-- Bit t of word q of stored row r is matrix bit (r, 32·q + t) (R67). -/
theorem getLsbD_readWord_row (m : Memory) (rw r q : Nat) {t : Nat} (ht : t < 32) :
    (readWord m (4 * (r * rw + q))).getLsbD t = readBit m rw r (32 * q + t) := by
  have hcell : 4 * (r * rw + q) + t / 8 = bitCell rw r (32 * q + t) := by unfold bitCell; omega
  have hbit : (32 * q + t) % 8 = t % 8 := by omega
  rw [getLsbD_eq_byteLane, byteLane_readWord m _ (by omega), readBit, hcell, hbit]

end Sys2Proof.Machine
end

section

open Sys2Proof Sys2Proof.Machine

/-- Settles O19: the lanes of the word read are the stored bytes, and a word write stores its lanes in its four bytes only. -/
theorem arenaWordsAreLittleEndian : Obligations.ArenaWordsAreLittleEndian := by
  unfold Obligations.ArenaWordsAreLittleEndian
  intro s a v hwf
  have hread (x : Nat) : (s.writeLocation v (.arena a)).arena.read x =
      if a ≤ x ∧ x < a + 4 then byteLane v (x - a) else s.arena.read x := read_writeWord hwf a v x
  refine ⟨fun t => byteLane_readWord s.arena a, fun t ht => ?_, fun x hx => ?_⟩
  · rw [hread, if_pos (by omega), Nat.add_sub_cancel_left, byteLane]
  · rw [hread, if_neg (by omega)]

/-- Settles O20: BM and INVM pack their rows alike. -/
theorem matrixWordPacking : Obligations.MatrixWordPacking := by
  unfold Obligations.MatrixWordPacking
  exact fun s r q t ht => ⟨getLsbD_readWord_row s.bm _ r q ht, getLsbD_readWord_row s.invm _ r q ht⟩

end

section
/-! What a command word decodes to (30_encoding.md R91 to R93). -/

namespace Sys2Proof

/-- Each command's own word decodes to it (R91). -/
theorem decodeCmd_encodeCmd (i : Instr) : decodeCmd (encodeCmd i) = .ok i := by
  cases i <;> rfl

/-- RSVD is 0 exactly below 16 (R90). -/
theorem rsvdField_eq_zero_iff {v : Word} : rsvdField v = 0#28 ↔ v.toNat < 16 := by
  have hv : v.toNat < 2 ^ 32 := v.isLt
  rw [rsvdField, ← BitVec.toNat_inj, BitVec.extractLsb'_toNat, Nat.shiftRight_eq_div_pow, BitVec.toNat_ofNat]
  omega

/-- A word has RSVD set, or an unassigned OP alone, or is a command's word (R91, R92). -/
theorem decodeCmd_cases (v : Word) :
    (16 ≤ v.toNat ∧ decodeCmd v = .error .reservedBitsSet) ∨
    ((5 ≤ v.toNat ∧ v.toNat < 16) ∧ decodeCmd v = .error .unassignedOp) ∨ ∃ i, v = encodeCmd i := by
  by_cases hrsvd : rsvdField v = 0#28
  · have hlt := rsvdField_eq_zero_iff.mp hrsvd
    cases hd : decodeCmd v with
    | ok i => exact .inr (.inr ⟨i, eq_encodeCmd_of_decodeCmd hd⟩)
    | error e =>
      rw [decodeCmd, if_neg (not_not.mpr hrsvd), toNat_opField hrsvd] at hd
      split at hd <;> cases hd
      next h0 h1 h2 h3 h4 =>
        rw [imp_false] at h0 h1 h2 h3 h4
        exact .inr (.inl ⟨by omega, rfl⟩)
  · exact .inl ⟨not_lt.mp fun h => hrsvd (rsvdField_eq_zero_iff.mpr h), if_pos hrsvd⟩

end Sys2Proof
end

section

open Sys2Proof

/-- Settles O1: each command's word decodes to it, and a word that decodes is that word. -/
theorem onlyTheFiveCommandWordsDecode : Obligations.OnlyTheFiveCommandWordsDecode := by
  unfold Obligations.OnlyTheFiveCommandWordsDecode
  exact fun v i => ⟨eq_encodeCmd_of_decodeCmd, fun h => h ▸ decodeCmd_encodeCmd i⟩

/-- Settles O2: the three kinds of word lie in the ranges 16 and up, 5 to 15, and 0 to 4. -/
theorem illegalWordsAreExactlyTheReservedOnes : Obligations.IllegalWordsAreExactlyTheReservedOnes := by
  unfold Obligations.IllegalWordsAreExactlyTheReservedOnes
  intro v
  rcases decodeCmd_cases v with ⟨hv, hd⟩ | ⟨hv, hd⟩ | ⟨i, rfl⟩
  · simp [hd, hv]
  · simp [hd, hv]
  · have hi : (encodeCmd i).toNat < 5 := by cases i <;> decide
    simp only [decodeCmd_encodeCmd, reduceCtorEq, false_iff]
    omega

/-- Settles O3: five of the words are the commands' own, and the other four are closed words. -/
theorem writtenOutWordsDecode : Obligations.WrittenOutWordsDecode := by
  unfold Obligations.WrittenOutWordsDecode
  exact ⟨decodeCmd_encodeCmd .nop, decodeCmd_encodeCmd .expand, decodeCmd_encodeCmd .encode, decodeCmd_encodeCmd .decode,
    decodeCmd_encodeCmd .invert, rfl, rfl, rfl, rfl⟩

end

section
/-! What a command writes (30_encoding.md R95, 44_control.md R202). -/

namespace Sys2Proof.Machine

/-- A command writes DONE, ANYERR, ERR, the phase and memories only: BM by EXPAND, INVM by INVERT and DECODE, ARENA by
ENCODE and DECODE (R114, R133, R155, R180, R202). -/
theorem exec_frame {i : Instr} {s t : State} (h : exec i s = .next t) :
    t = { s with
      bm := t.bm, invm := t.invm, arena := t.arena, done := t.done, anyErr := t.anyErr, err := t.err, phase := t.phase } ∧
      (i ≠ .expand → t.bm = s.bm) ∧ (i ≠ .invert → i ≠ .decode → t.invm = s.invm) ∧
      (i ≠ .encode → i ≠ .decode → t.arena = s.arena) := by
  by_cases hi : i = .nop
  · subst hi
    cases h
    exact ⟨rfl, fun _ => rfl, fun _ _ => rfl, fun _ _ => rfl⟩
  rcases exec_cases hi h with ⟨c, -, rfl⟩ | ⟨rfl, -, -, rfl⟩ | ⟨rfl, -, -, rfl⟩ | ⟨rfl, -, rows, -, rfl⟩ |
    ⟨rfl, -, -, l, -, ⟨-, rfl⟩ | ⟨-, rows, -, rfl⟩⟩
  · exact ⟨rfl, fun _ => rfl, fun _ _ => rfl, fun _ _ => rfl⟩
  · exact ⟨rfl, absurd rfl, fun _ _ => rfl, fun _ _ => rfl⟩
  · exact ⟨rfl, fun _ => rfl, fun _ _ => rfl, absurd rfl⟩
  · exact ⟨rfl, fun _ => rfl, absurd rfl, fun _ _ => rfl⟩
  · exact ⟨rfl, fun _ => rfl, fun _ => absurd rfl, fun _ => absurd rfl⟩
  · exact ⟨rfl, fun _ => rfl, fun _ => absurd rfl, fun _ => absurd rfl⟩

end Sys2Proof.Machine
end

section

open Sys2Proof Sys2Proof.Machine

/-- Settles O22: a command writes the report, the phase and its own memories only. -/
theorem commandsKeepTheirInputs : Obligations.CommandsKeepTheirInputs := by
  unfold Obligations.CommandsKeepTheirInputs
  intro i s t h
  obtain ⟨ht, hbm, hinvm, harena⟩ := exec_frame h
  rw [ht]
  exact ⟨rfl, rfl, rfl, rfl, rfl, rfl, rfl, rfl, rfl, rfl, rfl, rfl, rfl, rfl, hbm, hinvm, harena⟩

end

section
/-! The host-script language (30_encoding.md R96, R97): the address a name stands for, the accesses of ERASURES, and the run of
WAIT. -/

namespace Sys2Proof.Machine

/-- With legal parameters every address of the map fits the bus (R60, R62). -/
theorem Location.address_lt {p : Params} (hp : p.sizesLegal = true) {l : Location} (hl : l.inRegion p) :
    l.address < 2 ^ 32 := by
  obtain ⟨herase, hgen, -, hbm, hinvm⟩ := Params.derived_bounds hp
  obtain ⟨-, -, -, ⟨-, -, harena⟩, -⟩ := Params.bounds_of_sizesLegal hp
  cases l with
  | erase _ | gen _ | bm _ | invm _ | arena _ =>
    simp only [inRegion] at hl
    simp only [address, eraseBase, genBase, bmBase, invmBase, arenaBase]
    omega
  | _ => simp [address]

/-- A location is found at its address as a bus word (R62). -/
theorem locate_ofNat_address {p : Params} (hp : p.sizesLegal = true) {l : Location} (hl : l.inRegion p) :
    locate p (BitVec.ofNat 32 l.address).toNat = some l := by
  rw [BitVec.toNat_ofNat, Nat.mod_eq_of_lt (Location.address_lt hp hl), locate_location_address hp hl]

/-- ERASURES writes its entries from slot i on, and the sentinel to the slot after them (R97). -/
theorem erasureEvents_eq (p : Params) (i : Nat) (es : List Word) :
    erasureEvents p i es =
      (List.range es.length).map (fun j => writeEvent p (.erase (i + j)) (es.getD j 0#32)) ++
        [writeEvent p (.erase (i + es.length)) sentinel] := by
  induction es generalizing i with
  | nil => rfl
  | cons e es ih =>
    rw [erasureEvents, ih, List.length_cons, List.range_succ_eq_map, List.map_cons, List.map_map]
    simp [Function.comp_def, Nat.add_assoc, Nat.add_comm 1]

/-- A read of STATUS answers it and changes nothing else, in any phase (R68, R70(c)). -/
theorem runEvent_readStatus (p : Params) {s : State} (hr : s.inReset = false) :
    runEvent (readEvent p .status) s = .next (s.withResponse (.data s.statusWord)) := by
  refine (hostAccess_read hr (resolve_status s.params .read)).trans ?_
  rw [State.hostRead_current (by simp [Location.isMemory]), State.readLocation]

theorem runEvents_cons {e : Event} {s t : State} (h : runEvent e s = .next t) (es : List Event) :
    runEvents (e :: es) s = runEvents es t := by
  rw [runEvents, h]

/-- Reads of STATUS change the port's answer only, however many they are. -/
theorem runEvents_readStatus (p : Params) (n : Nat) (es : List Event) {s : State} (hr : s.inReset = false) :
    ∃ r, runEvents (List.replicate n (readEvent p .status) ++ es) s = runEvents es (s.withResponse r) := by
  induction n generalizing s with
  | zero => exact ⟨s.response, rfl⟩
  | succ n ih =>
    obtain ⟨r, h⟩ := ih (s := s.withResponse (.data s.statusWord)) hr
    exact ⟨r, (runEvents_cons (runEvent_readStatus p hr) _).trans h⟩

/-- A read of STATUS on an Idle CORE ends WAIT: it finds BUSY = 0 (R33, R97). -/
theorem runEvents_lastRead (p : Params) {s : State} (hr : s.inReset = false) (hi : s.phase = .idle) :
    ∃ t, runEvents [readEvent p .status] s = .next t ∧ t.phase = .idle ∧
      ∃ v : Word, t.response = .data v ∧ v.getLsbD 0 = false := by
  obtain ⟨hbusy, -⟩ := s.statusWord_flags
  exact ⟨_, runEvents_cons (runEvent_readStatus p hr) [], hi, s.statusWord, rfl, hbusy.trans (Phase.isBusy_eq_false.mpr hi)⟩

/-- WAIT ends Idle with a read that finds BUSY = 0: at once, or after the completion the CORE's turn takes (R97, R202). -/
theorem runLine_wait (polls : Nat) {s : State} (hr : s.inReset = false) :
    ∃ t, runLine (.wait polls) s = .next t ∧ t.phase = .idle ∧
      ∃ v : Word, t.response = .data v ∧ v.getLsbD 0 = false := by
  unfold runLine expandLine waitEvents
  cases hp : s.phase with
  | idle => exact runEvents_lastRead s.params hr hp
  | busy op =>
    obtain ⟨r, hpolls⟩ := runEvents_readStatus s.params polls [.coreTurn, readEvent s.params .status] hr
    obtain ⟨u, hu⟩ := exec_answers op.instr (s.withResponse r)
    have hturn : runEvent .coreTurn (s.withResponse r) = .next u := by simp [runEvent, coreTurn, hp, hu]
    obtain ⟨hidle, -, -⟩ := exec_pending_completes hu
    obtain ⟨hframe, -⟩ := exec_frame hu
    have hreset : u.inReset = false := (congrArg State.inReset hframe).trans hr
    obtain ⟨t, hlast, hend⟩ := runEvents_lastRead s.params hreset hidle
    exact ⟨t, hpolls.trans ((runEvents_cons hturn _).trans hlast), hend⟩

end Sys2Proof.Machine
end

section

open Sys2Proof Sys2Proof.Machine

/-- Settles O59: a name's address is its location's, which the map gives back, and each line expands by definition. -/
theorem scriptAddressesReachTheirLocations : Obligations.ScriptAddressesReachTheirLocations := by
  unfold Obligations.ScriptAddressesReachTheirLocations
  intro p hp
  have hname (l : Location) (hl : l.inRegion p) : locate p (BitVec.ofNat 32 l.address).toNat = some l :=
    locate_ofNat_address hp hl
  have hword {n size : Nat} (h : n < size) : 4 * n < 4 * size := by omega
  refine ⟨⟨rfl, rfl, rfl, rfl, rfl, rfl, rfl, rfl, rfl, rfl, rfl⟩, fun _ => rfl, fun i hi => hname (.erase i) hi,
    fun n hn => hname (.gen _) (hword hn), fun r hr q hq => hname (.bm _) (hword (cell_lt hr hq)),
    fun r hr q hq => hname (.invm _) (hword (cell_lt hr hq)), fun a ha _ => hname (.arena a) ha,
    fun _ _ _ => ⟨rfl, rfl, rfl⟩, fun _ _ => rfl, fun _ => rfl, fun _ es _ => ?_, fun _ k m w ps hk hm hw hps hsize => ?_,
    fun _ => ⟨rfl, rfl⟩, fun _ => rfl, fun s polls hparams hr => ?_⟩
  · rw [expandLine, erasureEvents_eq]
    simp only [Nat.zero_add]
    rfl
  · have hfits {n : Nat} (h : n < 2 ^ 32) : (BitVec.ofNat 32 n).toNat = n := (BitVec.toNat_ofNat n 32).trans (Nat.mod_eq_of_lt h)
    exact ⟨_, _, _, _, _, hfits hk, hfits hm, hfits hw, hfits hps, hfits hsize, rfl⟩
  · subst hparams
    exact ⟨rfl, runLine_wait polls hr⟩

end

section
/-! EXPAND: what its entry check says (40_expander.md R111), and every bit of BM after its block write (R112, R114); the multiples
of the elements 0 and 1 by powers of x (R116). -/

namespace Sys2Proof.Machine

/-- A field element has no bit from w on. -/
theorem getLsbD_of_toNat_lt {w b : Nat} {a : Word} (ha : a.toNat < 2 ^ w) (hb : w ≤ b) : a.getLsbD b = false :=
  Nat.testBit_lt_two_pow (ha.trans_le (Nat.pow_le_pow_right (by decide) hb))

theorem xtime_zero (w : Nat) (low : Word) : xtime w low 0#32 = 0#32 := by
  simp [xtime]

/-- Every multiple of 0 by a power of x is 0 (R116(a)). -/
theorem xtimePow_zero_elem (w : Nat) (low : Word) (n : Nat) : xtimePow w low n 0#32 = 0#32 := by
  induction n with
  | zero => rfl
  | succ n ih => rw [xtimePow_succ, ih, xtime_zero]

/-- Of the element x^c bit c alone is set, for c < w (R11, R116(b)). -/
theorem getLsbD_xtimePow_one {w : Nat} (hw : w ≤ 32) (low : Word) {c : Nat} (hc : c < w) (b : Nat) :
    (xtimePow w low c 1#32).getLsbD b = decide (b = c) := by
  rw [← BitVec.testBit_toNat, toNat_xtimePow_one hw low hc, Nat.testBit_two_pow]
  exact decide_eq_decide.mpr eq_comm

namespace State

theorem entriesOk_iff {s : State} :
    s.entriesOk = true ↔ ∀ i < s.opM, ∀ j < s.opK, (s.genEntry i j).toNat < 2 ^ s.opW := by
  simp [entriesOk]

theorem entriesOk_eq_false_iff {s : State} :
    s.entriesOk = false ↔ ∃ i < s.opM, ∃ j < s.opK, 2 ^ s.opW ≤ (s.genEntry i j).toNat := by
  simp [entriesOk]

/-- With legal parameters a checked configuration has W ≤ 32 (R6, R212). -/
theorem opW_le {s : State} (hp : s.params.sizesLegal = true) (hcfg : s.cfgOk = true) : s.opW ≤ 32 := by
  obtain ⟨-, -, ⟨-, hmax⟩, -⟩ := Params.bounds_of_sizesLegal hp
  obtain ⟨-, -, -, -, -, hw⟩ := cfgOk_bounds hcfg
  exact hw.trans hmax

/-- With legal parameters and a checked configuration POLY_LOW[W] is a field element (R6, R212). -/
theorem opPoly_lt {s : State} (hp : s.params.sizesLegal = true) (hcfg : s.cfgOk = true) :
    s.opPoly.toNat < 2 ^ s.opW := by
  obtain ⟨-, -, -, -, h1, hw⟩ := cfgOk_bounds hcfg
  exact Params.polyLowAt_lt hp h1 hw

/-- Bit (b, c) of sub-block (i, j) of the expansion is bit b of G(i, j) · 2^c (R112, R113). -/
theorem expandBit_subBlock (s : State) (i j : Nat) {b c : Nat} (hb : b < s.opW) (hc : c < s.opW) :
    s.expandBit (i * s.opW + b) (j * s.opW + c) = (xtimePow s.opW s.opPoly c (s.genEntry i j)).getLsbD b := by
  obtain ⟨hi, hbmod⟩ := div_mod_cell (i := i) hb
  obtain ⟨hj, hcmod⟩ := div_mod_cell (i := j) hc
  rw [expandBit, hi, hbmod, hj, hcmod]

/-- BM after EXPAND's writes (R112, R114). -/
def expandedBm (s : State) : Memory := writeBlock s.bm s.params.rwWords (s.opM * s.opW) s.opN s.expandBit

/-- A bit of a sub-block after EXPAND's writes (R112). -/
theorem readBit_expandedBm_subBlock {s : State} (hbm : s.bm.wf = true) (hcfg : s.cfgOk = true) {i j b c : Nat}
    (hi : i < s.opM) (hj : j < s.opK) (hb : b < s.opW) (hc : c < s.opW) :
    readBit s.expandedBm s.params.rwWords (i * s.opW + b) (j * s.opW + c) =
      (xtimePow s.opW s.opPoly c (s.genEntry i j)).getLsbD b := by
  have hcol : j * s.opW + c < s.opN := cell_lt hj hc
  rw [expandedBm, readBit_writeBlock hbm (cols_le hcfg) _ (hcol.trans_le (cols_le hcfg)), if_pos ⟨cell_lt hi hb, hcol⟩,
    s.expandBit_subBlock i j hb hc]

/-- EXPAND's writes keep every bit outside the block (R114). -/
theorem readBit_expandedBm_outside {s : State} (hbm : s.bm.wf = true) (hcfg : s.cfgOk = true) {r c : Nat}
    (hc : c < 32 * s.params.rwWords) (hout : s.opM * s.opW ≤ r ∨ s.opN ≤ c) :
    readBit s.expandedBm s.params.rwWords r c = s.bmBit r c := by
  rw [expandedBm, readBit_writeBlock hbm (cols_le hcfg) _ hc, if_neg (by omega), bmBit]

end State

/-- EXPAND whose checks pass completes with its block written (R112, R202). -/
theorem exec_expand_of_checks {s : State} (hcfg : s.cfgOk = true) (hentries : s.entriesOk = true) :
    exec .expand s = .next ((s.withBm s.expandedBm).complete .noError) := by
  rcases expandEffect_cases s with ⟨-, -, heffect⟩ | ⟨hbad, -⟩
  · rw [exec_expand, heffect]; rfl
  · simp [hcfg, hentries] at hbad

/-- EXPAND with a check that fails reports CONFIG and writes nothing (R111, R115). -/
theorem exec_expand_of_failed_check {s : State} (hbad : s.cfgOk = false ∨ s.entriesOk = false) :
    exec .expand s = .next (s.complete .config) := by
  rcases expandEffect_cases s with ⟨hcfg, hentries, -⟩ | ⟨-, heffect⟩
  · simp [hcfg, hentries] at hbad
  · rw [exec_expand, heffect, finish_error]

/-- EXPAND with ERR = 0 passed its checks, and BM holds the expansion (R111, R112). -/
theorem checks_of_exec_expand {s t : State} (h : exec .expand s = .next t) (herr : t.err = .noError) :
    s.cfgOk = true ∧ s.entriesOk = true ∧ t = (s.withBm s.expandedBm).complete .noError := by
  rcases exec_cases (by decide) h with ⟨c, hc, rfl⟩ | ⟨-, hcfg, hentries, ht⟩ | ⟨hi, -⟩ | ⟨hi, -⟩ | ⟨hi, -⟩
  · exact absurd herr hc
  · exact ⟨hcfg, hentries, ht⟩
  all_goals cases hi

/-- Bit (b, c) of sub-block (i, j) after EXPAND with ERR = 0 is bit b of G(i, j) · 2^c (R112). -/
theorem bmBit_of_exec_expand {s t : State} (hbm : s.bm.wf = true) (h : exec .expand s = .next t) (herr : t.err = .noError)
    {i j b c : Nat} (hi : i < s.opM) (hj : j < s.opK) (hb : b < s.opW) (hc : c < s.opW) :
    t.bmBit (i * s.opW + b) (j * s.opW + c) = (xtimePow s.opW s.opPoly c (s.genEntry i j)).getLsbD b := by
  obtain ⟨hcfg, -, rfl⟩ := checks_of_exec_expand h herr
  exact State.readBit_expandedBm_subBlock hbm hcfg hi hj hb hc

end Sys2Proof.Machine
end

section

open Sys2Proof Sys2Proof.Machine

/-- Settles O30: row b of the sub-block against the bits of a is bit b of the product as R12 sums it, and neither has a bit from W
on. -/
theorem expandFieldLaw : Obligations.ExpandFieldLaw := by
  unfold Obligations.ExpandFieldLaw
  intro s t hp hbm h herr i hi j hj a _
  obtain ⟨hcfg, hentries, -⟩ := checks_of_exec_expand h herr
  refine BitVec.eq_of_getLsbD_eq fun b hb32 => ?_
  rw [getLsbD_packRow, getLsbD_gfMul, decide_eq_true hb32, Bool.true_and]
  by_cases hb : b < s.opW
  · rw [decide_eq_true hb, Bool.true_and]
    exact xorSum_congr fun c hc => by rw [bmBit_of_exec_expand hbm h herr hi hj hb hc, Bool.and_comm]
  · have hterm (c : Nat) : (xtimePow s.opW s.opPoly c (s.genEntry i j)).getLsbD b = false :=
      getLsbD_of_toNat_lt (xtimePow_lt (State.opW_le hp hcfg) (State.opPoly_lt hp hcfg)
        (State.entriesOk_iff.mp hentries i hi j hj) c) (not_lt.mp hb)
    simp only [hb, hterm, decide_false, Bool.false_and, Bool.and_false, xorSum_false]

/-- Settles O28: inside the block each bit is the expansion's, outside it the old one. -/
theorem expandWritesTheBitMatrix : Obligations.ExpandWritesTheBitMatrix := by
  unfold Obligations.ExpandWritesTheBitMatrix
  intro s hbm hcfg hentries
  exact ⟨s.expandedBm, (exec_expand_of_checks hcfg hentries).trans (congrArg _ complete_noError),
    fun i hi j hj b hb c hc => State.readBit_expandedBm_subBlock hbm hcfg hi hj hb hc,
    fun r c hc hout => State.readBit_expandedBm_outside hbm hcfg hc hout⟩

/-- Settles O29: a failed check gives CONFIG, and with both checks passed ERR is 0. -/
theorem expandReportsConfig : Obligations.ExpandReportsConfig := by
  unfold Obligations.ExpandReportsConfig
  intro s
  have hentries : s.entriesOk = false ↔
      ∃ i < s.opM, ∃ j < s.opK, 2 ^ s.opW ≤ (readWord s.gen (4 * (i * s.opK + j))).toNat := State.entriesOk_eq_false_iff
  rw [← hentries, ← complete_error (by decide)]
  refine ⟨exec_expand_of_failed_check, fun h => ?_⟩
  by_contra hpass
  simp only [not_or, Bool.not_eq_false] at hpass
  rw [exec_expand_of_checks hpass.1 hpass.2] at h
  injection h with hstate
  cases congrArg State.err hstate

/-- Settles O31: every multiple of 0 is 0, and the multiple of 1 in column c is 2^c. -/
theorem expandOfZeroAndOne : Obligations.ExpandOfZeroAndOne := by
  unfold Obligations.ExpandOfZeroAndOne
  intro s t hp hbm h herr i hi j hj b hb c hc
  obtain ⟨hcfg, -, -⟩ := checks_of_exec_expand h herr
  rw [bmBit_of_exec_expand hbm h herr hi hj hb hc]
  refine ⟨fun h0 => ?_, fun h1 => ?_⟩
  · rw [h0, xtimePow_zero_elem, BitVec.getLsbD_zero]
  · rw [h1, getLsbD_xtimePow_one (State.opW_le hp hcfg) _ hc]

end

section
/-! The field product (00_scope.md R12): it commutes with multiplication by powers of x, so in both factors it is a sum over the powers
x^(c+n), and it is commutative. -/

namespace Sys2Proof.Machine

/-- A product with a multiple of e by a power of x is that multiple of the product (R11, R12). -/
theorem gfMul_xtimePow (w : Nat) (low a e : Word) (n : Nat) :
    gfMul w low a (xtimePow w low n e) = xtimePow w low n (gfMul w low a e) := by
  have hswap (c : Nat) : xtimePow w low c (xtimePow w low n e) = xtimePow w low n (xtimePow w low c e) := by
    rw [← xtimePow_add, ← xtimePow_add, Nat.add_comm]
  unfold gfMul
  rw [← List.foldl_hom (xtimePow w low n)
    (g₂ := fun acc c => if a.getLsbD c then acc ^^^ xtimePow w low c (xtimePow w low n e) else acc), xtimePow_zero_elem]
  intro acc c
  rw [hswap, ← xtimePow_xor, apply_ite (xtimePow w low n)]

/-- 1 is a right unit of the field product (R12). -/
theorem gfMul_one {w : Nat} (hw : w ≤ 32) (low : Word) {a : Word} (ha : a.toNat < 2 ^ w) : gfMul w low a 1#32 = a := by
  refine BitVec.eq_of_getLsbD_eq fun b _ => ?_
  have hbits : (gfMul w low a 1#32).getLsbD b = xorSum w (fun c => a.getLsbD c && decide (b = c)) := by
    rw [getLsbD_gfMul]
    exact xorSum_congr fun c hc => by rw [getLsbD_xtimePow_one hw low hc]
  rw [hbits]
  by_cases hb : b < w
  · rw [xorSum_single hb fun c _ hcb => by simp [Ne.symm hcb]]
    simp
  · rw [xorSum_congr (g := fun _ => false) fun c hc => by simp [show b ≠ c by omega], xorSum_false,
      getLsbD_of_toNat_lt ha (not_lt.mp hb)]

/-- The field product as a sum over the bits of both factors, each pair giving a power of x (R11, R12). -/
theorem getLsbD_gfMul_powers {w : Nat} (hw : w ≤ 32) (low a : Word) {e : Word} (he : e.toNat < 2 ^ w) (b : Nat) :
    (gfMul w low a e).getLsbD b = xorSum w (fun c => xorSum w (fun n =>
      a.getLsbD c && (e.getLsbD n && (xtimePow w low (n + c) 1#32).getLsbD b))) := by
  rw [getLsbD_gfMul]
  refine xorSum_congr fun c _ => ?_
  have hmultiple : xtimePow w low c e = gfMul w low e (xtimePow w low c 1#32) := by
    rw [gfMul_xtimePow, gfMul_one hw low he]
  rw [hmultiple, getLsbD_gfMul, and_xorSum]
  exact xorSum_congr fun n _ => by rw [xtimePow_add]

/-- The field product is commutative (R12). -/
theorem gfMul_comm {w : Nat} (hw : w ≤ 32) (low : Word) {a e : Word} (ha : a.toNat < 2 ^ w) (he : e.toNat < 2 ^ w) :
    gfMul w low a e = gfMul w low e a := by
  refine BitVec.eq_of_getLsbD_eq fun b _ => ?_
  rw [getLsbD_gfMul_powers hw low a he, getLsbD_gfMul_powers hw low e ha, xorSum_comm]
  exact xorSum_congr fun n _ => xorSum_congr fun c _ => by rw [Nat.add_comm c n, Bool.and_left_comm]

/-- A product with a field element has no bit from w on (R12). -/
theorem getLsbD_gfMul_of_le {w : Nat} (hw : w ≤ 32) {low : Word} (hlow : low.toNat < 2 ^ w) (a : Word) {e : Word}
    (he : e.toNat < 2 ^ w) {b : Nat} (hb : w ≤ b) : (gfMul w low a e).getLsbD b = false := by
  have hterm (c : Nat) : (xtimePow w low c e).getLsbD b = false := getLsbD_of_toNat_lt (xtimePow_lt hw hlow he c) hb
  simp only [getLsbD_gfMul, hterm, Bool.and_false, xorSum_false]

end Sys2Proof.Machine

namespace Sys2Proof.Safety

open Sys2Proof.Machine

/-- A sum of field elements bit by bit. -/
theorem getLsbD_fieldSum (n : Nat) (f : Nat → Word) (b : Nat) :
    (fieldSum n f).getLsbD b = xorSum n (fun j => (f j).getLsbD b) := by
  unfold fieldSum
  induction n with
  | zero => simp
  | succ n ih =>
    rw [List.range_succ, List.foldl_append, List.foldl_cons, List.foldl_nil, BitVec.getLsbD_xor, ih, xorSum_succ]

/-- Bit c of the element in a lane is the lane's bit of plane c, for c below W ≤ 32 (R136). -/
theorem getLsbD_laneElement {s : State} (hw : s.opW ≤ 32) (m : Memory) (d o x c : Nat) :
    (laneElement s m d o x).getLsbD c = (decide (c < s.opW) && (m.read (s.planeAt d c + o)).getLsbD x) := by
  rw [laneElement, getLsbD_packRow]
  by_cases hc : c < s.opW
  · simp [hc, hc.trans_le hw]
  · simp [hc]

theorem laneElement_lt {s : State} (hw : s.opW ≤ 32) (m : Memory) (d o x : Nat) :
    (laneElement s m d o x).toNat < 2 ^ s.opW := by
  refine Nat.lt_pow_two_of_testBit _ fun c hc => ?_
  rw [BitVec.testBit_toNat, getLsbD_laneElement hw]
  simp [not_lt.mpr hc]

end Sys2Proof.Safety
end

section
/-! ENCODE: the arena after its writes, lane by lane (41_encoder.md R132, R133), what those writes depend on, and its report (R131,
R137). -/

namespace Sys2Proof.Machine

namespace State

/-- The bytes outside the coding devices are those of the data devices and those past all devices (R65). -/
theorem outside_codingDevices_iff {s : State} {x : Nat} :
    (∀ d ∈ s.codingDevices, ¬ s.inDevice d x) ↔ x < s.opK * s.opSize ∨ (s.opK + s.opM) * s.opSize ≤ x := by
  rcases Nat.eq_zero_or_pos s.opSize with hsize | hsize
  · simp [inDevice, hsize]
  · have hdevice (d : Nat) : s.inDevice d x ↔ x / s.opSize = d := by
      rw [Nat.div_eq_iff hsize]
      unfold inDevice
      omega
    simp only [hdevice, mem_codingDevices, ← Nat.div_lt_iff_lt_mul hsize, ← Nat.le_div_iff_mul_le hsize]
    exact ⟨fun h => by have := h (x / s.opSize); omega, by omega⟩

/-- Every lane of a coding plane after ENCODE's writes (R132). -/
theorem encodeArena_lane {s : State} (harena : s.arena.wf = true) (hshape : s.shapeOk = true) {i b o : Nat}
    (hi : i < s.opM) (hb : b < s.opW) (ho : o < s.opPs) (x : Nat) :
    (s.encodeArena.read (s.planeAt (s.opK + i) b + o)).getLsbD x =
      xorSum s.opK (fun j => xorSum s.opW (fun c =>
        s.bmBit (i * s.opW + b) (j * s.opW + c) && (s.arena.read (s.planeAt j c + o)).getLsbD x)) := by
  obtain ⟨-, hsize, -⟩ := shapeOk_facts hshape
  have hdev : s.opK + i ∈ s.codingDevices := mem_codingDevices.mpr (by omega)
  obtain ⟨hcoding, -⟩ := read_encodeInto hsize harena s.codingDevices s.arena
  rw [encodeArena, hcoding _ hdev b hb o ho, Nat.add_sub_cancel_left, codingPlane_lane s _ i b ho]

/-- ENCODE's writes keep every byte outside the coding devices (R133). -/
theorem encodeArena_outside {s : State} (harena : s.arena.wf = true) (hshape : s.shapeOk = true) {a : Nat}
    (ha : a < s.opK * s.opSize ∨ (s.opK + s.opM) * s.opSize ≤ a) : s.encodeArena.read a = s.arena.read a := by
  obtain ⟨-, hsize, -⟩ := shapeOk_facts hshape
  exact (read_encodeInto hsize harena s.codingDevices s.arena).2 a (outside_codingDevices_iff.mpr ha)

/-- A coding plane depends on the bytes of the data devices only (R132, R133). -/
theorem getD_codingPlane_congr {s : State} (hsize : s.opSize = s.opW * s.opPs) {src src' : Memory}
    (hsrc : ∀ a < s.opK * s.opSize, src.read a = src'.read a) (i b : Nat) {o : Nat} (ho : o < s.opPs) :
    (s.codingPlane src i b).getD o 0#8 = (s.codingPlane src' i b).getD o 0#8 := by
  refine BitVec.eq_of_getLsbD_eq fun x _ => ?_
  rw [codingPlane_lane s src i b ho, codingPlane_lane s src' i b ho]
  refine xorSum_congr fun j hj => xorSum_congr fun c hc => ?_
  have hdevice : (j + 1) * s.opSize ≤ s.opK * s.opSize := Nat.mul_le_mul_right _ hj
  rw [Nat.succ_mul] at hdevice
  rw [hsrc _ ((planeAt_inDevice hsize j hc ho).2.trans_le hdevice)]

/-- Encoding the devices `ds` depends on the data devices of the source and on the destination's bytes outside `ds` only (R133). -/
theorem encodeInto_congr {s : State} (hsize : s.opSize = s.opW * s.opPs) {ds : List Nat} {src src' dst dst' : Memory}
    (hwf : dst.wf = true) (hwf' : dst'.wf = true) (hsrc : ∀ a < s.opK * s.opSize, src.read a = src'.read a)
    (hdst : ∀ a, (∀ d ∈ ds, ¬ s.inDevice d a) → dst.read a = dst'.read a) :
    s.encodeInto ds src dst = s.encodeInto ds src' dst' := by
  refine Memory.ext_of_wf (wf_encodeInto hwf ds src) (wf_encodeInto hwf' ds src') fun a => ?_
  obtain ⟨hin, hout⟩ := read_encodeInto hsize hwf ds src
  obtain ⟨hin', hout'⟩ := read_encodeInto hsize hwf' ds src'
  by_cases h : ∀ d ∈ ds, ¬ s.inDevice d a
  · rw [hout a h, hout' a h, hdst a h]
  · push Not at h
    obtain ⟨d, hd, hda⟩ := h
    obtain ⟨b, hb, o, ho, rfl⟩ := inDevice_planeAt hsize hda
    rw [hin d hd b hb o ho, hin' d hd b hb o ho, getD_codingPlane_congr hsize hsrc _ b ho]

/-- ENCODE's writes do not depend on what the coding devices held before (R133). -/
theorem encodeArena_withArena {s : State} {m : Memory} (harena : s.arena.wf = true) (hm : m.wf = true)
    (hshape : s.shapeOk = true)
    (hagree : ∀ a, (a < s.opK * s.opSize ∨ (s.opK + s.opM) * s.opSize ≤ a) → m.read a = s.arena.read a) :
    (s.withArena m).encodeArena = s.encodeArena := by
  obtain ⟨-, hsize, -⟩ := shapeOk_facts hshape
  exact encodeInto_congr hsize hm harena (fun a ha => hagree a (.inl ha)) fun a ha =>
    hagree a (outside_codingDevices_iff.mp ha)

end State

/-- ENCODE whose checks pass completes with the coding devices written (R132, R202). -/
theorem exec_encode_of_checks {s : State} (hcfg : s.cfgOk = true) (hshape : s.shapeOk = true) :
    exec .encode s = .next ((s.withArena s.encodeArena).complete .noError) := by
  rcases encodeEffect_cases s with ⟨-, -, heffect⟩ | ⟨hbad, -⟩ | ⟨-, hbad, -⟩
  · rw [exec_encode, heffect, finish_ok]
  · simp [hcfg] at hbad
  · simp [hshape] at hbad

/-- ENCODE with ERR = 0 passed its checks and wrote the coding devices (R131, R132). -/
theorem checks_of_exec_encode {s t : State} (h : exec .encode s = .next t) (herr : t.err = .noError) :
    s.cfgOk = true ∧ s.shapeOk = true ∧ t = (s.withArena s.encodeArena).complete .noError := by
  rcases exec_cases (by decide) h with ⟨c, hc, rfl⟩ | ⟨hi, -⟩ | ⟨-, hcfg, hshape, ht⟩ | ⟨hi, -⟩ | ⟨hi, -⟩
  · exact absurd herr hc
  · cases hi
  · exact ⟨hcfg, hshape, ht⟩
  all_goals cases hi

end Sys2Proof.Machine
end

section

open Sys2Proof Sys2Proof.Machine Sys2Proof.Safety

/-- Settles O34: bit b of a coding lane sums, over the data devices j, bit b of x_j · g(i, j) as R12 sums it; the product is
commutative, and neither side has a bit from W on. -/
theorem encodeFieldLaw : Obligations.EncodeFieldLaw := by
  unfold Obligations.EncodeFieldLaw
  intro s t g hp harena hentries hexpands h herr i hi o ho x _
  obtain ⟨hcfg, hshape, rfl⟩ := checks_of_exec_encode h herr
  have hw := State.opW_le hp hcfg
  have hlane (j : Nat) := laneElement_lt hw s.arena j o x
  refine BitVec.eq_of_getLsbD_eq fun b _ => ?_
  rw [getLsbD_laneElement hw, getLsbD_fieldSum]
  by_cases hb : b < s.opW
  · rw [decide_eq_true hb, Bool.true_and, State.complete_arena, State.withArena_arena,
      State.encodeArena_lane harena hshape hi hb ho]
    refine xorSum_congr fun j hj => ?_
    rw [gfMul_comm hw _ (hentries i hi j hj) (hlane j), getLsbD_gfMul]
    exact xorSum_congr fun c hc => by
      rw [hexpands i hi j hj b hb c hc, getLsbD_laneElement hw, decide_eq_true hc, Bool.true_and, Bool.and_comm]
  · have hproduct (j : Nat) : (gfMul s.opW s.opPoly (g i j) (laneElement s s.arena j o x)).getLsbD b = false :=
      getLsbD_gfMul_of_le hw (State.opPoly_lt hp hcfg) _ (hlane j) (not_lt.mp hb)
    simp only [hb, hproduct, decide_false, Bool.false_and, xorSum_false]

/-- Settles O32: every lane of the coding planes is the tree's sum, every other byte the old one. -/
theorem encodeWritesTheCodingDevices : Obligations.EncodeWritesTheCodingDevices := by
  unfold Obligations.EncodeWritesTheCodingDevices
  intro s harena hcfg hshape
  exact ⟨s.encodeArena, (exec_encode_of_checks hcfg hshape).trans (congrArg _ complete_noError),
    fun i hi b hb o ho x _ => State.encodeArena_lane harena hshape hi hb ho x,
    fun a ha => State.encodeArena_outside harena hshape ha⟩

/-- Settles O33: the first check that fails decides the code, and a failed check writes nothing but STATUS. -/
theorem encodeReportsConfigThenShape : Obligations.EncodeReportsConfigThenShape := by
  unfold Obligations.EncodeReportsConfigThenShape
  intro s
  rw [← complete_error (by decide), ← complete_error (by decide), exec_encode]
  rcases encodeEffect_cases s with ⟨hcfg, hshape, -⟩ | ⟨hcfg, heffect⟩ | ⟨hcfg, hshape, heffect⟩
  · simp [hcfg, hshape]
  · simp [hcfg, heffect]
  · simp [hcfg, heffect]

/-- Settles O35: the checks do not read the arena, and the writes do not read the coding devices. -/
theorem encodeIgnoresOldCodingContent : Obligations.EncodeIgnoresOldCodingContent := by
  unfold Obligations.EncodeIgnoresOldCodingContent
  intro s m harena hm hcfg hshape hagree
  have hsame := State.encodeArena_withArena harena hm hshape hagree
  calc exec .encode (s.withArena m)
      = .next (((s.withArena m).withArena (s.withArena m).encodeArena).complete .noError) :=
        exec_encode_of_checks hcfg hshape
    _ = .next ((s.withArena s.encodeArena).complete .noError) := by rw [hsame]; rfl
    _ = exec .encode s := (exec_encode_of_checks hcfg hshape).symm

end

section
/-! Bit-matrices as matrices over GF(2) (42_inverter.md R152): an inverse on the right is the only one and is an inverse on the left
too. -/

namespace Sys2Proof.Machine

/-- A sum whose terms carry the k-th row of the identity is its k-th term. -/
theorem xorSum_decide_eq_and {n k : Nat} (hk : k < n) (f : Nat → Bool) :
    xorSum n (fun t => decide (k = t) && f t) = f k :=
  (xorSum_single hk fun t _ ht => by simp [ht.symm]).trans (by simp)

/-- The n × n part of a bit-matrix as a matrix over GF(2). -/
def toMatrix (n : Nat) (a : Nat → Nat → Bool) : Matrix (Fin n) (Fin n) (ZMod 2) :=
  .of fun r c => if a r c then 1 else 0

theorem toMatrix_inj {n : Nat} {a b : Nat → Nat → Bool} :
    toMatrix n a = toMatrix n b ↔ ∀ r < n, ∀ c < n, a r c = b r c := by
  have hbit (x y : Bool) : ((if x then 1 else 0 : ZMod 2) = if y then 1 else 0) ↔ x = y := by
    cases x <;> cases y <;> decide
  simp only [← Matrix.ext_iff, toMatrix, Matrix.of_apply, hbit, Fin.forall_iff]

theorem toMatrix_identityBit (n : Nat) : toMatrix n identityBit = 1 := by
  ext r c
  simp [toMatrix, identityBit, Matrix.one_apply, Fin.ext_iff]

/-- XOR and AND are the sum and the product of GF(2). -/
theorem ite_xorSum_and (n : Nat) (f g : Nat → Bool) :
    (if xorSum n (fun t => f t && g t) then 1 else 0 : ZMod 2) =
      ∑ t : Fin n, (if f t then 1 else 0) * (if g t then 1 else 0) := by
  have hbit (x y z : Bool) : (if x ^^ (y && z) then 1 else 0 : ZMod 2) =
      (if x then 1 else 0) + (if y then 1 else 0) * (if z then 1 else 0) := by
    cases x <;> cases y <;> cases z <;> decide
  induction n with
  | zero => simp
  | succ n ih => simp only [xorSum_succ, hbit, ih, Fin.sum_univ_castSucc, Fin.val_castSucc, Fin.val_last]

theorem toMatrix_matMul (n : Nat) (a b : Nat → Nat → Bool) :
    toMatrix n (matMul n a b) = toMatrix n a * toMatrix n b := by
  ext r c
  exact ite_xorSum_and n (a r) fun t => b t c

end Sys2Proof.Machine

namespace Sys2Proof.Safety

open Sys2Proof.Machine

variable {n : Nat} {a b : Nat → Nat → Bool}

theorem isInverse_iff_toMatrix : IsInverse n a b ↔ toMatrix n a * toMatrix n b = 1 := by
  rw [← toMatrix_matMul, ← toMatrix_identityBit, toMatrix_inj, IsInverse]

/-- An inverse on one side is an inverse on the other (R152). -/
theorem IsInverse.symm (h : IsInverse n a b) : IsInverse n b a := by
  rw [isInverse_iff_toMatrix] at *
  exact mul_eq_one_comm.mp h

/-- There is one inverse at most (R152). -/
theorem IsInverse.unique {b' : Nat → Nat → Bool} (h : IsInverse n a b) (h' : IsInverse n a b') :
    ∀ r < n, ∀ c < n, b' r c = b r c :=
  toMatrix_inj.mp (left_inv_eq_right_inv (isInverse_iff_toMatrix.mp h'.symm) (isInverse_iff_toMatrix.mp h))

/-- Being inverse is about the entries of the n × n part alone. -/
theorem IsInverse.congr {a' b' : Nat → Nat → Bool} (h : IsInverse n a b) (ha : ∀ r < n, ∀ c < n, a' r c = a r c)
    (hb : ∀ r < n, ∀ c < n, b' r c = b r c) : IsInverse n a' b' := by
  rw [isInverse_iff_toMatrix] at *
  rwa [toMatrix_inj.mpr ha, toMatrix_inj.mpr hb]

/-- A non-singular matrix takes no vector but zero to zero. -/
theorem IsInverse.kernel_eq_zero (h : IsInverse n a b) {x : Nat → Bool}
    (hx : ∀ r < n, xorSum n (fun t => a r t && x t) = false) {r : Nat} (hr : r < n) : x r = false :=
  calc x r = matMul n (matMul n b a) (fun t _ => x t) r 0 :=
        ((xorSum_congr fun t ht => by rw [h.symm r hr t ht, identityBit]).trans (xorSum_decide_eq_and hr x)).symm
    _ = matMul n b (matMul n a (fun t _ => x t)) r 0 := matMul_assoc n b a _ r 0
    _ = xorSum n (fun _ => false) := xorSum_congr fun t ht => by rw [matMul, hx t ht, Bool.and_false]
    _ = false := xorSum_false n

end Sys2Proof.Safety
end

section
/-! Gauss-Jordan elimination (42_inverter.md R153): every turn keeps the solutions of the augmented system T·x = B·y, which are those
of A·x = y, and makes one more column of T a column of the identity. -/

namespace Sys2Proof.Machine

variable {n : Nat}

/-- The product of a row with a vector over GF(2). -/
def dotBits (v : BitVec n) (x : Nat → Bool) : Bool := xorSum n (fun t => v.getLsbD t && x t)

theorem dotBits_xor (v w : BitVec n) (x : Nat → Bool) : dotBits (v ^^^ w) x = (dotBits v x ^^ dotBits w x) := by
  simp only [dotBits, BitVec.getLsbD_xor, Bool.and_xor_distrib_right, xorSum_xor]

theorem dotBits_xor_right (v : BitVec n) (x y : Nat → Bool) :
    dotBits v (fun t => x t ^^ y t) = (dotBits v x ^^ dotBits v y) := by
  simp only [dotBits, Bool.and_xor_distrib_left, xorSum_xor]

theorem dotBits_packRow (f x : Nat → Bool) : dotBits (packRow n f) x = xorSum n (fun t => f t && x t) :=
  xorSum_congr fun t ht => by rw [getLsbD_packRow, decide_eq_true ht, Bool.true_and]

theorem dotBits_zero (v : BitVec n) : dotBits v (fun _ => false) = false := by
  simp only [dotBits, Bool.and_false, xorSum_false]

/-- A row against the k-th unit vector is its k-th bit. -/
theorem dotBits_unit (v : BitVec n) {k : Nat} (hk : k < n) : dotBits v (fun t => decide (t = k)) = v.getLsbD k :=
  (xorSum_congr fun t _ => by rw [Bool.and_comm, decide_eq_decide.mpr eq_comm]).trans (xorSum_decide_eq_and hk v.getLsbD)

/-- The row's equation of the augmented system T·x = B·y. -/
def AugRow.Solved (row : AugRow n) (x y : Nat → Bool) : Prop := dotBits row.t x = dotBits row.b y

/-- Adding an equation that holds keeps the solutions of an equation. -/
theorem AugRow.solved_add {row other : AugRow n} {x y : Nat → Bool} (h : other.Solved x y) :
    (row.add other).Solved x y ↔ row.Solved x y := by
  rw [AugRow.Solved] at h
  simp only [AugRow.Solved, AugRow.add_t, AugRow.add_b, dotBits_xor, h, Bool.xor_left_inj]

/-- Row r of the working copy T with its row of B. -/
def rowAt (rows : List (AugRow n)) (r : Nat) : AugRow n := rows.getD r (AugRow.zero n)

/-- Swapping rows i and p is renaming the rows. -/
theorem rowAt_swapRows (rows : List (AugRow n)) (i p : Nat) {r : Nat} (hr : r < n) :
    rowAt (swapRows rows i p) r = rowAt rows (Equiv.swap i p r) := by
  rw [rowAt, getD_swapRows rows i p hr, Equiv.swap_apply_def, rowAt]
  split_ifs <;> rfl

theorem rowAt_clearColumn (rows : List (AugRow n)) (i : Nat) {r : Nat} (hr : r < n) :
    rowAt (clearColumn rows i) r =
      if r ≠ i ∧ (rowAt rows r).t.getLsbD i = true then (rowAt rows r).add (rowAt rows i) else rowAt rows r := by
  simpa [rowAt] using getD_clearColumn rows i hr

/-- The rows of B, bit by bit. -/
theorem rowsBit_map_b (rows : List (AugRow n)) (r c : Nat) : rowsBit (rows.map AugRow.b) r c = (rowAt rows r).b.getLsbD c :=
  congrArg (BitVec.getLsbD · c) (List.getD_map (n := r) rows (AugRow.zero n) AugRow.b)

theorem swap_lt {i p r : Nat} (hi : i < n) (hp : p < n) (hr : r < n) : Equiv.swap i p r < n := by
  rw [Equiv.swap_apply_def]
  split_ifs <;> assumption

/-! ### The solutions -/

/-- The vectors x and y solve the augmented system T·x = B·y. -/
def Solves (rows : List (AugRow n)) (x y : Nat → Bool) : Prop := ∀ r < n, (rowAt rows r).Solved x y

/-- The elimination starts from the system A·x = y. -/
theorem solves_augment_iff {a : Nat → Nat → Bool} {x y : Nat → Bool} :
    Solves (augment n a) x y ↔ ∀ r < n, xorSum n (fun t => a r t && x t) = y r := by
  refine forall₂_congr fun r hr => ?_
  have hy : xorSum n (fun c => decide (c = r) && y c) = y r := by
    simpa only [eq_comm] using xorSum_decide_eq_and hr y
  rw [rowAt, getD_augment a hr, AugRow.Solved, dotBits_packRow, dotBits_packRow, hy]

theorem solves_swapRows_iff {rows : List (AugRow n)} {i p : Nat} (hi : i < n) (hp : p < n) {x y : Nat → Bool} :
    Solves (swapRows rows i p) x y ↔ Solves rows x y := by
  constructor <;> intro h r hr
  · have hswap := h (Equiv.swap i p r) (swap_lt hi hp hr)
    rwa [rowAt_swapRows _ _ _ (swap_lt hi hp hr), Equiv.swap_apply_self] at hswap
  · rw [rowAt_swapRows rows i p hr]
    exact h _ (swap_lt hi hp hr)

theorem solves_clearColumn_iff {rows : List (AugRow n)} {i : Nat} (hi : i < n) {x y : Nat → Bool} :
    Solves (clearColumn rows i) x y ↔ Solves rows x y := by
  have key (hpivot : (rowAt rows i).Solved x y) : Solves (clearColumn rows i) x y ↔ Solves rows x y := by
    refine forall₂_congr fun r hr => ?_
    rw [rowAt_clearColumn rows i hr]
    split
    · exact AugRow.solved_add hpivot
    · rfl
  have hkept : rowAt (clearColumn rows i) i = rowAt rows i := by simp [rowAt_clearColumn rows i hi]
  exact ⟨fun h => (key (hkept ▸ h i hi)).mp h, fun h => (key (h i hi)).mpr h⟩

/-! ### The cleared columns -/

/-- Columns 0 .. k−1 of T are those of the identity. -/
def UnitColumns (rows : List (AugRow n)) (k : Nat) : Prop :=
  ∀ c < k, ∀ r < n, (rowAt rows r).t.getLsbD c = decide (r = c)

/-- Swapping rows from k on keeps the first k columns. -/
theorem unitColumns_swapRows {rows : List (AugRow n)} {k p : Nat} (hk : k < n) (hkp : k ≤ p) (hp : p < n)
    (h : UnitColumns rows k) : UnitColumns (swapRows rows k p) k := by
  intro c hc r hr
  rw [rowAt_swapRows rows k p hr, h c hc _ (swap_lt hk hp hr), Equiv.swap_apply_def]
  split_ifs <;> simp <;> omega

/-- Clearing column k by a row with a 1 there makes it a column of the identity, and keeps the first k columns. -/
theorem unitColumns_clearColumn {rows : List (AugRow n)} {k : Nat} (hk : k < n)
    (hpivot : (rowAt rows k).t.getLsbD k = true) (h : UnitColumns rows k) : UnitColumns (clearColumn rows k) (k + 1) := by
  intro c hc r hr
  rw [rowAt_clearColumn rows k hr]
  rcases Nat.lt_succ_iff_lt_or_eq.mp hc with hlt | rfl
  · have hzero : (rowAt rows k).t.getLsbD c = false := by simp [h c hlt k hk, hlt.ne']
    split <;> simp [h c hlt r hr, hzero]
  · by_cases hrc : r = c
    · simp [hrc, hpivot]
    · cases hbit : (rowAt rows r).t.getLsbD c <;> simp [hrc, hbit, hpivot]

/-- The k-th unit vector and the bits of column k above row k: where column k has no pivot, what T takes to zero. -/
def stopVector (rows : List (AugRow n)) (k t : Nat) : Bool :=
  decide (t = k) ^^ (decide (t < k) && (rowAt rows t).t.getLsbD k)

@[simp] theorem stopVector_self (rows : List (AugRow n)) (k : Nat) : stopVector rows k k = true := by simp [stopVector]

theorem dotBits_stopVector {rows : List (AugRow n)} {k r : Nat} (h : UnitColumns rows k) (hk : k < n) (hr : r < n) :
    dotBits (rowAt rows r).t (stopVector rows k) =
      ((rowAt rows r).t.getLsbD k ^^ (decide (r < k) && (rowAt rows r).t.getLsbD k)) := by
  have habove : dotBits (rowAt rows r).t (fun t => decide (t < k) && (rowAt rows t).t.getLsbD k) =
      (decide (r < k) && (rowAt rows r).t.getLsbD k) := by
    refine (xorSum_congr fun t _ => ?_).trans
      (xorSum_decide_eq_and hr fun t => decide (t < k) && (rowAt rows t).t.getLsbD k)
    by_cases htk : t < k
    · rw [h t htk r hr]
    · simp [htk]
  rw [← habove, ← dotBits_unit _ hk, ← dotBits_xor_right]
  rfl

/-! ### The elimination -/

/-- What holds before the turn at column k: the system has the solutions of A·x = y, and k columns are done. -/
structure Reduced (a : Nat → Nat → Bool) (rows : List (AugRow n)) (k : Nat) : Prop where
  solves : ∀ x y, Solves rows x y ↔ ∀ r < n, xorSum n (fun t => a r t && x t) = y r
  unitColumns : UnitColumns rows k

theorem reduced_augment (a : Nat → Nat → Bool) : Reduced a (augment n a) 0 where
  solves _ _ := solves_augment_iff
  unitColumns _ hc := absurd hc (Nat.not_lt_zero _)

/-- A turn with a pivot keeps the solutions and does one more column. -/
theorem Reduced.turn {a : Nat → Nat → Bool} {rows : List (AugRow n)} {k p : Nat} (hk : k < n) (h : Reduced a rows k)
    (hfind : pivotRow rows k = some p) : Reduced a (clearColumn (swapRows rows k p) k) (k + 1) := by
  obtain ⟨hkp, hp, hbit⟩ := pivotRow_some hfind
  have hpivot : (rowAt (swapRows rows k p) k).t.getLsbD k = true := by
    rw [rowAt_swapRows rows k p hk, Equiv.swap_apply_left]
    exact hbit
  exact {
    solves x y := (solves_clearColumn_iff hk).trans ((solves_swapRows_iff hk hp).trans (h.solves x y))
    unitColumns := unitColumns_clearColumn hk hpivot (unitColumns_swapRows hk hkp hp h.unitColumns) }

/-- Without a pivot in column k A takes a vector other than zero to zero. -/
theorem Reduced.kernel {a : Nat → Nat → Bool} {rows : List (AugRow n)} {k : Nat} (hk : k < n) (h : Reduced a rows k)
    (hfind : pivotRow rows k = none) :
    ∃ x : Nat → Bool, x k = true ∧ ∀ r < n, xorSum n (fun t => a r t && x t) = false := by
  refine ⟨stopVector rows k, stopVector_self rows k, (h.solves _ fun _ => false).mp fun r hr => ?_⟩
  rw [AugRow.Solved, dotBits_stopVector h.unitColumns hk hr, dotBits_zero]
  by_cases hrk : r < k
  · simp [hrk]
  · have hbit : (rowAt rows r).t.getLsbD k = false := pivotRow_none hfind r (not_lt.mp hrk) hr
    simp [hbit]

/-- The turns from column k on: all of them end with T the identity, and a stop shows that A takes a vector other than zero to
zero. -/
theorem Reduced.turns {a : Nat → Nat → Bool} {k m : Nat} (hkm : k + m = n) {rows : List (AugRow n)} (h : Reduced a rows k) :
    (∃ done, eliminateColumns (List.range' k m) rows = some done ∧ Reduced a done n) ∨
    (eliminateColumns (List.range' k m) rows = none ∧
      ∃ c < n, ∃ x : Nat → Bool, x c = true ∧ ∀ r < n, xorSum n (fun t => a r t && x t) = false) := by
  induction m generalizing k rows with
  | zero =>
    obtain rfl : k = n := hkm
    exact .inl ⟨rows, rfl, h⟩
  | succ m ih =>
    have hk : k < n := by omega
    simp only [List.range'_succ, eliminateColumns, eliminateColumn]
    cases hfind : pivotRow rows k with
    | none => exact .inr ⟨rfl, k, hk, h.kernel hk hfind⟩
    | some p => exact ih (by omega) (h.turn hk hfind)

end Sys2Proof.Machine

namespace Sys2Proof.Safety

open Sys2Proof.Machine

variable {n : Nat} {a : Nat → Nat → Bool}

/-- With every column done the augmented rows are the inverse (R153). -/
theorem isInverse_of_reduced {rows : List (AugRow n)} (h : Reduced a rows n) :
    IsInverse n a (rowsBit (rows.map AugRow.b)) := by
  intro r hr c hc
  have hsolves : Solves rows (fun t => rowsBit (rows.map AugRow.b) t c) (fun t => decide (t = c)) := fun t ht =>
    calc dotBits (rowAt rows t).t (fun u => rowsBit (rows.map AugRow.b) u c)
        = xorSum n (fun u => decide (t = u) && rowsBit (rows.map AugRow.b) u c) :=
          xorSum_congr fun u hu => by rw [h.unitColumns u hu t ht]
      _ = rowsBit (rows.map AugRow.b) t c := xorSum_decide_eq_and ht _
      _ = (rowAt rows t).b.getLsbD c := rowsBit_map_b rows t c
      _ = dotBits (rowAt rows t).b (fun u => decide (u = c)) := (dotBits_unit _ hc).symm
  exact (h.solves _ _).mp hsolves r hr

/-- `gf2_inv` (R152): an inverse, or SINGULAR and there is none. -/
theorem gf2Inv_cases (n : Nat) (a : Nat → Nat → Bool) :
    (∃ rows, gf2Inv n a = some rows ∧ IsInverse n a (rowsBit rows)) ∨ (gf2Inv n a = none ∧ ¬ NonSingular n a) := by
  unfold gf2Inv
  rw [List.range_eq_range']
  rcases (reduced_augment a).turns (Nat.zero_add n) with ⟨done, hdone, h⟩ | ⟨hstop, c, hc, x, hx, hkernel⟩
  · exact .inl ⟨_, by rw [hdone], isInverse_of_reduced h⟩
  · refine .inr ⟨by rw [hstop], fun ⟨b, hb⟩ => ?_⟩
    simp [hb.kernel_eq_zero hkernel hc] at hx

theorem isInverse_of_gf2Inv {rows : List (BitVec n)} (h : gf2Inv n a = some rows) : IsInverse n a (rowsBit rows) := by
  rcases gf2Inv_cases n a with ⟨rows', h', hinv⟩ | ⟨h', -⟩
  · cases h.symm.trans h'
    exact hinv
  · cases h.symm.trans h'

theorem gf2Inv_eq_none_iff : gf2Inv n a = none ↔ ¬ NonSingular n a := by
  rcases gf2Inv_cases n a with ⟨rows, h, hinv⟩ | ⟨h, hsing⟩
  · simp only [h, reduceCtorEq, false_iff, not_not]
    exact ⟨_, hinv⟩
  · exact iff_of_true h hsing

end Sys2Proof.Safety
end

section

open Sys2Proof Sys2Proof.Machine Sys2Proof.Safety

/-- Settles O36: the elimination ends with the inverse or stops at a matrix with a kernel, and an inverse on one side is the inverse on
both sides and the only one. -/
theorem gaussJordanComputesTheInverse : Obligations.GaussJordanComputesTheInverse := by
  unfold Obligations.GaussJordanComputesTheInverse
  intro n a
  refine ⟨fun rows h => ?_, gf2Inv_eq_none_iff⟩
  have hinv := isInverse_of_gf2Inv h
  exact ⟨hinv, hinv.symm, fun b hb => hinv.unique hb⟩

end

section
/-! INVERT (42_inverter.md R151, R154 to R157): its two outcomes with a legal configuration, and INVM after it. -/

namespace Sys2Proof.Machine

open Sys2Proof.Safety

/-- Canonical memories with the same stored matrix bits are equal. -/
theorem Memory.ext_of_readBit {m m' : Memory} (hm : m.wf = true) (hm' : m'.wf = true) {rw : Nat} (hrw : 0 < rw)
    (h : ∀ r c, c < 32 * rw → readBit m rw r c = readBit m' rw r c) : m = m' := by
  refine Memory.ext_of_wf hm hm' fun a => BitVec.eq_of_getLsbD_eq fun b hb => ?_
  have hlt : a % (4 * rw) < 4 * rw := Nat.mod_lt _ (by omega)
  have hdiv : (8 * (a % (4 * rw)) + b) / 8 = a % (4 * rw) := by omega
  have hmod : (8 * (a % (4 * rw)) + b) % 8 = b := by omega
  have hcell : bitCell rw (a / (4 * rw)) (8 * (a % (4 * rw)) + b) = a := by
    rw [bitCell, hdiv, Nat.mul_left_comm, Nat.mul_comm (a / _), Nat.div_add_mod]
  have hbit := h (a / (4 * rw)) (8 * (a % (4 * rw)) + b) (by omega)
  rwa [readBit, readBit, hcell, hmod] at hbit

namespace State

theorem rwWords_pos {s : State} (hcfg : s.cfgOk = true) : 0 < s.params.rwWords := by
  obtain ⟨hk, -, -, -, hw, -⟩ := cfgOk_bounds hcfg
  have hn : 0 < s.opN := Nat.mul_pos hk hw
  have hcols := cols_le hcfg
  omega

/-- A block bit of INVM after INVERT's writes (R154). -/
theorem invmBit_storeInverse_block {s : State} (hinvm : s.invm.wf = true) (hcfg : s.cfgOk = true) (rows : List (BitVec s.opN))
    {r c : Nat} (hr : r < s.opN) (hc : c < s.opN) : (s.storeInverse rows).invmBit r c = rowsBit rows r c :=
  (readBit_writeBlock hinvm (cols_le hcfg) _ (hc.trans_le (cols_le hcfg))).trans (if_pos ⟨hr, hc⟩)

/-- Every other stored bit of INVM after INVERT's writes (R155). -/
theorem invmBit_storeInverse_outside {s : State} (hinvm : s.invm.wf = true) (hcfg : s.cfgOk = true)
    (rows : List (BitVec s.opN)) {r c : Nat} (hc : c < 32 * s.params.rwWords) (hout : s.opN ≤ r ∨ s.opN ≤ c) :
    (s.storeInverse rows).invmBit r c = s.invmBit r c :=
  (readBit_writeBlock hinvm (cols_le hcfg) _ hc).trans (if_neg (by omega))

theorem wf_storeInverse {s : State} (hinvm : s.invm.wf = true) (rows : List (BitVec s.opN)) :
    (s.storeInverse rows).invm.wf = true :=
  wf_writeBlock hinvm _ _ _ _

/-- INVERT's writes followed by writes that put the first block back restore INVM (R157(f)). -/
theorem invm_storeInverse_storeInverse {s : State} (hinvm : s.invm.wf = true) (hcfg : s.cfgOk = true)
    (rows : List (BitVec s.opN)) {back : List (BitVec (s.storeInverse rows).opN)}
    (hback : ∀ r < s.opN, ∀ c < s.opN, rowsBit back r c = s.invmBit r c) :
    ((s.storeInverse rows).storeInverse back).invm = s.invm := by
  have hwf := wf_storeInverse hinvm rows
  refine Memory.ext_of_readBit (rw := s.params.rwWords) (wf_storeInverse hwf back) hinvm (rwWords_pos hcfg)
    fun r c hc => ?_
  by_cases hin : r < s.opN ∧ c < s.opN
  · exact (invmBit_storeInverse_block hwf hcfg back hin.1 hin.2).trans (hback r hin.1 c hin.2)
  · have hout : s.opN ≤ r ∨ s.opN ≤ c := by omega
    exact (invmBit_storeInverse_outside hwf hcfg back hc hout).trans
      (invmBit_storeInverse_outside hinvm hcfg rows hc hout)

end State

/-- INVERT of a legal configuration (R154): its inverse stored, or SINGULAR and there is none. -/
theorem exec_invert_of_cfgOk {s : State} (hcfg : s.cfgOk = true) :
    (∃ rows, IsInverse s.opN s.invmBit (rowsBit rows) ∧ exec .invert s = .next ((s.storeInverse rows).complete .noError)) ∨
    (¬ NonSingular s.opN s.invmBit ∧ exec .invert s = .next (s.complete .singular)) := by
  rcases invertEffect_cases s with ⟨-, rows, hrows, heffect⟩ | ⟨hbad, -⟩ | ⟨-, hnone, heffect⟩
  · exact .inl ⟨rows, isInverse_of_gf2Inv hrows, by rw [exec_invert, heffect, finish_ok]⟩
  · simp [hcfg] at hbad
  · exact .inr ⟨gf2Inv_eq_none_iff.mp hnone, by rw [exec_invert, heffect, finish_error]⟩

/-- INVERT with ERR = 0 passed its check and stored the inverse (R151, R154). -/
theorem checks_of_exec_invert {s t : State} (h : exec .invert s = .next t) (herr : t.err = .noError) :
    s.cfgOk = true ∧ ∃ rows, IsInverse s.opN s.invmBit (rowsBit rows) ∧ t = (s.storeInverse rows).complete .noError := by
  rcases exec_cases (by decide) h with ⟨c, hc, rfl⟩ | ⟨hi, -⟩ | ⟨hi, -⟩ | ⟨-, hcfg, rows, hrows, ht⟩ | ⟨hi, -⟩
  · exact absurd herr hc
  · cases hi
  · cases hi
  · exact ⟨hcfg, rows, isInverse_of_gf2Inv hrows, ht⟩
  · cases hi

end Sys2Proof.Machine
end

section

open Sys2Proof Sys2Proof.Machine Sys2Proof.Safety

/-- Settles O37: the other outcome needs a singular matrix; the block's bits are those of the inverse, the others the old ones. -/
theorem invertStoresTheInverse : Obligations.InvertStoresTheInverse := by
  unfold Obligations.InvertStoresTheInverse
  intro s hinvm hcfg hns
  rcases exec_invert_of_cfgOk hcfg with ⟨rows, hinv, hexec⟩ | ⟨hsing, -⟩
  · exact ⟨(s.storeInverse rows).invm, hexec.trans (congrArg _ complete_noError),
      hinv.congr (fun _ _ _ _ => rfl) fun r hr c hc => State.invmBit_storeInverse_block hinvm hcfg rows hr hc,
      fun r c hc hout => State.invmBit_storeInverse_outside hinvm hcfg rows hc hout⟩
  · exact absurd hns hsing

/-- Settles O38: the configuration's check comes first, and the elimination stops exactly at a singular matrix. -/
theorem invertReportsConfigThenSingular : Obligations.InvertReportsConfigThenSingular := by
  unfold Obligations.InvertReportsConfigThenSingular
  intro s
  rw [← complete_error (by decide), ← complete_error (by decide)]
  refine ⟨fun hbad => ?_, fun hcfg hsing => ?_⟩
  · rcases invertEffect_cases s with ⟨hcfg, -⟩ | ⟨-, heffect⟩ | ⟨hcfg, -⟩
    · simp [hcfg] at hbad
    · rw [exec_invert, heffect, finish_error]
    · simp [hcfg] at hbad
  · rcases exec_invert_of_cfgOk hcfg with ⟨rows, hinv, -⟩ | ⟨-, hexec⟩
    · exact absurd ⟨_, hinv⟩ hsing
    · exact hexec

/-- Settles O39: the first INVERT leaves the inverse, whose one inverse is the first matrix, and both keep every bit outside the
block. -/
theorem invertTwiceRestoresInvm : Obligations.InvertTwiceRestoresInvm := by
  unfold Obligations.InvertTwiceRestoresInvm
  intro s t hinvm h herr
  obtain ⟨hcfg, rows, hinv, rfl⟩ := checks_of_exec_invert h herr
  have hback : IsInverse s.opN (s.storeInverse rows).invmBit s.invmBit :=
    hinv.symm.congr (fun r hr c hc => State.invmBit_storeInverse_block hinvm hcfg rows hr hc) fun _ _ _ _ => rfl
  rcases exec_invert_of_cfgOk (s := (s.storeInverse rows).complete .noError) hcfg with ⟨rows', hinv', hexec⟩ | ⟨hsing, -⟩
  · have hold : ∀ r < s.opN, ∀ c < s.opN, rowsBit rows' r c = s.invmBit r c :=
      fun r hr c hc => (hinv'.unique hback r hr c hc).symm
    have hrestored := State.invm_storeInverse_storeInverse hinvm hcfg rows hold
    exact ⟨_, hexec, rfl, fun a => congrArg (Memory.read · a) hrestored⟩
  · exact absurd ⟨_, hback⟩ hsing

end

section
/-! The erasure list (43_decoder.md R172): how many ERASE slots are listed, and what the scan makes of them. The survivors (R174) and
the rows of the DecodingBitMatrix (R175) that a list selects. -/

namespace Sys2Proof.Machine.State

/-! ### The scan -/

/-- The devices in the first n ERASE slots (R172). -/
def listedDevices (s : State) (n : Nat) : List Nat := (List.range n).map fun i => (s.eraseSlot i).toNat

@[simp] theorem length_listedDevices (s : State) (n : Nat) : (s.listedDevices n).length = n := by
  simp [listedDevices]

theorem listedDevices_succ (s : State) (n : Nat) :
    s.listedDevices (n + 1) = s.listedDevices n ++ [(s.eraseSlot n).toNat] := by
  simp [listedDevices, List.range_succ]

theorem eq_listedDevices_iff {s : State} {l : List Nat} :
    l = s.listedDevices l.length ↔ ∀ i < l.length, l.getD i 0 = (s.eraseSlot i).toNat := by
  simp +contextual [List.ext_getElem_iff, listedDevices]

/-- The first n slots pass the tests of R172: no sentinel, every index in range, no duplicate. -/
structure SlotsPass (s : State) (n : Nat) : Prop where
  ne_sentinel : ∀ i < n, s.eraseSlot i ≠ sentinel
  lt : ∀ i < n, (s.eraseSlot i).toNat < s.opK + s.opM
  nodup : (s.listedDevices n).Nodup

theorem slotsPass_zero (s : State) : s.SlotsPass 0 where
  ne_sentinel _ h := absurd h (Nat.not_lt_zero _)
  lt _ h := absurd h (Nat.not_lt_zero _)
  nodup := List.nodup_nil

theorem slotsPass_succ_iff {s : State} {n : Nat} : s.SlotsPass (n + 1) ↔
    s.SlotsPass n ∧ s.eraseSlot n ≠ sentinel ∧ (s.eraseSlot n).toNat < s.opK + s.opM ∧
      (s.eraseSlot n).toNat ∉ s.listedDevices n := by
  have hnodup : (s.listedDevices (n + 1)).Nodup ↔
      (s.listedDevices n).Nodup ∧ (s.eraseSlot n).toNat ∉ s.listedDevices n := by
    rw [listedDevices_succ, List.nodup_append_comm, List.singleton_append, List.nodup_cons, and_comm]
  constructor
  · rintro ⟨hs, hlt, hd⟩
    exact ⟨⟨fun i hi => hs i (by omega), fun i hi => hlt i (by omega), (hnodup.mp hd).1⟩, hs n (by omega), hlt n (by omega),
      (hnodup.mp hd).2⟩
  · rintro ⟨⟨hs, hlt, hd⟩, hsn, hltn, hdn⟩
    exact ⟨Nat.forall_lt_succ_right.mpr ⟨hs, hsn⟩, Nat.forall_lt_succ_right.mpr ⟨hlt, hltn⟩, hnodup.mpr ⟨hd, hdn⟩⟩

theorem SlotsPass.mono {s : State} {n n' : Nat} (h : s.SlotsPass n') (hn : n ≤ n') : s.SlotsPass n := by
  induction n', hn using Nat.le_induction with
  | base => exact h
  | succ k _ ih => exact ih (slotsPass_succ_iff.mp h).1

/-- The list is the first n slots: they pass, and slot n ends it (R172). -/
structure ListEnds (s : State) (n : Nat) : Prop where
  le_opM : n ≤ s.opM
  eq_sentinel : s.eraseSlot n = sentinel
  slotsPass : s.SlotsPass n

/-- A list does not end before a slot that passes. -/
theorem ListEnds.le {s : State} {n n' : Nat} (h : s.ListEnds n') (hn : s.SlotsPass n) : n ≤ n' := by
  by_contra hlt
  exact hn.ne_sentinel n' (by omega) h.eq_sentinel

/-- The scan from slot n on, the slots before it having passed, accepts exactly the list that ends (R172). -/
theorem eraseScanFrom_eq_ok_iff {s : State} {left n : Nat} (hn : n + left = s.opM) (hpass : s.SlotsPass n) {l : List Nat} :
    s.eraseScanFrom left (s.listedDevices n) = .ok l ↔ ∃ e, s.ListEnds e ∧ l = s.listedDevices e := by
  induction left generalizing n with
  | zero =>
    obtain rfl : n = s.opM := hn
    rw [eraseScanFrom]
    constructor
    · intro h
      split at h <;> cases h
      exact ⟨_, ⟨le_rfl, ‹_›, hpass⟩, rfl⟩
    · rintro ⟨e, hends, rfl⟩
      obtain rfl : s.opM = e := le_antisymm (hends.le hpass) hends.le_opM
      rw [if_pos hends.eq_sentinel]
  | succ left ih =>
    have hslot : s.opM - (left + 1) = n := by omega
    simp only [eraseScanFrom, hslot]
    by_cases hsent : s.eraseSlot n = sentinel
    · rw [if_pos hsent]
      constructor
      · intro h
        cases h
        exact ⟨n, ⟨by omega, hsent, hpass⟩, rfl⟩
      · rintro ⟨e, hends, rfl⟩
        have hle : ¬ n < e := fun hlt => hends.slotsPass.ne_sentinel n hlt hsent
        rw [le_antisymm (hends.le hpass) (not_lt.mp hle)]
    · rw [if_neg hsent]
      by_cases hnext : s.SlotsPass (n + 1)
      · obtain ⟨-, -, hlt, hnew⟩ := slotsPass_succ_iff.mp hnext
        rw [if_neg (by omega), if_neg (by simpa using hnew), ← listedDevices_succ]
        exact ih (by omega) hnext
      · have hnone : ¬ ∃ e, s.ListEnds e ∧ l = s.listedDevices e := by
          rintro ⟨e, hends, -⟩
          have hle : e ≤ n := not_lt.mp fun hlt => hnext (hends.slotsPass.mono hlt)
          exact hsent (le_antisymm (hends.le hpass) hle ▸ hends.eq_sentinel)
        simp only [slotsPass_succ_iff, hpass, hsent, true_and, ne_eq, not_false_eq_true, not_and, not_not] at hnext
        simp only [hnone, iff_false]
        split_ifs with hge hdup
        · simp
        · simp
        · exact absurd (hnext (by omega)) (by simpa using hdup)

/-- What the scan accepts (R172). -/
theorem eraseScan_eq_ok_iff {s : State} {l : List Nat} :
    s.eraseScan = .ok l ↔ s.ListEnds l.length ∧ l = s.listedDevices l.length := by
  have h := eraseScanFrom_eq_ok_iff (l := l) (Nat.zero_add s.opM) s.slotsPass_zero
  refine Iff.trans h ⟨?_, fun h => ⟨_, h⟩⟩
  rintro ⟨e, hends, rfl⟩
  rw [length_listedDevices]
  exact ⟨hends, rfl⟩

/-- An accepted list names M devices at most (R172). -/
theorem length_le_of_eraseScan {s : State} {l : List Nat} (h : s.eraseScan = .ok l) : l.length ≤ s.opM :=
  (eraseScan_eq_ok_iff.mp h).1.le_opM

/-! ### The survivors -/

/-- All devices not in the list, ascending (R174). -/
def unlisted (s : State) (l : List Nat) : List Nat := (List.range (s.opK + s.opM)).filter fun d => !l.contains d

@[simp] theorem mem_unlisted {s : State} {l : List Nat} {d : Nat} : d ∈ s.unlisted l ↔ d < s.opK + s.opM ∧ d ∉ l := by
  simp [unlisted]

theorem survivors_eq_take (s : State) (l : List Nat) : s.survivors l = (s.unlisted l).take s.opK := rfl

theorem pairwise_unlisted (s : State) (l : List Nat) : (s.unlisted l).Pairwise (· < ·) :=
  List.pairwise_lt_range.filter _

/-- A list of M entries at most leaves K devices at least (R174). -/
theorem opK_le_length_unlisted {s : State} {l : List Nat} (hl : l.length ≤ s.opM) : s.opK ≤ (s.unlisted l).length := by
  have hlisted : ((List.range (s.opK + s.opM)).filter fun d => l.contains d).length ≤ l.length :=
    (List.subperm_of_subset (List.nodup_range.filter _) fun d hd => by simpa using (List.mem_filter.mp hd).2).length_le
  have htotal := List.length_eq_length_filter_add (l := List.range (s.opK + s.opM)) fun d => l.contains d
  rw [List.length_range] at htotal
  unfold unlisted
  omega

theorem length_survivors {s : State} {l : List Nat} (hl : l.length ≤ s.opM) : (s.survivors l).length = s.opK := by
  rw [survivors_eq_take, List.length_take, Nat.min_eq_left (opK_le_length_unlisted hl)]

theorem pairwise_survivors (s : State) (l : List Nat) : (s.survivors l).Pairwise (· < ·) :=
  (s.pairwise_unlisted l).sublist (List.take_sublist _ _)

theorem nodup_survivors (s : State) (l : List Nat) : (s.survivors l).Nodup :=
  (s.pairwise_survivors l).imp Nat.ne_of_lt

/-- A survivor exists and is not in the list (R174). -/
theorem of_mem_survivors {s : State} {l : List Nat} {d : Nat} (h : d ∈ s.survivors l) : d < s.opK + s.opM ∧ d ∉ l :=
  mem_unlisted.mp (List.mem_of_mem_take h)

/-- A device left out that is not in the list lies above every survivor (R174). -/
theorem survivor_lt_of_left_out {s : State} {l : List Nat} {d e : Nat} (hd : d < s.opK + s.opM) (hdl : d ∉ l)
    (hout : d ∉ s.survivors l) (he : e ∈ s.survivors l) : e < d := by
  have hsplit := (List.take_append_drop s.opK (s.unlisted l)).symm
  have hmem : d ∈ s.unlisted l := mem_unlisted.mpr ⟨hd, hdl⟩
  have hpair := s.pairwise_unlisted l
  rw [hsplit, List.mem_append] at hmem
  rw [hsplit, List.pairwise_append] at hpair
  obtain ⟨-, -, hbelow⟩ := hpair
  exact hbelow e he d (hmem.resolve_left hout)

theorem survivor_mem {s : State} {l : List Nat} (hl : l.length ≤ s.opM) {t : Nat} (ht : t < s.opK) :
    s.survivor l t ∈ s.survivors l := by
  have hlt : t < (s.survivors l).length := (length_survivors hl).symm ▸ ht
  rw [survivor, List.getD_eq_getElem _ _ hlt]
  exact List.getElem_mem hlt

/-- The survivors depend on which devices are in the list, not on their order (R173, R174). -/
theorem survivors_congr (s : State) {l l' : List Nat} (h : ∀ d, d ∈ l ↔ d ∈ l') : s.survivors l = s.survivors l' := by
  have hcontains (d : Nat) : l.contains d = l'.contains d := by
    rw [List.contains_eq_mem, List.contains_eq_mem, decide_eq_decide]
    exact h d
  simp only [survivors, hcontains]

/-! ### The DecodingBitMatrix -/

/-- A row of a surviving data device is an identity row (R175). -/
theorem decodingBit_of_data {s : State} {l : List Nat} {t b : Nat} (hb : b < s.opW) (hd : s.survivor l t < s.opK) (c : Nat) :
    s.decodingBit l (t * s.opW + b) c = decide (c = s.survivor l t * s.opW + b) := by
  simp only [decodingBit, div_mod_cell hb, if_pos hd]

/-- A row of a surviving coding device is a BM row (R175). -/
theorem decodingBit_of_coding {s : State} {l : List Nat} {t b : Nat} (hb : b < s.opW) (hd : s.opK ≤ s.survivor l t)
    (c : Nat) : s.decodingBit l (t * s.opW + b) c = s.bmBit ((s.survivor l t - s.opK) * s.opW + b) c := by
  simp only [decodingBit, div_mod_cell hb, if_neg (not_lt.mpr hd)]

/-- The matrix depends on which devices are in the list, not on their order (R173, R175). -/
theorem decodingBit_congr (s : State) {l l' : List Nat} (h : ∀ d, d ∈ l ↔ d ∈ l') : s.decodingBit l = s.decodingBit l' := by
  have hsurvivor : s.survivor l = s.survivor l' := by
    funext t
    rw [survivor, survivor, s.survivors_congr h]
  funext r c
  unfold decodingBit
  rw [hsurvivor]

end Sys2Proof.Machine.State
end

section

open Sys2Proof Sys2Proof.Machine

/-- Settles O40: the scan stops at the first sentinel among slots 0 to M whose slots before it passed, and nowhere else. -/
theorem erasureScanAccepts : Obligations.ErasureScanAccepts := by
  unfold Obligations.ErasureScanAccepts
  intro s
  refine ⟨fun l => ?_, fun c => eraseScan_error⟩
  rw [State.eraseScan_eq_ok_iff]
  constructor
  · rintro ⟨⟨hlen, hend, hpass⟩, hl⟩
    have hentry := State.eq_listedDevices_iff.mp hl
    exact ⟨hlen, hend, hl ▸ hpass.nodup, fun i hi => ⟨hpass.ne_sentinel i hi, hpass.lt i hi, hentry i hi⟩⟩
  · rintro ⟨hlen, hend, hnodup, hslots⟩
    have hl := State.eq_listedDevices_iff.mpr fun i hi => (hslots i hi).2.2
    exact ⟨⟨hlen, hend, fun i hi => (hslots i hi).1, fun i hi => (hslots i hi).2.1, hl ▸ hnodup⟩, hl⟩

/-- Settles O41: `sel` is the first part of the ascending devices not in the list, of which there are K at least. -/
theorem survivorsAreTheLowest : Obligations.SurvivorsAreTheLowest := by
  unfold Obligations.SurvivorsAreTheLowest
  exact fun s l hl => ⟨State.length_survivors hl, s.pairwise_survivors l, fun _ => State.of_mem_survivors,
    fun d hd hdl hout e he => State.survivor_lt_of_left_out hd hdl hout he⟩

/-- Settles O42: row t·W + b is the row of survivor t, whichever kind it is. -/
theorem decodingMatrixRows : Obligations.DecodingMatrixRows := by
  unfold Obligations.DecodingMatrixRows
  exact fun s l t b c _ hb => ⟨fun hd => State.decodingBit_of_data hb hd c, fun hd => State.decodingBit_of_coding hb hd c⟩

end

section
/-! DECODE's writes: every byte and lane of the arena after them (43_decoder.md R178 to R181), and its outcomes after the scan
(R171, R176, R182). -/

namespace Sys2Proof.Machine

open Sys2Proof.Safety

namespace State

/-- The arena after DECODE's writes: erased data devices recovered, then erased coding devices re-encoded (R178, R179). -/
def decodedArena (s : State) (l : List Nat) (inv : Nat → Nat → Bool) : Memory := s.reencodeArena l (s.recoverArena l inv)

theorem erasedData_eq_nil_iff {s : State} {l : List Nat} : s.erasedData l = [] ↔ ∀ e ∈ l, s.opK ≤ e := by
  simp [erasedData]

theorem erasedData_ne_nil_iff {s : State} {l : List Nat} : s.erasedData l ≠ [] ↔ ∃ j ∈ l, j < s.opK := by
  simp [erasedData_eq_nil_iff]

/-- Without an erased data device nothing is recovered (R181). -/
theorem recoverArena_of_no_data {s : State} {l : List Nat} (h : ∀ e ∈ l, s.opK ≤ e) (inv : Nat → Nat → Bool) :
    s.recoverArena l inv = s.arena := by
  rw [recoverArena, erasedData_eq_nil_iff.mpr h]
  rfl

/-- A plane of a device that is not listed lies outside the listed devices (R65). -/
theorem not_inDevice_planeAt {s : State} (hsize : s.opSize = s.opW * s.opPs) {l : List Nat} {d b o : Nat} (hd : d ∉ l)
    (hb : b < s.opW) (ho : o < s.opPs) : ∀ e ∈ l, ¬ s.inDevice e (s.planeAt d b + o) := fun _ he hin =>
  hd (inDevice_unique hin (planeAt_inDevice hsize d hb ho) ▸ he)

section

variable {s : State} {l : List Nat} (hsize : s.opSize = s.opW * s.opPs) (harena : s.arena.wf = true)
  (inv : Nat → Nat → Bool)

include hsize harena

/-- Re-encoding keeps the bytes outside the erased coding devices (R180). -/
theorem read_decodedArena_outside_coding {a : Nat} (h : ∀ d ∈ l, s.opK ≤ d → ¬ s.inDevice d a) :
    (s.decodedArena l inv).read a = (s.recoverArena l inv).read a :=
  (read_encodeInto hsize (wf_recoverArena harena l inv) (s.erasedCoding l) _).2 a fun d hd =>
    h d (mem_erasedCoding.mp hd).1 (mem_erasedCoding.mp hd).2

/-- Re-encoding keeps the data devices (R180). -/
theorem read_decodedArena_data {j b o : Nat} (hj : j < s.opK) (hb : b < s.opW) (ho : o < s.opPs) :
    (s.decodedArena l inv).read (s.planeAt j b + o) = (s.recoverArena l inv).read (s.planeAt j b + o) :=
  read_decodedArena_outside_coding hsize harena inv fun _ _ hd hin =>
    absurd (inDevice_unique hin (planeAt_inDevice hsize j hb ho)) (by omega)

/-- DECODE writes no byte outside the listed devices (R180). -/
theorem read_decodedArena_outside {a : Nat} (h : ∀ d ∈ l, ¬ s.inDevice d a) :
    (s.decodedArena l inv).read a = s.arena.read a := by
  rw [read_decodedArena_outside_coding hsize harena inv fun d hd _ => h d hd]
  exact (read_recoverArena hsize harena l inv).2 a fun d hd => h d (mem_erasedData.mp hd).1

/-- DECODE writes no plane of a device that is not listed (R180). -/
theorem read_decodedArena_unlisted {d b o : Nat} (hd : d ∉ l) (hb : b < s.opW) (ho : o < s.opPs) :
    (s.decodedArena l inv).read (s.planeAt d b + o) = s.arena.read (s.planeAt d b + o) :=
  read_decodedArena_outside hsize harena inv (not_inDevice_planeAt hsize hd hb ho)

/-- A lane of a recovered data device (R178). -/
theorem decodedArena_data_lane {j b o : Nat} (hjl : j ∈ l) (hj : j < s.opK) (hb : b < s.opW) (ho : o < s.opPs) (x : Nat) :
    ((s.decodedArena l inv).read (s.planeAt j b + o)).getLsbD x =
      xorSum s.opK (fun t => xorSum s.opW (fun c =>
        inv (j * s.opW + b) (t * s.opW + c) && (s.arena.read (s.planeAt (s.survivor l t) c + o)).getLsbD x)) := by
  rw [read_decodedArena_data hsize harena inv hj hb ho,
    (read_recoverArena hsize harena l inv).1 j (mem_erasedData.mpr ⟨hjl, hj⟩) b hb o ho, recoveredPlane_lane _ _ _ _ _ _ ho]

/-- A lane of a re-encoded coding device, from the data devices as DECODE leaves them (R179). -/
theorem decodedArena_coding_lane {e b o : Nat} (hel : e ∈ l) (he : s.opK ≤ e) (hb : b < s.opW) (ho : o < s.opPs)
    (x : Nat) :
    ((s.decodedArena l inv).read (s.planeAt e b + o)).getLsbD x =
      xorSum s.opK (fun j => xorSum s.opW (fun c =>
        s.bmBit ((e - s.opK) * s.opW + b) (j * s.opW + c) &&
          ((s.decodedArena l inv).read (s.planeAt j c + o)).getLsbD x)) := by
  have hcoding := (read_encodeInto hsize (wf_recoverArena harena l inv) (s.erasedCoding l) (s.recoverArena l inv)).1 e
    (mem_erasedCoding.mpr ⟨hel, he⟩) b hb o ho
  rw [decodedArena, reencodeArena, hcoding, codingPlane_lane _ _ _ _ ho]
  exact xorSum_congr fun j hj => xorSum_congr fun c hc => by
    rw [← read_decodedArena_data hsize harena inv hj hc ho, decodedArena, reencodeArena]

end

end State

/-! ### Outcomes -/

section

variable {s : State} {l : List Nat}

/-- Without an erased data device only the coding devices are written (R181). -/
theorem decodeWith_of_no_data (h : ∀ e ∈ l, s.opK ≤ e) (inv : Nat → Nat → Bool) :
    decodeWith s l = .ok (s.withArena (s.decodedArena l inv)) := by
  rcases decodeWith_cases s l with ⟨-, heffect⟩ | ⟨hdata, -⟩ | ⟨hdata, -⟩
  · rw [heffect, State.decodedArena, State.recoverArena_of_no_data h]
  all_goals exact absurd (State.erasedData_eq_nil_iff.mpr h) hdata

/-- With an erased data device the inverse is stored and used (R176 to R179). -/
theorem decodeWith_of_gf2Inv (h : ∃ j ∈ l, j < s.opK) {rows : List (BitVec s.opN)}
    (hrows : gf2Inv s.opN (s.decodingBit l) = some rows) :
    decodeWith s l = .ok ((s.storeInverse rows).withArena (s.decodedArena l (rowsBit rows))) := by
  rcases decodeWith_cases s l with ⟨hnil, -⟩ | ⟨-, rows', hrows', heffect⟩ | ⟨-, hnone, -⟩
  · exact absurd hnil (State.erasedData_ne_nil_iff.mpr h)
  · cases hrows.symm.trans hrows'
    exact heffect
  · cases hrows.symm.trans hnone

/-- With an erased data device and no inverse nothing is written (R176). -/
theorem decodeWith_of_gf2Inv_none (h : ∃ j ∈ l, j < s.opK) (hnone : gf2Inv s.opN (s.decodingBit l) = none) :
    decodeWith s l = .error .singular := by
  rcases decodeWith_cases s l with ⟨hnil, -⟩ | ⟨-, rows, hrows, -⟩ | ⟨-, -, heffect⟩
  · exact absurd hnil (State.erasedData_ne_nil_iff.mpr h)
  · cases hnone.symm.trans hrows
  · exact heffect

/-- DECODE whose checks pass does the steps after the scan (R171, R182). -/
theorem exec_decode_of_scan (hcfg : s.cfgOk = true) (hshape : s.shapeOk = true) (hl : s.eraseScan = .ok l) :
    exec .decode s = .next (finish s (decodeWith s l)) := by
  simp [exec_decode, decodeEffect, hcfg, hshape, hl]

variable (hcfg : s.cfgOk = true) (hshape : s.shapeOk = true) (hl : s.eraseScan = .ok l)

include hcfg hshape hl

theorem exec_decode_of_no_data (h : ∀ e ∈ l, s.opK ≤ e) (inv : Nat → Nat → Bool) :
    exec .decode s = .next ((s.withArena (s.decodedArena l inv)).complete .noError) := by
  rw [exec_decode_of_scan hcfg hshape hl, decodeWith_of_no_data h inv, finish_ok]

/-- With an erased data device DECODE inverts the DecodingBitMatrix, or reports SINGULAR and there is no inverse (R176). -/
theorem exec_decode_of_data (h : ∃ j ∈ l, j < s.opK) :
    (∃ rows, IsInverse s.opN (s.decodingBit l) (rowsBit rows) ∧ exec .decode s =
      .next (((s.storeInverse rows).withArena (s.decodedArena l (rowsBit rows))).complete .noError)) ∨
    (¬ NonSingular s.opN (s.decodingBit l) ∧ exec .decode s = .next (s.complete .singular)) := by
  rw [exec_decode_of_scan hcfg hshape hl]
  cases hrows : gf2Inv s.opN (s.decodingBit l) with
  | none => exact .inr ⟨gf2Inv_eq_none_iff.mp hrows, by rw [decodeWith_of_gf2Inv_none h hrows, finish_error]⟩
  | some rows => exact .inl ⟨rows, isInverse_of_gf2Inv hrows, by rw [decodeWith_of_gf2Inv h hrows, finish_ok]⟩

end

end Sys2Proof.Machine
end

section

open Sys2Proof Sys2Proof.Machine Sys2Proof.Safety

/-- Settles O43: the other outcome needs a singular matrix; the block's bits are those of the inverse the recovery reads. -/
theorem decodeRecoversAndReencodes : Obligations.DecodeRecoversAndReencodes := by
  unfold Obligations.DecodeRecoversAndReencodes
  intro s l harena hinvm hcfg hshape hl hdata hns
  obtain ⟨-, hsize, -⟩ := State.shapeOk_facts hshape
  rcases exec_decode_of_data hcfg hshape hl hdata with ⟨rows, hinv, hexec⟩ | ⟨hsing, -⟩
  · have hblock {r c : Nat} (hr : r < s.opN) (hc : c < s.opN) :
        readBit (s.storeInverse rows).invm s.params.rwWords r c = rowsBit rows r c :=
      State.invmBit_storeInverse_block hinvm hcfg rows hr hc
    refine ⟨s.decodedArena l (rowsBit rows), (s.storeInverse rows).invm, hexec.trans (congrArg _ complete_noError),
      hinv.congr (fun _ _ _ _ => rfl) fun r hr c hc => hblock hr hc,
      fun r c hc hout => State.invmBit_storeInverse_outside hinvm hcfg rows hc hout,
      fun j hjl hj b hb o ho x _ => ?_,
      fun e hel he b hb o ho x _ => State.decodedArena_coding_lane hsize harena _ hel he hb ho x,
      fun a ha => State.read_decodedArena_outside hsize harena _ ha⟩
    rw [State.decodedArena_data_lane hsize harena _ hjl hj hb ho]
    exact xorSum_congr fun t ht => xorSum_congr fun c hc => by rw [hblock (cell_lt hj hb) (cell_lt ht hc), State.survivor]
  · exact absurd hns hsing

/-- Settles O44: nothing is recovered, so the coding devices are re-encoded from data devices that no write touches. -/
theorem decodeWithoutDataErasures : Obligations.DecodeWithoutDataErasures := by
  unfold Obligations.DecodeWithoutDataErasures
  intro s l harena hcfg hshape hl hcoding
  obtain ⟨-, hsize, -⟩ := State.shapeOk_facts hshape
  refine ⟨s.decodedArena l identityBit,
    (exec_decode_of_no_data hcfg hshape hl hcoding _).trans (congrArg _ complete_noError), fun hnil => hnil ▸ rfl,
    fun e hel b hb o ho x _ => ?_, fun a ha => State.read_decodedArena_outside hsize harena _ ha⟩
  rw [State.decodedArena_coding_lane hsize harena _ hel (hcoding e hel) hb ho]
  refine xorSum_congr fun j hj => xorSum_congr fun c hc => ?_
  have hkept : j ∉ l := fun hjl => absurd (hcoding j hjl) (not_le.mpr hj)
  rw [State.read_decodedArena_unlisted hsize harena _ hkept hc ho]

/-- Settles O45: the first check that fails decides the code, and a failed check writes nothing but STATUS. -/
theorem decodeReportsErrorsInOrder : Obligations.DecodeReportsErrorsInOrder := by
  unfold Obligations.DecodeReportsErrorsInOrder
  intro s
  simp only [← complete_error (s := s) (show ErrCode.config ≠ .noError by decide),
    ← complete_error (s := s) (show ErrCode.shape ≠ .noError by decide),
    ← complete_error (s := s) (show ErrCode.erasure ≠ .noError by decide),
    ← complete_error (s := s) (show ErrCode.singular ≠ .noError by decide)]
  refine ⟨fun hcfg => by simp [exec_decode, decodeEffect, hcfg],
    fun hcfg hshape => by simp [exec_decode, decodeEffect, hcfg, hshape], fun hcfg hshape hscan => ?_,
    fun l hcfg hshape hl hdata hsing => ?_⟩
  · cases hc : s.eraseScan with
    | ok l => exact absurd hc (hscan l)
    | error c => simp [exec_decode, decodeEffect, hcfg, hshape, hc, eraseScan_error hc]
  · rcases exec_decode_of_data hcfg hshape hl hdata with ⟨rows, hinv, -⟩ | ⟨-, hexec⟩
    · exact absurd ⟨_, hinv⟩ hsing
    · exact hexec

end

section
/-! What DECODE depends on (43_decoder.md R173, R178, R184): two runs whose lists have the same members, and whose arenas agree outside
the listed devices, write the same. -/

namespace Sys2Proof.Machine

namespace State

/-- ERASE replaced. -/
def withErase (s : State) (es : List Word) : State := { s with erase := es }

/-- A byte after writing devices depends on the written planes, on which devices are written, and on the old byte outside them. -/
theorem read_writeDevices_congr {s : State} (hsize : s.opSize = s.opW * s.opPs) {m m' : Memory} (hm : m.wf = true)
    (hm' : m'.wf = true) {ds ds' : List Nat} (hmem : ∀ d, d ∈ ds ↔ d ∈ ds') {pl pl' : Nat → Nat → List Byte}
    (hpl : ∀ d b, (pl d b).length = s.opPs) (hpl' : ∀ d b, (pl' d b).length = s.opPs)
    (hplanes : ∀ d ∈ ds, ∀ b < s.opW, ∀ o < s.opPs, (pl d b).getD o 0#8 = (pl' d b).getD o 0#8) {a : Nat}
    (hout : (∀ d ∈ ds, ¬ s.inDevice d a) → m.read a = m'.read a) :
    (s.writeDevices ds pl m).read a = (s.writeDevices ds' pl' m').read a := by
  obtain ⟨hin, hkept⟩ := read_writeDevices hsize hm ds pl fun d _ b _ => hpl d b
  obtain ⟨hin', hkept'⟩ := read_writeDevices hsize hm' ds' pl' fun d _ b _ => hpl' d b
  by_cases h : ∀ d ∈ ds, ¬ s.inDevice d a
  · rw [hkept a h, hkept' a fun d hd => h d ((hmem d).mpr hd), hout h]
  · push Not at h
    obtain ⟨d, hd, hda⟩ := h
    obtain ⟨b, hb, o, ho, rfl⟩ := inDevice_planeAt hsize hda
    rw [hin d hd b hb o ho, hin' d ((hmem d).mp hd) b hb o ho, hplanes d hd b hb o ho]

/-- The bytes of the data devices lie outside every coding device (R65). -/
theorem not_inDevice_of_lt {s : State} {d a : Nat} (hd : s.opK ≤ d) (ha : a < s.opK * s.opSize) : ¬ s.inDevice d a :=
  fun hin => absurd (hin.1.trans_lt ha) (not_lt.mpr (Nat.mul_le_mul_right _ hd))

section

variable {s : State} {m : Memory} {l l' : List Nat} (hsize : s.opSize = s.opW * s.opPs) (harena : s.arena.wf = true)
  (hm : m.wf = true) (hlen : l.length ≤ s.opM) (hmem : ∀ d, d ∈ l ↔ d ∈ l')
  (hagree : ∀ a, (∀ d ∈ l, ¬ s.inDevice d a) → m.read a = s.arena.read a)

include hsize hlen hmem hagree

/-- A recovered plane depends on the survivors' bytes only (R178). -/
theorem getD_recoveredPlane_congr (inv : Nat → Nat → Bool) (j b : Nat) {o : Nat} (ho : o < s.opPs) :
    (s.recoveredPlane l inv s.arena j b).getD o 0#8 = (s.recoveredPlane l' inv m j b).getD o 0#8 := by
  refine BitVec.eq_of_getLsbD_eq fun x _ => ?_
  rw [recoveredPlane_lane _ _ _ _ _ _ ho, recoveredPlane_lane _ _ _ _ _ _ ho]
  refine xorSum_congr fun t ht => xorSum_congr fun c hc => ?_
  have hsurvives := (of_mem_survivors (survivor_mem hlen ht)).2
  rw [← hagree _ (not_inDevice_planeAt hsize hsurvives hc ho), survivor, survivor, s.survivors_congr hmem]

include harena hm

/-- After recovery the arenas of the two runs differ in erased coding devices only (R178). -/
theorem read_recoverArena_congr (inv : Nat → Nat → Bool) {a : Nat} (ha : ∀ d ∈ l, s.opK ≤ d → ¬ s.inDevice d a) :
    (s.recoverArena l inv).read a = ((s.withArena m).recoverArena l' inv).read a := by
  have hdata (d : Nat) : d ∈ s.erasedData l ↔ d ∈ s.erasedData l' := by simp [hmem]
  refine read_writeDevices_congr hsize harena hm hdata (fun _ _ => length_recoveredPlane _ _ _ _ _ _)
    (fun _ _ => length_recoveredPlane _ _ _ _ _ _)
    (fun d _ b _ o ho => getD_recoveredPlane_congr hsize hlen hmem hagree inv d b ho) fun hout => (hagree a fun d hd => ?_).symm
  rcases Nat.lt_or_ge d s.opK with hlt | hge
  · exact hout d (mem_erasedData.mpr ⟨hd, hlt⟩)
  · exact ha d hd hge

/-- DECODE leaves the same arena in the two runs (R173, R178, R179). -/
theorem decodedArena_congr (inv : Nat → Nat → Bool) : s.decodedArena l inv = (s.withArena m).decodedArena l' inv := by
  have hwf := wf_recoverArena harena l inv
  have hwf' := wf_recoverArena (s := s.withArena m) hm l' inv
  have hrecovered {a : Nat} := read_recoverArena_congr (a := a) hsize harena hm hlen hmem hagree inv
  have hcoding (d : Nat) : d ∈ s.erasedCoding l ↔ d ∈ s.erasedCoding l' := by simp [hmem]
  refine Memory.ext_of_wf (wf_encodeInto hwf _ _) (wf_encodeInto hwf' _ _) fun a =>
    read_writeDevices_congr hsize hwf hwf' hcoding (fun _ _ => length_codingPlane _ _ _ _)
      (fun _ _ => length_codingPlane _ _ _ _)
      (fun d _ b _ o ho => getD_codingPlane_congr hsize (fun x hx => hrecovered fun e _ he => not_inDevice_of_lt he hx) _ b ho)
      fun hout => hrecovered fun d hd hge => hout d (mem_erasedCoding.mpr ⟨hd, hge⟩)

end

end State

section

variable {s : State} {m : Memory} {es : List Word} {l l' : List Nat} (harena : s.arena.wf = true) (hm : m.wf = true)
  (hmem : ∀ d, d ∈ l ↔ d ∈ l') (hagree : ∀ a, (∀ d ∈ l, ¬ s.inDevice d a) → m.read a = s.arena.read a)

include harena hm hmem hagree

/-- The steps after the scan end in the same state but for ERASE, or in the same error (R173, R184). -/
theorem decodeWith_congr (hsize : s.opSize = s.opW * s.opPs) (hlen : l.length ≤ s.opM) :
    decodeWith ((s.withArena m).withErase es) l' = (decodeWith s l).map (State.withErase · es) := by
  have hdecoded := State.decodedArena_congr hsize harena hm hlen hmem hagree
  by_cases hdata : ∃ j ∈ l, j < s.opK
  · have hdata' : ∃ j ∈ l', j < ((s.withArena m).withErase es).opK :=
      hdata.imp fun j ⟨hjl, hj⟩ => ⟨(hmem j).mp hjl, hj⟩
    have hgf2 : gf2Inv s.opN (((s.withArena m).withErase es).decodingBit l') = gf2Inv s.opN (s.decodingBit l) :=
      congrArg (gf2Inv s.opN) (s.decodingBit_congr hmem).symm
    cases hrows : gf2Inv s.opN (s.decodingBit l) with
    | none =>
      rw [decodeWith_of_gf2Inv_none hdata hrows, decodeWith_of_gf2Inv_none hdata' (hgf2.trans hrows)]
      rfl
    | some rows =>
      rw [decodeWith_of_gf2Inv hdata hrows, decodeWith_of_gf2Inv hdata' (hgf2.trans hrows), hdecoded]
      rfl
  · have hcoding : ∀ e ∈ l, s.opK ≤ e := by simpa using hdata
    have hcoding' : ∀ e ∈ l', ((s.withArena m).withErase es).opK ≤ e := fun e he => hcoding e ((hmem e).mpr he)
    rw [decodeWith_of_no_data hcoding identityBit, decodeWith_of_no_data hcoding' identityBit, hdecoded]
    rfl

/-- DECODE evaluates to the same state but for ERASE, or to the same error (R173, R184). -/
theorem decodeEffect_congr (hl : s.eraseScan = .ok l) (hl' : ((s.withArena m).withErase es).eraseScan = .ok l') :
    decodeEffect ((s.withArena m).withErase es) = (decodeEffect s).map (State.withErase · es) := by
  have hcfg' : ((s.withArena m).withErase es).cfgOk = s.cfgOk := rfl
  have hshape' : ((s.withArena m).withErase es).shapeOk = s.shapeOk := rfl
  rw [decodeEffect, decodeEffect, hcfg', hshape', hl, hl']
  cases hcfg : s.cfgOk
  · rfl
  · cases hshape : s.shapeOk
    · rfl
    · obtain ⟨-, hsize, -⟩ := State.shapeOk_facts hshape
      exact decodeWith_congr harena hm hmem hagree hsize (State.length_le_of_eraseScan hl)

end

/-- DECODE raises no error with the code of success (R218). -/
theorem ne_noError_of_decodeEffect {s : State} {c : ErrCode} (h : decodeEffect s = .error c) : c ≠ .noError := by
  rcases decodeEffect_cases s with ⟨-, -, l, -, heffect⟩ | ⟨-, heffect⟩ | ⟨-, -, heffect⟩ | ⟨-, -, c', hc', heffect⟩ <;>
    rw [heffect] at h
  · rcases decodeWith_cases s l with ⟨-, hwith⟩ | ⟨-, _, -, hwith⟩ | ⟨-, -, hwith⟩ <;> cases hwith.symm.trans h
    decide
  · cases h
    decide
  · cases h
    decide
  · cases h
    rw [eraseScan_error hc']
    decide

end Sys2Proof.Machine
end

section

open Sys2Proof Sys2Proof.Machine

/-- Settles O46: the two runs evaluate to the same state but for ERASE, or to the same error. -/
theorem decodeIgnoresTheListOrder : Obligations.DecodeIgnoresTheListOrder := by
  unfold Obligations.DecodeIgnoresTheListOrder
  intro s es l l' harena hl hl' hmem
  refine ⟨finish s (decodeEffect s), exec_decode s, ?_⟩
  have heffect := decodeEffect_congr harena harena hmem (fun _ _ => rfl) hl hl'
  calc exec .decode (s.withErase es)
      = .next (finish (s.withErase es) ((decodeEffect s).map (State.withErase · es))) := by rw [← heffect]; rfl
    _ = .next ((finish s (decodeEffect s)).withErase es) := by cases decodeEffect s <;> rfl

/-- Settles O47: the second run evaluates to the same state as the first, or to the same error. -/
theorem decodeIgnoresErasedContent : Obligations.DecodeIgnoresErasedContent := by
  unfold Obligations.DecodeIgnoresErasedContent
  intro s t u m l harena hm hl hagree ht hu
  have hscan : ((s.withArena m).withErase s.erase).eraseScan = .ok l := hl ▸ eraseScan_congr rfl rfl rfl
  have heffect : decodeEffect (s.withArena m) = (decodeEffect s).map (State.withErase · s.erase) :=
    decodeEffect_congr harena hm (fun _ => Iff.rfl) hagree hl hscan
  have hu' : u = finish (s.withArena m) ((decodeEffect s).map (State.withErase · s.erase)) := by
    rw [← heffect]
    exact (Host.Outcome.next.inj hu).symm
  have ht' : t = finish s (decodeEffect s) := (Host.Outcome.next.inj ht).symm
  subst ht' hu'
  cases hcase : decodeEffect s with
  | error c => exact ⟨rfl, rfl, fun hc => absurd hc (ne_noError_of_decodeEffect hcase)⟩
  | ok written => exact ⟨rfl, rfl, fun _ => rfl⟩

end

section
/-! The bit-level round trip (43_decoder.md R183): with consistent coding devices the survivors' lanes are the DecodingBitMatrix times
the data lanes, so its inverse gives the data back. -/

namespace Sys2Proof.Machine

/-- Cells of two rows of w cells are equal when row and place are. -/
theorem cell_eq_iff {w i j b c : Nat} (hb : b < w) (hc : c < w) : i * w + b = j * w + c ↔ i = j ∧ b = c := by
  refine ⟨fun h => ?_, fun ⟨hi, hbc⟩ => by rw [hi, hbc]⟩
  obtain ⟨hi, hbi⟩ := div_mod_cell (i := i) hb
  obtain ⟨hj, hcj⟩ := div_mod_cell (i := j) hc
  rw [h] at hi hbi
  exact ⟨hi.symm.trans hj, hbi.symm.trans hcj⟩

theorem decide_cell_eq {w i j b c : Nat} (hb : b < w) (hc : c < w) :
    decide (i * w + b = j * w + c) = (decide (i = j) && decide (b = c)) :=
  (decide_eq_decide.mpr (cell_eq_iff hb hc)).trans (Bool.decide_and _ _)

/-- What holds of every cell holds of every index below k rows of w cells. -/
theorem forall_of_cells {k w : Nat} {P : Nat → Prop} (h : ∀ i < k, ∀ b < w, P (i * w + b)) : ∀ r < k * w, P r := by
  intro r hr
  have hw : 0 < w := Nat.pos_of_mul_pos_left (Nat.zero_lt_of_lt hr)
  have hcell := h (r / w) ((Nat.div_lt_iff_lt_mul hw).mpr hr) (r % w) (Nat.mod_lt r hw)
  rwa [Nat.div_add_mod'] at hcell

/-- A sum over blocks whose terms carry the row (d, b) of the identity is its term (d, b). -/
theorem xorSum_cell_eq_and {k w d b : Nat} (hd : d < k) (hb : b < w) (f : Nat → Nat → Bool) :
    xorSum k (fun j => xorSum w (fun c => decide (j * w + c = d * w + b) && f j c)) = f d b := by
  rw [xorSum_single hd fun j _ hj => ?_, xorSum_single hb fun c hc hcb => ?_]
  · simp
  · simp [hcb]
  · refine (xorSum_congr fun c hc => ?_).trans (xorSum_false w)
    simp [cell_eq_iff hc hb, hj]

/-- The vector whose blocks of w bits are x 0, x 1 and so on. -/
def blockVector (w : Nat) (x : Nat → Nat → Bool) (u : Nat) : Bool := x (u / w) (u % w)

theorem blockVector_cell {w : Nat} (x : Nat → Nat → Bool) (j : Nat) {c : Nat} (hc : c < w) :
    blockVector w x (j * w + c) = x j c := by
  obtain ⟨hdiv, hmod⟩ := div_mod_cell (i := j) hc
  rw [blockVector, hdiv, hmod]

/-- A product with such a vector, block by block. -/
theorem xorSum_and_blockVector (k w : Nat) (f : Nat → Bool) (x : Nat → Nat → Bool) :
    xorSum (k * w) (fun u => f u && blockVector w x u) = xorSum k (fun j => xorSum w (fun c => f (j * w + c) && x j c)) := by
  rw [xorSum_mul]
  exact xorSum_congr fun j _ => xorSum_congr fun c hc => by rw [blockVector_cell x j hc]

end Sys2Proof.Machine

namespace Sys2Proof.Safety

open Sys2Proof.Machine

/-- An inverse solves the system: where y is a·x, b·y is x (R152). -/
theorem IsInverse.solve {n : Nat} {a b : Nat → Nat → Bool} (h : IsInverse n a b) {x y : Nat → Bool}
    (hy : ∀ t < n, y t = xorSum n (fun u => a t u && x u)) {r : Nat} (hr : r < n) :
    xorSum n (fun t => b r t && y t) = x r :=
  calc xorSum n (fun t => b r t && y t)
      = matMul n b (matMul n a (fun u _ => x u)) r 0 := xorSum_congr fun t ht => by rw [hy t ht, matMul]
    _ = matMul n (matMul n b a) (fun u _ => x u) r 0 := (matMul_assoc n b a _ r 0).symm
    _ = x r := (xorSum_congr fun t ht => by rw [h.symm r hr t ht, identityBit]).trans (xorSum_decide_eq_and hr x)

/-- The same for vectors cut into k blocks of w (R175). -/
theorem IsInverse.solve_blocks {k w : Nat} {a b : Nat → Nat → Bool} (h : IsInverse (k * w) a b) {x y : Nat → Nat → Bool}
    (hy : ∀ t < k, ∀ c < w, y t c = xorSum k (fun j => xorSum w (fun u => a (t * w + c) (j * w + u) && x j u)))
    {r i : Nat} (hr : r < k) (hi : i < w) :
    xorSum k (fun t => xorSum w (fun c => b (r * w + i) (t * w + c) && y t c)) = x r i := by
  simp only [← xorSum_and_blockVector] at hy ⊢
  rw [h.solve (x := blockVector w x) (forall_of_cells fun t ht c hc => ?_) (cell_lt hr hi), blockVector_cell x r hi]
  rw [blockVector_cell y t hc, hy t ht c hc]

end Sys2Proof.Safety

namespace Sys2Proof.Machine.State

open Sys2Proof.Safety

/-- A lane of a survivor is its row of the DecodingBitMatrix against the data lanes (R175, R183). -/
theorem survivor_lane {s : State} {l : List Nat} (hcons : CodingConsistent s) (hlen : l.length ≤ s.opM) {t b o x : Nat}
    (ht : t < s.opK) (hb : b < s.opW) (ho : o < s.opPs) (hx : x < 8) :
    (s.arena.read (s.planeAt (s.survivor l t) b + o)).getLsbD x =
      xorSum s.opK (fun j => xorSum s.opW (fun c =>
        s.decodingBit l (t * s.opW + b) (j * s.opW + c) && (s.arena.read (s.planeAt j c + o)).getLsbD x)) := by
  rcases Nat.lt_or_ge (s.survivor l t) s.opK with hdata | hcoding
  · simp only [decodingBit_of_data hb hdata]
    exact (xorSum_cell_eq_and hdata hb fun j c => (s.arena.read (s.planeAt j c + o)).getLsbD x).symm
  · have hlt := (of_mem_survivors (survivor_mem hlen ht)).1
    simp only [decodingBit_of_coding hb hcoding]
    have hlane := hcons (s.survivor l t - s.opK) (by omega) b hb o ho x hx
    rwa [Nat.add_sub_cancel' hcoding] at hlane

section

variable {s : State} {m : Memory} {l : List Nat} {inv : Nat → Nat → Bool} (hsize : s.opSize = s.opW * s.opPs)
  (hm : m.wf = true) (hcons : CodingConsistent s) (hlen : l.length ≤ s.opM)
  (hinv : (∃ j ∈ l, j < s.opK) → IsInverse s.opN (s.decodingBit l) inv)
  (hagree : ∀ a, a < (s.opK + s.opM) * s.opSize → (∀ d ∈ l, ¬ s.inDevice d a) → m.read a = s.arena.read a)

include hsize hagree

/-- A plane of an existing device that is not listed holds what it held (R183). -/
theorem read_plane_of_agree {d b o : Nat} (hd : d < s.opK + s.opM) (hdl : d ∉ l) (hb : b < s.opW) (ho : o < s.opPs) :
    m.read (s.planeAt d b + o) = s.arena.read (s.planeAt d b + o) := by
  have hend : (d + 1) * s.opSize ≤ (s.opK + s.opM) * s.opSize := Nat.mul_le_mul_right _ hd
  rw [Nat.succ_mul] at hend
  exact hagree _ ((planeAt_inDevice hsize d hb ho).2.trans_le hend) (not_inDevice_planeAt hsize hdl hb ho)

include hm hcons hlen hinv

/-- DECODE restores the data devices (R178, R183). -/
theorem decodedArena_restores_data {j b o : Nat} (hj : j < s.opK) (hb : b < s.opW) (ho : o < s.opPs) :
    ((s.withArena m).decodedArena l inv).read (s.planeAt j b + o) = s.arena.read (s.planeAt j b + o) := by
  by_cases hjl : j ∈ l
  · refine BitVec.eq_of_getLsbD_eq fun x hx => ?_
    have hsurvivors : ∀ t < s.opK, ∀ c < s.opW, (m.read (s.planeAt (s.survivor l t) c + o)).getLsbD x =
        xorSum s.opK (fun j => xorSum s.opW (fun u =>
          s.decodingBit l (t * s.opW + c) (j * s.opW + u) && (s.arena.read (s.planeAt j u + o)).getLsbD x)) := by
      intro t ht c hc
      obtain ⟨hlt, hsurvives⟩ := of_mem_survivors (survivor_mem hlen ht)
      rw [read_plane_of_agree hsize hagree hlt hsurvives hc ho, survivor_lane hcons hlen ht hc ho hx]
    exact (decodedArena_data_lane (s := s.withArena m) hsize hm inv hjl hj hb ho x).trans
      ((hinv ⟨j, hjl, hj⟩).solve_blocks hsurvivors hj hb)
  · exact (read_decodedArena_unlisted (s := s.withArena m) hsize hm inv hjl hb ho).trans
      (read_plane_of_agree hsize hagree (by omega) hjl hb ho)

/-- DECODE restores every device (R178, R179, R183). -/
theorem decodedArena_restores (hlt : ∀ d ∈ l, d < s.opK + s.opM) {a : Nat} (ha : a < (s.opK + s.opM) * s.opSize) :
    ((s.withArena m).decodedArena l inv).read a = s.arena.read a := by
  by_cases hout : ∀ d ∈ l, ¬ s.inDevice d a
  · exact (read_decodedArena_outside (s := s.withArena m) hsize hm inv hout).trans (hagree a ha hout)
  · push Not at hout
    obtain ⟨d, hd, hda⟩ := hout
    obtain ⟨b, hb, o, ho, rfl⟩ := inDevice_planeAt hsize hda
    have hdata {j c : Nat} (hj : j < s.opK) (hc : c < s.opW) :=
      decodedArena_restores_data hsize hm hcons hlen hinv hagree hj hc ho
    rcases Nat.lt_or_ge d s.opK with hdk | hdk
    · exact hdata hdk hb
    · refine BitVec.eq_of_getLsbD_eq fun x hx => ?_
      have hlane := hcons (d - s.opK) (by have := hlt d hd; omega) b hb o ho x hx
      rw [Nat.add_sub_cancel' hdk] at hlane
      refine (decodedArena_coding_lane (s := s.withArena m) hsize hm inv hd hdk hb ho x).trans (Eq.trans ?_ hlane.symm)
      exact xorSum_congr fun j hj => xorSum_congr fun c hc => congrArg (_ && BitVec.getLsbD · x) (hdata hj hc)

end

end Sys2Proof.Machine.State
end

section

open Sys2Proof Sys2Proof.Machine Sys2Proof.Safety

/-- Settles O48: an erased data device comes back through the inverse, and the coding devices from the data devices restored. -/
theorem decodeRestoresConsistentDevices : Obligations.DecodeRestoresConsistentDevices := by
  unfold Obligations.DecodeRestoresConsistentDevices
  intro s m es l harena hm hcfg hshape hcons hl hns hagree
  obtain ⟨-, hsize, -⟩ := State.shapeOk_facts hshape
  have hlen : l.length ≤ s.opM := (State.length_le_of_eraseScan hl :)
  have hlt : ∀ d ∈ l, d < s.opK + s.opM := (State.eraseScan_lt hl :)
  have hscan : ((s.withArena m).withErase es).eraseScan = .ok l := hl ▸ eraseScan_congr rfl rfl rfl
  by_cases hdata : ∃ j ∈ l, j < s.opK
  · rcases exec_decode_of_data (s := (s.withArena m).withErase es) hcfg hshape hscan hdata with
      ⟨rows, hinv, hexec⟩ | ⟨hsing, -⟩
    · exact ⟨_, hexec, rfl, fun a ha => State.decodedArena_restores hsize hm hcons hlen (fun _ => hinv) hagree hlt ha⟩
    · exact absurd (hns hdata) hsing
  · have hcoding : ∀ e ∈ l, s.opK ≤ e := by simpa using hdata
    exact ⟨_, exec_decode_of_no_data (s := (s.withArena m).withErase es) hcfg hshape hscan hcoding identityBit, rfl,
      fun a ha => State.decodedArena_restores hsize hm hcons hlen (fun h => absurd h hdata) hagree hlt ha⟩

end

section
/-! The round-trip law (43_decoder.md R183): the inverse over GF(2^W) of the survivors' rows of [I ; G], its entries expanded to W × W
blocks of bits, is an inverse of the DecodingBitMatrix. -/

namespace Sys2Proof.Machine

/-- Entry (r, c) of the expansion of a matrix y over GF(2^w): block (i, j) holds in column c the bits of y(i, j) · x^c (R112, R113). -/
def expansionBit (w : Nat) (low : Word) (y : Nat → Nat → Word) (r c : Nat) : Bool :=
  (xtimePow w low (c % w) (y (r / w) (c / w))).getLsbD (r % w)

theorem expansionBit_cell (w : Nat) (low : Word) (y : Nat → Nat → Word) (i j : Nat) {b c : Nat} (hb : b < w) (hc : c < w) :
    expansionBit w low y (i * w + b) (j * w + c) = (xtimePow w low c (y i j)).getLsbD b := by
  obtain ⟨hi, hbmod⟩ := div_mod_cell (i := i) hb
  obtain ⟨hj, hcmod⟩ := div_mod_cell (i := j) hc
  rw [expansionBit, hi, hbmod, hj, hcmod]

end Sys2Proof.Machine

namespace Sys2Proof.Safety

open Sys2Proof.Machine

/-- Multiplication by a power of x goes into a sum (R11). -/
theorem xtimePow_fieldSum (w : Nat) (low : Word) (c n : Nat) (f : Nat → Word) :
    xtimePow w low c (fieldSum n f) = fieldSum n (fun j => xtimePow w low c (f j)) := by
  unfold fieldSum
  rw [← List.foldl_hom (xtimePow w low c) (g₂ := fun acc j => acc ^^^ xtimePow w low c (f j)), xtimePow_zero_elem]
  exact fun acc j => (xtimePow_xor w low c acc (f j)).symm

/-- The expansion of a product is the product of the expansions, bit by bit (R12, R117). -/
theorem matMul_expansionBit {k w : Nat} (hw : w ≤ 32) {low : Word} (hlow : low.toNat < 2 ^ w) {e y : Nat → Nat → Word}
    (he : ∀ r < k, ∀ t < k, (e r t).toNat < 2 ^ w) (hy : ∀ t < k, ∀ c < k, (y t c).toNat < 2 ^ w) {r b c u : Nat} (hr : r < k)
    (hb : b < w) (hc : c < k) (hu : u < w) :
    matMul (k * w) (expansionBit w low e) (expansionBit w low y) (r * w + b) (c * w + u) =
      (xtimePow w low u (fieldSum k fun t => gfMul w low (e r t) (y t c))).getLsbD b := by
  rw [matMul, xorSum_mul, xtimePow_fieldSum, getLsbD_fieldSum]
  refine xorSum_congr fun t ht => ?_
  rw [← gfMul_xtimePow, gfMul_comm hw low (he r hr t ht) (xtimePow_lt hw hlow (hy t ht c hc) u), getLsbD_gfMul]
  exact xorSum_congr fun v hv => by
    rw [expansionBit_cell w low e r t hb hv, expansionBit_cell w low y t c hv hu, Bool.and_comm]

/-- A matrix that is the expansion of an invertible one has the inverse's expansion as inverse (R117, R183). -/
theorem isInverse_expansionBit {k w : Nat} (hw : w ≤ 32) {low : Word} (hlow : low.toNat < 2 ^ w) {e y : Nat → Nat → Word}
    (he : ∀ r < k, ∀ t < k, (e r t).toNat < 2 ^ w) (hy : ∀ t < k, ∀ c < k, (y t c).toNat < 2 ^ w)
    (h : ∀ r < k, ∀ c < k, fieldSum k (fun t => gfMul w low (e r t) (y t c)) = if r = c then 1#32 else 0#32) :
    IsInverse (k * w) (expansionBit w low e) (expansionBit w low y) := by
  refine forall_of_cells fun r hr b hb => forall_of_cells fun c hc u hu => ?_
  rw [matMul_expansionBit hw hlow he hy hr hb hc hu, h r hr c hc, identityBit, decide_cell_eq hb hu]
  by_cases hrow : r = c
  · simp [hrow, getLsbD_xtimePow_one hw low hu]
  · simp [hrow, xtimePow_zero_elem]

/-- An entry of [I ; G] in the row of an existing device is a field element (R183). -/
theorem stackedEntry_lt {s : State} (hcfg : s.cfgOk = true) {g : Nat → Nat → Word} (hentries : FieldEntries s g) {d j : Nat}
    (hd : d < s.opK + s.opM) (hj : j < s.opK) : (stackedEntry s.opK g d j).toNat < 2 ^ s.opW := by
  obtain ⟨-, -, -, -, hw, -⟩ := State.cfgOk_bounds hcfg
  have hone : 1 < 2 ^ s.opW := Nat.one_lt_two_pow (by omega)
  unfold stackedEntry
  split_ifs with hdata hdj
  · exact hone
  · exact Nat.two_pow_pos _
  · exact hentries (d - s.opK) (by omega) j hj

/-- The DecodingBitMatrix is the expansion of the survivors' rows of [I ; G] (R175, R183). -/
theorem decodingBit_eq_expansionBit {s : State} (hw : s.opW ≤ 32) {g : Nat → Nat → Word} (hexpands : BmExpands s g)
    {l : List Nat} (hlen : l.length ≤ s.opM) {t b j c : Nat} (ht : t < s.opK) (hb : b < s.opW) (hj : j < s.opK)
    (hc : c < s.opW) :
    s.decodingBit l (t * s.opW + b) (j * s.opW + c) =
      expansionBit s.opW s.opPoly (fun r => stackedEntry s.opK g (s.survivor l r)) (t * s.opW + b) (j * s.opW + c) := by
  rw [expansionBit_cell _ _ _ t j hb hc, stackedEntry]
  rcases Nat.lt_or_ge (s.survivor l t) s.opK with hdata | hcoding
  · rw [State.decodingBit_of_data hb hdata, if_pos hdata, decide_cell_eq hc hb]
    by_cases hrow : s.survivor l t = j
    · simp [hrow, getLsbD_xtimePow_one hw _ hc, eq_comm]
    · simp [hrow, Ne.symm hrow, xtimePow_zero_elem]
  · have hlt := (State.of_mem_survivors (State.survivor_mem hlen ht)).1
    rw [State.decodingBit_of_coding hb hcoding, if_neg (not_lt.mpr hcoding), hexpands _ (by omega) j hj b hb c hc]

/-- Where every K rows of [I ; G] are invertible, the DecodingBitMatrix of a list of M entries at most is non-singular (R183). -/
theorem nonSingular_decodingBit {s : State} (hp : s.params.sizesLegal = true) (hcfg : s.cfgOk = true)
    {g : Nat → Nat → Word} (hentries : FieldEntries s g) (hexpands : BmExpands s g) (hsel : EverySelectionInvertible s g)
    {l : List Nat} (hlen : l.length ≤ s.opM) : NonSingular s.opN (s.decodingBit l) := by
  obtain ⟨y, hy, hinv⟩ := hsel (s.survivors l) (State.length_survivors hlen) (s.nodup_survivors l) fun d hd =>
    (State.of_mem_survivors hd).1
  have hw := State.opW_le hp hcfg
  have hfield : ∀ r < s.opK, ∀ t < s.opK, (stackedEntry s.opK g (s.survivor l r) t).toNat < 2 ^ s.opW := fun r hr t ht =>
    stackedEntry_lt hcfg hentries (State.of_mem_survivors (State.survivor_mem hlen hr)).1 ht
  exact ⟨expansionBit s.opW s.opPoly y, (isInverse_expansionBit hw (State.opPoly_lt hp hcfg) hfield hy hinv).congr
    (forall_of_cells fun t ht b hb => forall_of_cells fun j hj c hc =>
      decodingBit_eq_expansionBit hw hexpands hlen ht hb hj hc) fun _ _ _ _ => rfl⟩

end Sys2Proof.Safety
end

section

open Sys2Proof Sys2Proof.Machine Sys2Proof.Safety

/-- Settles O49: invertible survivor rows over GF(2^W) make the DecodingBitMatrix non-singular, and then DECODE restores consistent
devices. -/
theorem decodeRoundTrip : Obligations.DecodeRoundTrip := by
  unfold Obligations.DecodeRoundTrip
  intro s g m es l hp harena hm hcfg hshape hentries hexpands hsel hcons hl hagree
  have hlen : l.length ≤ s.opM := (State.length_le_of_eraseScan hl :)
  exact decodeRestoresConsistentDevices s m es l harena hm hcfg hshape hcons hl
    (fun _ => nonSingular_decodingBit hp hcfg hentries hexpands hsel hlen) hagree

end

section
/-! What a command word does to an Idle CORE (44_control.md R200, R201), what a write dropped while Busy does (R204), and what
every completion reports (R202, 60_exceptions.md R219). -/

namespace Sys2Proof.Machine

/-- A report without an error keeps ANYERR (R219). -/
theorem State.report_noError (s : State) : s.report .noError = { s with done := true, err := .noError } := by
  simp [report]

/-- A report of an error sets ANYERR (R219). -/
theorem State.report_error (s : State) {c : ErrCode} (hc : c ≠ .noError) :
    s.report c = { s with done := true, err := c, anyErr := true } := by
  simp [report, hc]

theorem issueCommand_nop {v : Word} (h : decodeCmd v = .ok .nop) (s : State) : issueCommand v s = exec .nop s := by
  simp [issueCommand, h, pendingOf]

theorem issueCommand_pending (op : PendingOp) (s : State) :
    issueCommand (encodeCmd op.instr) s = .next (s.accept op) := by
  cases op <;> rfl

theorem issueCommand_illegal {v : Word} (hv : ∀ i : Instr, v ≠ encodeCmd i) (s : State) :
    issueCommand v s = .next (s.report .illegal) := by
  cases hd : decodeCmd v with
  | error e => simp [issueCommand, hd]
  | ok i => exact absurd (eq_encodeCmd_of_decodeCmd hd) (hv i)

/-- The step of a write to CMD while Idle is the command issue of its word (R28, R200). -/
theorem step_write_cmd {s : State} {v : Word} {rest : List Event} (hi : s.phase = .idle) (hr : s.inReset = false)
    (h : s.schedule = .access { dir := .write v, addr := 0x18#32, bytes := 4 } :: rest) :
    step s = issueCommand v ((s.withSchedule rest).withResponse .acknowledged) :=
  (step_access h).trans ((hostAccess_write (s := s.withSchedule rest) hr (resolve_cmd _ _)).trans
    (hostWrite_cmd (s := s.withSchedule rest) hi v))

/-- A write to any location but the read-only registers, CTRL and STATUS is dropped while Busy (R70(a), R204). -/
theorem hostWrite_busy {s : State} {op : PendingOp} (hp : s.phase = .busy op) (v : Word) {l : Location}
    (hl : l.writableWhileBusy = false) : hostWrite s v l = .next (s.withResponse .acknowledged).dropWrite := by
  simp [hostWrite, hp, Phase.isBusy, hl]

/-- The step of the CORE's turn while Busy is the pending command's completion (R202). -/
theorem step_busy_coreTurn {s : State} {op : PendingOp} {rest : List Event} (hp : s.phase = .busy op)
    (h : s.schedule = .coreTurn :: rest) : step s = exec op.instr (s.withSchedule rest) := by
  simp [step_coreTurn h, coreTurn, hp]

/-- A 32-bit command word numbers itself (R90). -/
theorem tableWord_toNat (v : Word) : tableWord 32 v.toNat = v := by
  rw [tableWord, Nat.mod_eq_of_lt v.isLt, BitVec.ofNat_toNat, BitVec.setWidth_eq]

/-- The word of a command that enters Busy is placed as the command pending at the CORE's turn (log 14). -/
theorem placeCommand_pending (s : State) (op : PendingOp) :
    placeCommand s (encodeCmd op.instr) =
      { s with phase := .busy op, done := false, inReset := false, schedule := .coreTurn :: s.schedule } := by
  cases op <;> rfl

/-- Every command ends in the completion report, and Idle but for NOP, which keeps the phase (R202, R219). -/
theorem exec_reports {i : Instr} {s t : State} (h : exec i s = .next t) :
    t.done = true ∧ t.anyErr = (s.anyErr || decide (t.err ≠ .noError)) ∧
      t.phase = if i = .nop then s.phase else .idle := by
  by_cases hi : i = .nop
  · subst hi
    cases h
    exact ⟨rfl, rfl, rfl⟩
  rw [if_neg hi]
  rcases exec_cases hi h with ⟨c, -, rfl⟩ | ⟨-, -, -, rfl⟩ | ⟨-, -, -, rfl⟩ | ⟨-, -, rows, -, rfl⟩ |
    ⟨-, -, -, l, -, ⟨-, rfl⟩ | ⟨-, rows, -, rfl⟩⟩ <;> exact ⟨rfl, rfl, rfl⟩

end Sys2Proof.Machine
end

section

open Sys2Proof Sys2Proof.Machine

/-- Settles O6: the write is a command issue, which answers both kinds of word with a report and leaves the phase. -/
theorem nopAndIllegalWordsCompleteAtOnce : Obligations.NopAndIllegalWordsCompleteAtOnce := by
  unfold Obligations.NopAndIllegalWordsCompleteAtOnce
  intro s v rest hi hr hsched
  rw [step_write_cmd hi hr hsched]
  refine ⟨fun hv => ?_, fun hv => ?_⟩
  · subst hv
    rw [issueCommand_nop rfl, exec_nop, State.report_noError]
    rfl
  · rw [issueCommand_illegal hv, State.report_error _ (by simp)]
    rfl

/-- Settles O7: the BUSY check drops the write at every location whose write does not act while Busy. -/
theorem writesWhileBusyAreDropped : Obligations.WritesWhileBusyAreDropped := by
  unfold Obligations.WritesWhileBusyAreDropped
  intro s op v a l rest hp hr hsched hres hid hparam0 hparam1 hctrl hstatus
  have hl := Location.writableWhileBusy_eq_false.mpr ⟨hid, hparam0, hparam1, hctrl, hstatus⟩
  exact (step_access hsched).trans ((hostAccess_write (s := s.withSchedule rest) hr hres).trans
    (hostWrite_busy (s := s.withSchedule rest) hp v hl))

/-- Settles O21: the report's ANYERR is the old one or the code's not being 0. -/
theorem everyCompletionReports : Obligations.EveryCompletionReports := by
  unfold Obligations.EveryCompletionReports
  intro i s
  obtain ⟨t, ht⟩ := exec_answers i s
  obtain ⟨hdone, hany, hphase⟩ := exec_reports ht
  exact ⟨t, ht, hdone, fun herr => by simp [hany, herr], fun herr => by simp [hany, herr],
    fun hi => hphase.trans (if_neg hi), fun hi => hphase.trans (if_pos hi)⟩

/-- Settles O4: a Busy CORE's step is its completion, a NOP word is a command issue, and a placed word is one of the two. -/
theorem stepRunsTheDecodedCommand : Obligations.StepRunsTheDecodedCommand := by
  unfold Obligations.StepRunsTheDecodedCommand
  refine ⟨fun s op rest => step_busy_coreTurn, fun s op => step_busy_empty, fun s v rest hi hr hv hsched => ?_,
    fun s op => ?_, fun s => ?_⟩
  · rw [step_write_cmd hi hr hsched, issueCommand_nop hv]
  · rw [State.withFetchWord, tableWord_toNat, placeCommand_pending]
    exact step_busy_coreTurn rfl rfl
  · rw [State.withFetchWord, tableWord_toNat]
    exact (step_write_cmd rfl rfl rfl).trans (issueCommand_nop (decodeCmd_encodeCmd .nop) _)

/-- Settles O5: the write is a command issue, and a word that names a pending command is accepted. -/
theorem commandWriteIsAccepted : Obligations.CommandWriteIsAccepted := by
  unfold Obligations.CommandWriteIsAccepted
  intro s op rest hi hr hsched
  exact (step_write_cmd hi hr hsched).trans (issueCommand_pending op _)

/-- Settles O25: NOP is a report without an error. -/
theorem nopCompletes : Obligations.NopCompletes := by
  unfold Obligations.NopCompletes
  exact fun s => congrArg Host.Outcome.next s.report_noError

end

section
/-! The checks of the configuration as conditions on the registers (60_exceptions.md R212, R213), and the errors each command's
evaluation raises (R218). -/

namespace Sys2Proof.Machine

/-! ### The checks -/

namespace State

/-- `cfg_ok`, each register between its bounds (R212). -/
theorem cfgOk_eq_true_iff {s : State} : s.cfgOk = true ↔
    (1 ≤ s.opK ∧ s.opK ≤ s.params.kMax) ∧ (1 ≤ s.opM ∧ s.opM ≤ s.params.mMax) ∧
      (1 ≤ s.opW ∧ s.opW ≤ s.params.wMax) ∧ s.opK + s.opM ≤ 2 ^ s.opW := by
  simp only [cfgOk, Bool.and_eq_true, decide_eq_true_eq, and_assoc]

/-- `shape_ok`, condition by condition (R213). -/
theorem shapeOk_eq_true_iff {s : State} : s.shapeOk = true ↔
    1 ≤ s.opPs ∧ s.opPs % s.params.xorBytes = 0 ∧ s.opSize = s.opW * s.opPs ∧
      (s.opK + s.opM) * s.opSize ≤ s.params.arenaBytes := by
  simp only [shapeOk, Bool.and_eq_true, decide_eq_true_eq, beq_iff_eq, and_assoc]

end State

/-! ### Errors -/

section

variable {s : State} {c : ErrCode}

/-- EXPAND raises only CONFIG (R218). -/
theorem expandEffect_error (h : expandEffect s = .error c) : c = .config := by
  rcases expandEffect_cases s with ⟨-, -, heffect⟩ | ⟨-, heffect⟩ <;> cases heffect.symm.trans h
  rfl

/-- ENCODE raises CONFIG or SHAPE (R218). -/
theorem encodeEffect_error (h : encodeEffect s = .error c) : c = .config ∨ c = .shape := by
  rcases encodeEffect_cases s with ⟨-, -, heffect⟩ | ⟨-, heffect⟩ | ⟨-, -, heffect⟩ <;> cases heffect.symm.trans h
  · exact .inl rfl
  · exact .inr rfl

/-- INVERT raises CONFIG or SINGULAR (R218). -/
theorem invertEffect_error (h : invertEffect s = .error c) : c = .config ∨ c = .singular := by
  rcases invertEffect_cases s with ⟨-, _, -, heffect⟩ | ⟨-, heffect⟩ | ⟨-, -, heffect⟩ <;> cases heffect.symm.trans h
  · exact .inl rfl
  · exact .inr rfl

/-- After the scan DECODE raises only SINGULAR (R176). -/
theorem decodeWith_error {l : List Nat} (h : decodeWith s l = .error c) : c = .singular := by
  rcases decodeWith_cases s l with ⟨-, hwith⟩ | ⟨-, _, -, hwith⟩ | ⟨-, -, hwith⟩ <;> cases hwith.symm.trans h
  rfl

/-- DECODE raises CONFIG, SHAPE, ERASURE or SINGULAR (R218). -/
theorem decodeEffect_error (h : decodeEffect s = .error c) :
    c = .config ∨ c = .shape ∨ c = .erasure ∨ c = .singular := by
  rcases decodeEffect_cases s with ⟨-, -, _, -, heffect⟩ | ⟨-, heffect⟩ | ⟨-, -, heffect⟩ | ⟨-, -, _, hscan, heffect⟩
  · exact .inr (.inr (.inr (decodeWith_error (heffect.symm.trans h))))
  all_goals cases heffect.symm.trans h
  · exact .inl rfl
  · exact .inr (.inl rfl)
  · exact .inr (.inr (.inl (eraseScan_error hscan)))

/-- A completion that shows an error is that of an evaluation that raised it (R202). -/
theorem effect_of_err_finish {effect : Except ErrCode State} (herr : (finish s effect).err ≠ .noError) :
    effect = .error (finish s effect).err := by
  cases effect with
  | error _ => rfl
  | ok _ => exact absurd rfl herr

/-- Such a completion writes STATUS and the phase only (R217). -/
theorem finish_of_err {effect : Except ErrCode State} (herr : (finish s effect).err ≠ .noError) :
    finish s effect = { s with err := (finish s effect).err, done := true, anyErr := true, phase := .idle } :=
  (congrArg (finish s) (effect_of_err_finish herr)).trans (complete_error herr)

end

end Sys2Proof.Machine
end

section

open Sys2Proof Sys2Proof.Machine

/-- Settles O23: NOP shows no error, and every other command completes by `finish`, which drops the writes of a failed one. -/
theorem failedCommandsWriteOnlyStatus : Obligations.FailedCommandsWriteOnlyStatus := by
  unfold Obligations.FailedCommandsWriteOnlyStatus
  intro i s t h herr
  cases i with
  | nop => cases h; exact absurd rfl herr
  | expand | encode | decode | invert => cases h; exact finish_of_err herr

/-- Settles O24: an error shown is the one that the command's evaluation raised. -/
theorem errorsEachCommandCanReport : Obligations.ErrorsEachCommandCanReport := by
  unfold Obligations.ErrorsEachCommandCanReport
  intro s t
  refine ⟨fun h => ?_, fun h => ?_, fun h => ?_, fun h => ?_, fun h => ?_⟩ <;> cases h
  · rfl
  · exact or_iff_not_imp_left.mpr fun herr => expandEffect_error (effect_of_err_finish herr)
  · exact or_iff_not_imp_left.mpr fun herr => encodeEffect_error (effect_of_err_finish herr)
  · exact or_iff_not_imp_left.mpr fun herr => decodeEffect_error (effect_of_err_finish herr)
  · exact or_iff_not_imp_left.mpr fun herr => invertEffect_error (effect_of_err_finish herr)

/-- Settles O26: the bounds on K, M and W as the CFG registers give them. -/
theorem configurationCheck : Obligations.ConfigurationCheck := by
  unfold Obligations.ConfigurationCheck
  exact fun _ => State.cfgOk_eq_true_iff

/-- Settles O27: the conditions on the plane size and the size as the CFG registers give them. -/
theorem shapeCheck : Obligations.ShapeCheck := by
  unfold Obligations.ShapeCheck
  exact fun _ => State.shapeOk_eq_true_iff

end

section
/-! What an asserted reset leaves of the registers (70_reset_and_hazards.md R240), and what an abandoned command leaves of each
memory (R243). -/

namespace Sys2Proof.Machine.State

/-- An asserted reset is the reset of every register, after the memories of an abandoned command took their free values; neither
touches the parameters or GEN (R240, R243). -/
theorem assertReset_eq (s : State) :
    ∃ u : State, s.assertReset = u.resetRegisters.holdReset ∧ u.params = s.params ∧ u.gen = s.gen := by
  cases hp : s.phase with
  | idle => exact ⟨s, assertReset_idle hp, rfl, rfl⟩
  | busy op => exact ⟨(s.abandon op).nextDraw, assertReset_busy hp, s.abandon_params op, s.abandon_gen op⟩

/-- A device below `n` ends at or before `n * SIZE` (R65). -/
theorem not_inDevice_of_le {s : State} {d n x : Nat} (hd : d < n) (hx : n * s.opSize ≤ x) : ¬ s.inDevice d x := by
  have hend : (d + 1) * s.opSize ≤ n * s.opSize := Nat.mul_le_mul_right _ hd
  rw [Nat.succ_mul] at hend
  rintro ⟨-, hlt⟩
  omega

/-- BM keeps every bit outside EXPAND's block, whatever command is abandoned (R243). -/
theorem bmBit_abandon {s : State} (hbm : s.bm.wf = true) (op : PendingOp) {r c : Nat} (hc : c < 32 * s.params.rwWords)
    (hout : s.opM * s.opW ≤ r ∨ s.opK * s.opW ≤ c) : (s.abandon op).bmBit r c = s.bmBit r c := by
  by_cases hop : op = .expand
  · subst hop
    exact s.readBit_looseBits hbm _ _ _ hc hout
  · rw [bmBit, abandon_params, s.abandon_bm hop, bmBit]

/-- INVM keeps every bit outside the block of INVERT and DECODE, whatever command is abandoned (R243). -/
theorem invmBit_abandon {s : State} (hinvm : s.invm.wf = true) (op : PendingOp) {r c : Nat}
    (hc : c < 32 * s.params.rwWords) (hout : s.opN ≤ r ∨ s.opN ≤ c) : (s.abandon op).invmBit r c = s.invmBit r c := by
  cases op with
  | invert | decode => exact s.readBit_looseBits hinvm _ _ _ hc hout
  | expand | encode => rfl

/-- An abandoned ENCODE keeps every byte outside the coding devices (R243). -/
theorem read_abandon_encode {s : State} (harena : s.arena.wf = true) {x : Nat}
    (hout : x < s.opK * s.opSize ∨ (s.opK + s.opM) * s.opSize ≤ x) :
    (s.abandon .encode).arena.read x = s.arena.read x := by
  rw [Nat.add_mul] at hout
  exact s.read_looseBytes harena hout

/-- An abandoned DECODE keeps every byte outside the devices it could write (R243, log 9). -/
theorem read_abandon_decode {s : State} (harena : s.arena.wf = true) {x : Nat}
    (hout : ∀ d ∈ s.scannedDevices, ¬ s.inDevice d x) : (s.abandon .decode).arena.read x = s.arena.read x :=
  s.read_looseDevices _ harena hout

end Sys2Proof.Machine.State
end

section
/-! The steps of the reset edges (70_reset_and_hazards.md R240, R243), and the steps that have no next state (R240, R254). -/

namespace Sys2Proof.Machine

theorem step_resetAssert_idle {s : State} {rest : List Event} (hi : s.phase = .idle)
    (h : s.schedule = .resetAssert :: rest) : step s = .next (s.withSchedule rest).resetRegisters.holdReset :=
  (step_resetAssert h).trans (congrArg Host.Outcome.next (State.assertReset_idle (s := s.withSchedule rest) hi))

theorem step_resetAssert_busy {s : State} {op : PendingOp} {rest : List Event} (hp : s.phase = .busy op)
    (h : s.schedule = .resetAssert :: rest) :
    step s = .next ((s.withSchedule rest).abandon op).nextDraw.resetRegisters.holdReset :=
  (step_resetAssert h).trans (congrArg Host.Outcome.next (State.assertReset_busy (s := s.withSchedule rest) hp))

theorem hostAccess_inReset {s : State} (hr : s.inReset = true) (a : Access) :
    hostAccess a s = .fault .accessDuringReset := by
  rw [hostAccess, if_pos hr]

theorem step_access_inReset {s : State} {a : Access} {rest : List Event} (hr : s.inReset = true)
    (h : s.schedule = .access a :: rest) : step s = .fault .accessDuringReset :=
  (step_access h).trans (hostAccess_inReset (s := s.withSchedule rest) hr a)

theorem step_idle_empty {s : State} (hi : s.phase = .idle) (h : s.schedule = []) : step s = .fault .endOfRun := by
  rw [step_empty h, runOut, hi]

theorem coreTurn_answers (s : State) : ∃ t, coreTurn s = .next t := by
  unfold coreTurn
  split
  · exact ⟨_, rfl⟩
  · exact exec_answers _ _

/-- A step has ended the run (R254), has met an access while reset is asserted (R240), or answers a next state. -/
theorem step_cases (s : State) :
    (step s = .fault .endOfRun ∧ s.schedule = [] ∧ s.phase = .idle) ∨
    (step s = .fault .accessDuringReset ∧ s.inReset = true ∧ ∃ a rest, s.schedule = .access a :: rest) ∨
    ((∃ t, step s = .next t) ∧ ¬(s.schedule = [] ∧ s.phase = .idle) ∧
      ¬(s.inReset = true ∧ ∃ a rest, s.schedule = .access a :: rest)) := by
  cases hsched : s.schedule with
  | nil =>
    cases hp : s.phase with
    | idle => exact .inl ⟨step_idle_empty hp hsched, rfl, rfl⟩
    | busy op =>
      obtain ⟨t, ht⟩ := exec_answers op.instr s
      exact .inr (.inr ⟨⟨t, (step_busy_empty hp hsched).trans ht⟩, by simp, by simp⟩)
  | cons e rest =>
    cases e with
    | access a =>
      cases hr : s.inReset with
      | true => exact .inr (.inl ⟨step_access_inReset hr hsched, rfl, a, rest, rfl⟩)
      | false =>
        obtain ⟨t, ht⟩ := hostAccess_answers a (s := s.withSchedule rest) hr
        exact .inr (.inr ⟨⟨t, (step_access hsched).trans ht⟩, by simp, by simp⟩)
    | coreTurn =>
      obtain ⟨t, ht⟩ := coreTurn_answers (s.withSchedule rest)
      exact .inr (.inr ⟨⟨t, (step_coreTurn hsched).trans ht⟩, by simp, by simp⟩)
    | resetAssert => exact .inr (.inr ⟨⟨_, step_resetAssert hsched⟩, by simp, by simp⟩)
    | resetRelease => exact .inr (.inr ⟨⟨_, step_resetRelease hsched⟩, by simp, by simp⟩)

end Sys2Proof.Machine
end

section

open Sys2Proof Sys2Proof.Machine

/-- Settles O12: `hostAccess` looks at the reset input first. -/
theorem accessDuringResetHasNoMove : Obligations.AccessDuringResetHasNoMove := by
  unfold Obligations.AccessDuringResetHasNoMove
  exact fun _ _ _ => step_access_inReset

/-- Settles O13: of the three cases of a step, the two stops name different faults and the third answers. -/
theorem stepStopsOnlyAtTheEndOrInReset : Obligations.StepStopsOnlyAtTheEndOrInReset := by
  unfold Obligations.StepStopsOnlyAtTheEndOrInReset
  intro s
  rcases step_cases s with ⟨hstep, hend⟩ | ⟨hstep, hr, a, rest, hsched⟩ | ⟨⟨t, hstep⟩, hend, hheld⟩
  · exact ⟨iff_of_true hstep hend, by simp [hstep, hend], by simp [hstep]⟩
  · exact ⟨by simp [hstep, hsched], iff_of_true hstep ⟨hr, a, rest, hsched⟩, by simp [hstep]⟩
  · exact ⟨iff_of_false (by simp [hstep]) hend, iff_of_false (by simp [hstep]) hheld, by simp [hstep]⟩

/-- Settles O52: asserting reset writes every register, in either phase, and releasing it only the reset input. -/
theorem resetGivesEveryRegisterItsValue : Obligations.ResetGivesEveryRegisterItsValue := by
  unfold Obligations.ResetGivesEveryRegisterItsValue
  refine ⟨fun s rest h => ?_, fun s rest h => step_resetRelease h⟩
  obtain ⟨u, hreset, hparams, hgen⟩ := (s.withSchedule rest).assertReset_eq
  refine ⟨u.resetRegisters.holdReset, hreset ▸ step_resetAssert h, rfl, u.statusWord_resetRegisters, rfl, rfl, rfl, rfl, rfl,
    ?_, rfl, rfl, hparams, hgen, rfl⟩
  exact congrArg (fun p => List.replicate p.erSlots sentinel) hparams

/-- Settles O53: while Idle no command is abandoned, and the registers' reset writes no memory. -/
theorem idleResetKeepsTheMemories : Obligations.IdleResetKeepsTheMemories := by
  unfold Obligations.IdleResetKeepsTheMemories
  exact fun s rest hi h => ⟨_, step_resetAssert_idle hi h, rfl, rfl, rfl, rfl⟩

/-- Settles O54: only the abandoned command's block, coding devices or listed devices take free values; a device the scan met
exists, so an abandoned DECODE ends at the last device. -/
theorem busyResetTouchesOnlyTheCommandsOutputs : Obligations.BusyResetTouchesOnlyTheCommandsOutputs := by
  unfold Obligations.BusyResetTouchesOnlyTheCommandsOutputs
  intro s op rest hbm hinvm harena hp hsched
  let u := s.withSchedule rest
  refine ⟨_, step_resetAssert_busy hp hsched, rfl, (u.abandon op).nextDraw.statusWord_resetRegisters, u.abandon_gen op,
    u.abandon_bm, u.abandon_invm, u.abandon_arena, fun r c => State.bmBit_abandon (s := u) hbm op,
    fun r c => State.invmBit_abandon (s := u) hinvm op, ?_, ?_, ?_⟩
  · rintro rfl a hout
    exact State.read_abandon_encode (s := u) harena hout
  · rintro rfl l hl a hout
    have hlist : u.scannedDevices = l := State.scannedDevices_of_scan (hl ▸ eraseScan_congr rfl rfl rfl)
    exact State.read_abandon_decode (s := u) harena (hlist ▸ hout)
  · rintro rfl a ha
    exact State.read_abandon_decode (s := u) harena fun d hd => State.not_inDevice_of_le (u.scannedDevices_lt d hd) ha

end
